-- ==== Sys2Proof/Word.lean ====
section
/-! DEFINITION. The word types of the block: bytes, 16-bit words, and the index types of the 25 by 80 grid
(spec/00_scope.md R6, R7; spec/10_state.md R21, R22). Every value is unsigned (R7). -/

namespace Sys2Proof

/-- A `u8` of the spec (00_scope R7): glyphs, attributes, operand bytes, vector numbers. -/
abbrev Byte := BitVec 8

/-- A `u16` of the spec (00_scope R7): `HWCUR`, port numbers (20_memory R70), the `PIC` bit fields (10_state R34). -/
abbrev Word := BitVec 16

/-- A row of the buffer, 0 to 24 (10_state R21, R25). DEDUCED, safe: log 17. -/
abbrev Row := Fin 25

/-- A column of the buffer, 0 to 79 (10_state R25). DEDUCED, safe: log 17. -/
abbrev Col := Fin 80

/-- A value of `COL`, 0 to 80, where 80 is the pending wrap (10_state R22; 90_conflicts C1). DEDUCED, safe: log 17. -/
abbrev CurCol := Fin 81

end Sys2Proof
end

