-- ==== Sys2Proof/Config.lean ====
section
/-! DEFINITION. What an implementation fixes (spec/00_scope.md R6) and the free values of the model.
Values the spec fixes are plain definitions. OPEN values that are data stand in `Params`, which State carries
unchanged. OPEN functions and the values drawn from outside are opaque constants: nothing can be proved of them. -/

namespace Sys2Proof

/-! ## Values the spec fixes (00_scope R6) -/

/-- `REPLACEMENT_GLYPH` = 0xFE (R6; 92_eei_decisions D7). -/
def Config.replacementGlyph : Byte := 0xFE#8

/-- `BLANK_GLYPH` = 0x20 (R6; D6). -/
def Config.blankGlyph : Byte := 0x20#8

/-- `NEWLINE` = 0x0A (R6; D8). -/
def Config.newlineByte : Byte := 0x0A#8

/-- `BACKSPACE_BYTE` = 0x08 (R6). -/
def Config.backspaceByte : Byte := 0x08#8

/-- `PRINT_LO` = 0x20 (R6). -/
def Config.printLo : Byte := 0x20#8

/-- `PRINT_HI` = 0x7E (R6). -/
def Config.printHi : Byte := 0x7E#8

/-- `SCROLL_TOP` = 2, the first row a scroll writes (R6; 90_conflicts C2). -/
def Config.scrollTop : Nat := 2

/-- `PIC1_OFFSET` = 0x20, the primary's vector base of the boot remap (R6; 70_reset R273). -/
def Config.pic1Offset : Byte := 0x20#8

/-- `PIC2_OFFSET` = 0x28, the secondary's vector base of the boot remap (R6; 70_reset R273). -/
def Config.pic2Offset : Byte := 0x28#8

/-- `TIMER_VECTOR` = `PIC1_OFFSET + 0` (R6; 41 R181: the fixed constant, not the offset a later `REMAP` receives). -/
def Config.timerVector : Byte := Config.pic1Offset + 0#8

/-- `KBD_VECTOR` = `PIC1_OFFSET + 1` (R6; 41 R181). -/
def Config.kbdVector : Byte := Config.pic1Offset + 1#8

/-- `MAX_STR` = 255 payload bytes in one `WRITE_STR` (R6; D37). -/
def Config.maxStr : Nat := 255

/-! ## OPEN parameters that are data (00_scope R6) -/

/-- The OPEN parameters a model takes as an argument (00_scope R6). State carries them; no step changes them. -/
structure Params where
  /-- `CONSOLE_BASE` (20_memory R61; D16). -/
  consoleBase : Nat
  /-- `CURSOR_INDEX_PORT` (20_memory R71; D15). -/
  cursorIndexPort : Word
  /-- `CURSOR_DATA_PORT` (20_memory R71; D15). -/
  cursorDataPort : Word
  /-- `CURSOR_LOW_INDEX` (20_memory R71; D15). -/
  cursorLowIndex : Byte
  /-- `CURSOR_HIGH_INDEX` (20_memory R71; D15). -/
  cursorHighIndex : Byte
  /-- `RESET_COLOR` (10_state R23; D4). -/
  resetColor : Byte
  /-- `BP_VECTOR` (41 R181; D25). -/
  bpVector : Byte
  /-- `DF_VECTOR` (41 R181; D25). -/
  dfVector : Byte
  /-- `KBD_DATA_PORT` (41 R193; D32). -/
  kbdDataPort : Word
  /-- `PIC_MASK` (10_state R34; D27). -/
  picMask : Word
  deriving DecidableEq, Repr

/-- The constraints the spec puts on the parameters: `CONSOLE_BASE` 2-byte aligned (20_memory R64), two cursor ports
and two select indices (20_memory R71), `BP_VECTOR` and `DF_VECTOR` distinct and in 0..31 (41 R181). -/
structure Params.Ok (p : Params) : Prop where
  base_even : p.consoleBase % 2 = 0
  ports_distinct : p.cursorIndexPort ≠ p.cursorDataPort
  indices_distinct : p.cursorLowIndex ≠ p.cursorHighIndex
  vectors_distinct : p.bpVector ≠ p.dfVector
  bp_reserved : p.bpVector.toNat < 32
  df_reserved : p.dfVector.toNat < 32

/-- The values used when nothing else is given: the spec's general-knowledge defaults (00_scope R6;
93_implementation_defined GK1, GK2, GK6, GK8), PRESUMED, unsafe: log 1. `RESET_COLOR` and `PIC_MASK` are the test
vectors' values (95_test_vectors), DESIGN CHOICE, unsafe: log 2. -/
def Params.default : Params where
  consoleBase := 0xB8000
  cursorIndexPort := 0x3D4#16
  cursorDataPort := 0x3D5#16
  cursorLowIndex := 0x0F#8
  cursorHighIndex := 0x0E#8
  resetColor := 0x0E#8
  bpVector := 3#8
  dfVector := 8#8
  kbdDataPort := 0x60#16
  picMask := 0x0000#16

/-! ## OPEN functions and draws: opaque, so that a proof can rest on none of their values -/

/-- `DecoderState`, the decoder's opaque accumulator (10_state R36), numbered. DESIGN CHOICE, safe: log 10. -/
abbrev DecoderState := Nat

/-- A raw key of 41 R193, numbered. DESIGN CHOICE, safe: log 10. -/
abbrev RawKey := Nat

/-- A decoded key event (41 R193). -/
inductive KeyEvent where
  /-- `Unicode(ch)`: a character. -/
  | unicode (ch : Char)
  /-- `RawKey(k)`: a key without a character, shown by its symbolic name. -/
  | rawKey (k : RawKey)
  deriving DecidableEq, Repr

/-- `DECODE` (00_scope R6; D31), a total function the model does not fix. DESIGN CHOICE: log 10. -/
opaque Config.decode : DecoderState → Byte → DecoderState × Option KeyEvent

/-- `DECODER_INIT` (00_scope R6; D31). DESIGN CHOICE: log 10. -/
opaque Config.decoderInit : DecoderState

/-- `KEYNAME` (00_scope R6; D31). DESIGN CHOICE: log 10. -/
opaque Config.keyName : RawKey → List Byte

/-- The keyboard oracle of 10_state R40: the `n`-th byte `PortRead(KBD_DATA_PORT)` returns. DESIGN CHOICE: log 8. -/
opaque Config.kbdByte : Nat → Byte

/-- `draw ByteString` of 41 R194, R195: the `n`-th printed machine context. DESIGN CHOICE: log 9. -/
opaque Config.contextText : Nat → List Byte

/-- What `HWCUR` holds after a data-port write while `CRTC_IDX` is neither cursor index (20_memory R71, the branch
"not modelled"; 93 U23), from the old `HWCUR`, `CRTC_IDX` and the byte written. No rule reaches it. DESIGN CHOICE:
log 16. -/
opaque Config.unselectedCursorData : Word → Byte → Byte → Word

/-! ## Model fault codes -/

/-- The model fault codes of 60_exceptions R221. -/
inductive FaultCode where
  /-- `F_ILLEGAL_OPCODE`, raised by the decoder (30 R96). -/
  | illegalOpcode
  /-- `F_TRUNCATED`, raised by the decoder (30 R97). -/
  | truncated
  /-- `F_ROW_RANGE`, raised by `CLEAR_ROW` (40 R134). -/
  | rowRange
  /-- `F_REINSTALL`, raised by `INSTALL` (41 R181). -/
  | reinstall
  /-- `F_REMAP_TWICE`, raised by `REMAP` (41 R182). -/
  | remapTwice
  /-- `F_ENABLE_ORDER`, raised by `ENABLE` (41 R183). -/
  | enableOrder
  /-- `F_ENABLE_IN_SECTION`, raised by `ENABLE` (41 R183). -/
  | enableInSection
  /-- `F_SECTION_UNBALANCED`, raised by `SECTION_END` (41 R185). -/
  | sectionUnbalanced
  /-- `F_ACK_BEFORE_REMAP`, raised by `ACK` (41 R189). -/
  | ackBeforeRemap
  /-- `F_ACK_UNOWNED`, raised by `ACK` (41 R189). -/
  | ackUnowned
  /-- `F_ACK_DUPLICATE`, raised by `ACK` (41 R189). -/
  | ackDuplicate
  /-- `F_ACK_MISMATCH`, raised by `ACK` (41 R189). -/
  | ackMismatch
  /-- `F_UNMODELLED_TRIPLE`, raised by `TRAP` (60 R225). -/
  | unmodelledTriple
  deriving DecidableEq, Repr

/-- The number of a model fault code (60_exceptions R221). -/
def FaultCode.number : FaultCode → Byte
  | .illegalOpcode => 0x01#8
  | .truncated => 0x02#8
  | .rowRange => 0x03#8
  | .reinstall => 0x10#8
  | .remapTwice => 0x11#8
  | .enableOrder => 0x12#8
  | .enableInSection => 0x13#8
  | .sectionUnbalanced => 0x14#8
  | .ackBeforeRemap => 0x15#8
  | .ackUnowned => 0x16#8
  | .ackDuplicate => 0x17#8
  | .ackMismatch => 0x18#8
  | .unmodelledTriple => 0x19#8

end Sys2Proof
end

