-- ==== Sys2Proof/Syntax.lean ====
section
/-! DEFINITION. The commands (spec/30_encoding.md R93, R94; spec/opcode_table.json): one constructor per row. -/

namespace Sys2Proof

/-- A command of the stream (30_encoding R90). Operands are the bytes themselves, unsigned (R92). -/
inductive Instr where
  /-- `WRITE_BYTE b` (40_console R130). -/
  | writeByte (b : Byte)
  /-- `WRITE_STR n, s` (40_console R131); `n` is the length of `s`. -/
  | writeStr (s : List Byte)
  /-- `BACKSPACE` (40_console R132). -/
  | backspace
  /-- `NEW_LINE` (40_console R133). -/
  | newLine
  /-- `CLEAR_ROW r` (40_console R134). -/
  | clearRow (r : Byte)
  /-- `INSTALL` (41 R181). -/
  | install
  /-- `REMAP a, b` (41 R182): `primary_offset` and `secondary_offset`. -/
  | remap (a b : Byte)
  /-- `ENABLE` (41 R183). -/
  | enable
  /-- `SECTION_BEGIN` (41 R184). -/
  | sectionBegin
  /-- `SECTION_END` (41 R185). -/
  | sectionEnd
  /-- `BREAKPOINT` (41 R188). -/
  | breakpoint
  deriving DecidableEq, Repr

/-- The encoded length of a command (30_encoding R91, R99). -/
def Instr.length : Instr → Nat
  | .writeByte _ => 2
  | .writeStr s => 2 + s.length
  | .backspace => 1
  | .newLine => 1
  | .clearRow _ => 2
  | .install => 1
  | .remap _ _ => 3
  | .enable => 1
  | .sectionBegin => 1
  | .sectionEnd => 1
  | .breakpoint => 1

end Sys2Proof
end

