-- ==== Sys2Proof/WellFormed.lean ====
section
/-! DEFINITION. Which terms of `Instr` are commands the encoding and the operand rules admit
(spec/30_encoding.md R91, R92, R97). -/

namespace Sys2Proof

/-- The payload of a `WRITE_STR` fits its one-byte length `n` (30_encoding R91; 00_scope R6 `MAX_STR`). -/
def Instr.payloadFits : Instr → Bool
  | .writeStr s => decide (s.length ≤ Config.maxStr)
  | _ => true

/-- The row of a `CLEAR_ROW` exists (30_encoding R92, R97: legal 0..24). -/
def Instr.rowLegal : Instr → Bool
  | .clearRow r => decide (r.toNat ≤ 24)
  | _ => true

/-- A well-formed command: every check of this file. No other operand value is reserved (30_encoding R97). -/
def Instr.wellFormed (i : Instr) : Bool := i.payloadFits && i.rowLegal

end Sys2Proof
end

