-- ==== Sys2Proof/Decode.lean ====
section
/-! DEFINITION. The byte decoder and the encoder (spec/30_encoding.md R90 to R99). The decoder is total: every byte
list gives a command and the bytes after it, or a named model fault. The range check of `CLEAR_ROW` is the command's
own (60_exceptions R221: raised by `CLEAR_ROW`; 40_console R134), so the decoder gives any row byte: log 21. -/

namespace Sys2Proof

/-- What decoding answers. -/
inductive Decoded where
  /-- A command and the bytes that follow it. -/
  | ok (i : Instr) (rest : List Byte)
  /-- The model fault that the bytes raise (30_encoding R96, R97). -/
  | reject (code : FaultCode)
  deriving DecidableEq, Repr

/-- Format `N`: no operand (30_encoding R91). -/
def decodeN (i : Instr) (rest : List Byte) : Decoded := .ok i rest

/-- Format `B`: one operand byte (30_encoding R91, R97). -/
def decodeB (f : Byte → Instr) : List Byte → Decoded
  | b :: rest => .ok (f b) rest
  | [] => .reject .truncated

/-- Format `P`: two operand bytes (30_encoding R91, R97). -/
def decodeP (f : Byte → Byte → Instr) : List Byte → Decoded
  | a :: b :: rest => .ok (f a b) rest
  | _ => .reject .truncated

/-- Format `S`: a length byte `n` and `n` payload bytes (30_encoding R91, R97, R99). -/
def decodeS (f : List Byte → Instr) : List Byte → Decoded
  | n :: rest =>
    if n.toNat ≤ rest.length then .ok (f (rest.take n.toNat)) (rest.drop n.toNat) else .reject .truncated
  | [] => .reject .truncated

/-- The opcode map (30_encoding R93, R94, R96), opcode legality before length (R98). -/
def decodeOpcode (op : Byte) (rest : List Byte) : Decoded :=
  if op = 0x01#8 then decodeB .writeByte rest
  else if op = 0x02#8 then decodeS .writeStr rest
  else if op = 0x03#8 then decodeN .backspace rest
  else if op = 0x04#8 then decodeN .newLine rest
  else if op = 0x05#8 then decodeB .clearRow rest
  else if op = 0x81#8 then decodeN .install rest
  else if op = 0x82#8 then decodeP .remap rest
  else if op = 0x83#8 then decodeN .enable rest
  else if op = 0x84#8 then decodeN .sectionBegin rest
  else if op = 0x85#8 then decodeN .sectionEnd rest
  else if op = 0x86#8 then decodeN .breakpoint rest
  else .reject .illegalOpcode

/-- The decoder (30_encoding R90). On no bytes at all the opcode itself is missing; the machine never decodes there,
since an exhausted stream runs no command (10_state R27). -/
def decode : List Byte → Decoded
  | op :: rest => decodeOpcode op rest
  | [] => .reject .truncated

/-- The bytes of a command (30_encoding R91 to R94). -/
def encode : Instr → List Byte
  | .writeByte b => [0x01#8, b]
  | .writeStr s => 0x02#8 :: BitVec.ofNat 8 s.length :: s
  | .backspace => [0x03#8]
  | .newLine => [0x04#8]
  | .clearRow r => [0x05#8, r]
  | .install => [0x81#8]
  | .remap a b => [0x82#8, a, b]
  | .enable => [0x83#8]
  | .sectionBegin => [0x84#8]
  | .sectionEnd => [0x85#8]
  | .breakpoint => [0x86#8]

/-- The length in bytes of the longest command: `WRITE_STR` with 255 payload bytes (30_encoding R91). -/
def longestCommand : Nat := 2 + Config.maxStr

/-- The bytes of a command whose table bits are `w`, byte `k` in bits `8k+7..8k`, every bit from `nbits` up zero,
laid out to the longest command's length. -/
def tableBytes (nbits w : Nat) : List Byte :=
  (List.range longestCommand).map fun k => BitVec.ofNat 8 ((w % 2 ^ nbits) >>> (8 * k))

/-- The command that the decoder reads from the table word `w` of `nbits` bits. -/
def decodeTableWord (nbits w : Nat) : Option Instr :=
  match decode (tableBytes nbits w) with
  | .ok i _ => some i
  | .reject _ => none

end Sys2Proof
end

