-- ==== Sys2Proof/Machine/State.lean ====
section
/-! DEFINITION. The state of the machine as plain data (spec/10_state.md R20 to R40), the reasons a step can stop,
and the state after reset (spec/70_reset_and_hazards.md R270, R271). -/

namespace Sys2Proof.Machine

/-- A glyph cell `(glyph, attr)` (10_state R25). -/
structure GlyphCell where
  /-- The glyph byte, at offset 0 of the cell (20_memory R62). -/
  glyph : Byte
  /-- The attribute byte, at offset 1 of the cell (20_memory R62). -/
  attr : Byte
  deriving DecidableEq, Repr

/-- The console-buffer address space (20_memory R60): pairs of a physical address and the byte there, addresses
strictly rising, no entry equal to what an unlisted address reads as. -/
abbrev Memory := List Host.Cell

/-- The closed set of handlers (10_state R33). -/
inductive Handler where
  /-- `H_BREAKPOINT` (41 R194). -/
  | breakpoint
  /-- `H_DOUBLE_FAULT` (41 R195). -/
  | doubleFault
  /-- `H_TIMER` (41 R192). -/
  | timer
  /-- `H_KEYBOARD` (41 R193). -/
  | keyboard
  deriving DecidableEq, Repr

/-- A slot of the vector table (10_state R32). -/
inductive Slot where
  /-- `Empty`. -/
  | empty
  /-- `Bound(h, alt)`; `alt` is the alternate-stack selector (10_state R32, R38; 90_conflicts C3). -/
  | bound (h : Handler) (alt : Bool)
  deriving DecidableEq, Repr

/-- The chained controller pair (10_state R34). Bit `L` of a 16-bit field is line `L`; lines 0 to 7 are the
primary's, lines 8 to 15 the secondary's. -/
structure Pic where
  /-- `PIC.REMAPPED`. -/
  remapped : Bool
  /-- `PIC.OFF1`, the primary's vector base. -/
  off1 : Byte
  /-- `PIC.OFF2`, the secondary's vector base. -/
  off2 : Byte
  /-- `PIC.MASK`. -/
  mask : Word
  /-- `PIC.IRR`, requests pending. -/
  irr : Word
  /-- `PIC.ISR`, lines in service. -/
  isr : Word
  deriving DecidableEq, Repr

/-- The console lock (10_state R35). -/
inductive Lock where
  /-- `FREE`. -/
  | free
  /-- `NORMAL`: held by normal-mode code. -/
  | normal
  /-- `IRQ`: held by a handler. -/
  | irq
  deriving DecidableEq, Repr

/-- The key decoder's accumulator (10_state R36). -/
inductive DecoderCell where
  /-- `Uninit`. -/
  | uninit
  /-- `Ready(s)`. -/
  | ready (s : DecoderState)
  deriving DecidableEq, Repr

/-- The causes of the source's terminal halt (60_exceptions R222). -/
inductive HaltCause where
  /-- `DOUBLE_FAULT` (41 R195). -/
  | doubleFault
  /-- `MALFORMED_REMAP` (41 R182). -/
  | malformedRemap
  deriving DecidableEq, Repr

/-- The reasons of a deadlock (60_exceptions R222). -/
inductive StuckReason where
  /-- `SELF_DEADLOCK` (41 R184). -/
  | selfDeadlock
  /-- `IRQ_DEADLOCK` (41 R187). -/
  | irqDeadlock
  deriving DecidableEq, Repr

/-- The system's run state `SYS` (10_state R37). -/
inductive Sys where
  /-- `RUNNING`: normal mode executes the command stream. -/
  | running
  /-- `IDLE`: stream exhausted, interrupts still taken. -/
  | idle
  /-- `HALTED(cause)`. -/
  | halted (cause : HaltCause)
  /-- `STUCK(reason)`. -/
  | stuck (reason : StuckReason)
  /-- `FAULTED`, with `FAULT` set. -/
  | faulted
  deriving DecidableEq, Repr

/-- The execution context `CTX` (10_state R37). -/
inductive Ctx where
  /-- `NORMAL`. -/
  | normal
  /-- `HANDLER(v)`. -/
  | handler (v : Byte)
  deriving DecidableEq, Repr

/-- Which controller of the pair an end-of-interrupt goes to (10_state R39). -/
inductive Controller where
  /-- The primary controller. -/
  | primary
  /-- The secondary controller. -/
  | secondary
  deriving DecidableEq, Repr

/-- An entry of the observable history `EV` (10_state R39). -/
inductive Event where
  /-- `CellW(r, c, g, a)`. -/
  | cellW (r : Row) (c : Col) (g a : Byte)
  /-- `CellR(r, c)`. -/
  | cellR (r : Row) (c : Col)
  /-- `PortW(port, v)`. -/
  | portW (port : Word) (v : Byte)
  /-- `PortR(port, v)`. -/
  | portR (port : Word) (v : Byte)
  /-- `Deliver(v)`. -/
  | deliver (v : Byte)
  /-- `EOI(primary)`, `EOI(secondary)`. -/
  | eoi (which : Controller)
  /-- `Halt(cause)`. -/
  | halt (cause : HaltCause)
  /-- `Fault(code)`. -/
  | fault (code : FaultCode)
  deriving DecidableEq, Repr

/-- The lines a device can raise, `DEVICE_LINES` = 0 and 1 (00_scope R6; 41 R190). -/
inductive DeviceLine where
  /-- Line 0. -/
  | timer
  /-- Line 1. -/
  | keyboard
  deriving DecidableEq, Repr

/-- A move of the environment (41 R180, R190, R191; 60 R229): which of the enabled steps comes next.
DESIGN CHOICE: log 7. -/
inductive EnvMove where
  /-- The next step is a command step. -/
  | command
  /-- The next step is `RAISE(L)`. -/
  | raise (l : DeviceLine)
  /-- The next step is `DELIVER`. -/
  | deliver
  deriving DecidableEq, Repr

/-- The whole state. INVENTORY.md lists each field with its rule and its reset value. -/
structure State where
  /-- The OPEN parameters (00_scope R6), constant over a run. -/
  par : Params
  /-- `ROW` (10_state R21). -/
  row : Row
  /-- `COL` (10_state R22); 80 is the pending wrap. -/
  col : CurCol
  /-- `COLOR` (10_state R23). -/
  color : Byte
  /-- `BUF` (10_state R25), by physical address. -/
  buf : Memory
  /-- `HWCUR` (10_state R26). -/
  hwcur : Word
  /-- `CRTC_IDX` (10_state R26). -/
  crtcIdx : Byte
  /-- The command stream (30_encoding R90). -/
  stream : List Byte
  /-- `cmd_pc` (10_state R27). -/
  cmdPc : Nat
  /-- `FAULT` (10_state R28): the code and the `cmd_pc` it records. -/
  fault : Option (FaultCode × Nat)
  /-- `IF` (10_state R31). -/
  intEnable : Bool
  /-- `VT` (10_state R32). -/
  vt : Vector Slot 256
  /-- `INSTALLED` (10_state R32). -/
  installed : Bool
  /-- `PIC` (10_state R34). -/
  pic : Pic
  /-- `LOCK` (10_state R35). -/
  lock : Lock
  /-- `SAVED_IF` (10_state R35). -/
  savedIf : Bool
  /-- `DSTATE` (10_state R36). -/
  dstate : DecoderCell
  /-- `SYS` (10_state R37). -/
  sys : Sys
  /-- `CTX` (10_state R37). -/
  ctx : Ctx
  /-- `EV` (10_state R39), NEWEST FIRST; `State.EV` is the history in order (log 19). -/
  hist : List Event
  /-- The MODEL's own: the environment's coming moves (log 7). -/
  env : List EnvMove
  /-- The MODEL's own: how many bytes the keyboard port has supplied (log 8). -/
  kbdReads : Nat
  /-- The MODEL's own: how many machine contexts have been drawn (log 9). -/
  ctxDraws : Nat
  deriving DecidableEq, Repr

/-- Why `step` stops. Each is raised by `step` alone, in a state where the spec enables no step. -/
inductive Fault where
  /-- Raised by `step` in `SYS = FAULTED`, or with `FAULT` set: after a model fault no command or event step is
  enabled (60_exceptions R220). Safe: the model stops where the spec does. -/
  | faulted
  /-- Raised by `step` in `SYS = STUCK(reason)`: no step is enabled (60_exceptions R237). Safe: the model stops where
  the spec does. -/
  | deadlock (reason : StuckReason)
  /-- Raised by `step` in `SYS = HALTED(cause)` when no device raises a line: no command runs and no event is
  delivered (60_exceptions R236). Safe: the model stops where the spec does. -/
  | halted (cause : HaltCause)
  deriving DecidableEq, Repr

/-- Why an instruction has no meaning. -/
inductive Refusal where
  /-- Raised by an arm of `exec` whose instruction has no meaning yet; no arm does. Safe. -/
  | notModelled (mnemonic : String)
  deriving DecidableEq, Repr

/-- What reset leaves unspecified (70_reset R270, R271; 93 U10 to U12): any values at all. -/
structure ResetDraws where
  /-- The contents of `BUF` (10_state R25). -/
  buf : Memory
  /-- `HWCUR` (10_state R26). -/
  hwcur : Word
  /-- `CRTC_IDX` (10_state R26). -/
  crtcIdx : Byte
  /-- `PIC.OFF1` (10_state R34). -/
  off1 : Byte
  /-- `PIC.OFF2` (10_state R34). -/
  off2 : Byte
  deriving DecidableEq, Repr

/-- The state right after reset (70_reset R270, R271) for given parameters, given values of what reset leaves
unspecified, the stream normal mode issues and the moves the environment makes. `SYS` is `RUNNING` (10_state R37), which
an empty stream changes to `IDLE` at once, without a step (10_state R27; 70_reset R284; vector DF13): log 12. -/
def State.resetWith (p : Params) (d : ResetDraws) (stream : List Byte) (env : List EnvMove) : State where
  par := p
  row := 0
  col := 0
  color := p.resetColor
  buf := d.buf
  hwcur := d.hwcur
  crtcIdx := d.crtcIdx
  stream := stream
  cmdPc := 0
  fault := none
  intEnable := false
  vt := Vector.replicate 256 .empty
  installed := false
  pic := { remapped := false, off1 := d.off1, off2 := d.off2, mask := p.picMask, irr := 0#16, isr := 0#16 }
  lock := .free
  savedIf := false
  dstate := .uninit
  sys := if stream.isEmpty then .idle else .running
  ctx := .normal
  hist := []
  env := env
  kbdReads := 0
  ctxDraws := 0

/-- The values this model names for what reset leaves unspecified. DESIGN CHOICE, unsafe: log 3, 4, 5. -/
def ResetDraws.zero : ResetDraws where
  buf := []
  hwcur := 0#16
  crtcIdx := 0#8
  off1 := 0#8
  off2 := 0#8

/-- The machine right after reset, with no command stream loaded (log 6) and no environment move planned (log 7). -/
def State.reset : State := State.resetWith Params.default ResetDraws.zero [] []

end Sys2Proof.Machine
end

