-- ==== Sys2Proof/Machine/Flags.lean ====
section
/-! DEFINITION. The console's one flag (spec/10_state.md R24) and the fields of the attribute (R23). -/

namespace Sys2Proof.Machine

/-- `PW = (COL = WIDTH)`, the pending wrap, derived from `COL` (10_state R24). -/
def State.pendingWrap (s : State) : Bool := s.col.val == 80

/-- The foreground colour of an attribute, bits 3..0 (10_state R23; D18). No rule reads it. -/
def attrForeground (a : Byte) : BitVec 4 := a.extractLsb' 0 4

/-- The background colour of an attribute, bits 7..4 (10_state R23; D18). No rule reads it. -/
def attrBackground (a : Byte) : BitVec 4 := a.extractLsb' 4 4

end Sys2Proof.Machine
end

