-- ==== Sys2Proof/Machine/Memory.lean ====
section
/-! DEFINITION. The console-buffer address space (spec/20_memory.md R60 to R65): reading and writing one byte, the
canonical form, and the address of a cell. -/

namespace Sys2Proof.Machine

/-- What an address that the list does not name reads as. The spec leaves the reset contents of the buffer to a draw
(10_state R25). DESIGN CHOICE, unsafe: log 3. -/
def unlistedByte (_address : Nat) : Byte := 0x00#8

/-- The byte at an address: the last one written there, else the reset contents (20_memory R65). -/
def Memory.read : Memory → Nat → Byte
  | [], a => unlistedByte a
  | (b, w) :: m, a => if a = b then w else Memory.read m a

/-- Write one byte, keeping the canonical form: writing what an unlisted address reads as removes the entry. -/
def Memory.write : Memory → Nat → Byte → Memory
  | [], a, v => if v = unlistedByte a then [] else [(a, v)]
  | (b, w) :: m, a, v =>
    if a < b then (if v = unlistedByte a then (b, w) :: m else (a, v) :: (b, w) :: m)
    else if a = b then (if v = unlistedByte a then m else (a, v) :: m)
    else (b, w) :: Memory.write m a v

/-- The canonical form: addresses strictly rising, no entry equal to what its address reads as unlisted. -/
abbrev Memory.wf (m : Memory) : Prop :=
  m.Pairwise (fun x y => x.1 < y.1) ∧ ∀ x ∈ m, x.2 ≠ unlistedByte x.1

/-- Every listed address is inside the console-buffer window `base .. base + 3999` (20_memory R61). -/
abbrev Memory.inWindow (base : Nat) (m : Memory) : Prop := ∀ x ∈ m, base ≤ x.1 ∧ x.1 < base + 4000

/-- The address of the cell at row `r`, column `c` (20_memory R61). -/
def cellAddr (base : Nat) (r : Row) (c : Col) : Nat := base + 2 * (80 * r.val + c.val)

/-- `MemRead(addr, 2)` of 00_scope R9 as a cell: the glyph at the lower address (20_memory R62). -/
def Memory.readCell (m : Memory) (a : Nat) : GlyphCell := ⟨Memory.read m a, Memory.read m (a + 1)⟩

/-- `MemWrite(addr, 2, v)` of 00_scope R9 as a cell: both bytes, glyph at the lower address (20_memory R62, R63). -/
def Memory.writeCell (m : Memory) (a : Nat) (x : GlyphCell) : Memory :=
  Memory.write (Memory.write m a x.glyph) (a + 1) x.attr

/-- A cell read as one 16-bit little-endian word, the attribute in bits 15..8 (20_memory R62). -/
def GlyphCell.word (x : GlyphCell) : Word := x.attr ++ x.glyph

end Sys2Proof.Machine
end

