-- ==== Sys2Proof/Machine/Operands.lean ====
section
/-! DEFINITION. What an operand or data byte means: the printable filter (spec/40_console.md R121), the row operand
(R134), the offsets of `REMAP` (spec/41_interrupt_control.md R182), and the bytes of a decoded character (R193). -/

namespace Sys2Proof.Machine

/-- The classes of the printable filter (40_console R121). -/
inductive ByteClass where
  /-- `PRINT`: written as it is. -/
  | print
  /-- `NEWLINE`: a line advance. -/
  | newline
  /-- `BS`: a backspace. -/
  | bs
  /-- `OTHER`: substituted by the replacement glyph. -/
  | other
  deriving DecidableEq, Repr

/-- `FILTER(b)` (40_console R121). -/
def filterByte (b : Byte) : ByteClass :=
  if Config.printLo ≤ b ∧ b ≤ Config.printHi then .print
  else if b = Config.newlineByte then .newline
  else if b = Config.backspaceByte then .bs
  else .other

/-- The row operand of `CLEAR_ROW`: the byte zero-extended, a row when it is 24 or less (30_encoding R92;
40_console R134). -/
def rowOperand (r : Byte) : Option Row :=
  if h : r.toNat < 25 then some ⟨r.toNat, h⟩ else none

/-- `valid` of `REMAP` (41 R182): both bases multiples of 8, both 32 or more, and distinct. -/
def remapValid (a b : Byte) : Bool :=
  decide (a.toNat % 8 = 0) && decide (b.toNat % 8 = 0) && decide (32 ≤ a.toNat) && decide (32 ≤ b.toNat) && a != b

/-- `utf8(ch)` (41 R193), the UTF-8 bytes of a character (93_implementation_defined GK10). PRESUMED, safe: log 24. -/
def utf8 (ch : Char) : List Byte :=
  let n := ch.toNat
  let tail (k : Nat) : Byte := BitVec.ofNat 8 (0x80 + (n >>> k) % 64)
  if n < 0x80 then [BitVec.ofNat 8 n]
  else if n < 0x800 then [BitVec.ofNat 8 (0xC0 + (n >>> 6)), tail 0]
  else if n < 0x10000 then [BitVec.ofNat 8 (0xE0 + (n >>> 12)), tail 6, tail 0]
  else [BitVec.ofNat 8 (0xF0 + (n >>> 18)), tail 12, tail 6, tail 0]

end Sys2Proof.Machine
end

