-- ==== Sys2Proof/Machine/Ops.lean ====
section
/-! DEFINITION. The named operations: register updates, the access primitives (spec/00_scope.md R9), model faults, halts
and deadlocks (spec/60_exceptions.md R220, R236, R237), the console micro-operations (spec/40_console.md R121 to R131),
the console lock (spec/41_interrupt_control.md R186, R187), the controller pair (R189), taking a trap and returning
from it (spec/60_exceptions.md R225, R231, R233) and the four handlers (R192 to R195). -/

namespace Sys2Proof.Machine

/-! ## Register updates -/

/-- Append one entry to `EV` (10_state R39). -/
def State.log (s : State) (e : Event) : State := { s with hist := e :: s.hist }

/-- `EV` in order (10_state R39). -/
def State.EV (s : State) : List Event := s.hist.reverse

/-- Write `ROW` and `COL`. -/
def State.setCursor (s : State) (r : Row) (c : CurCol) : State := { s with row := r, col := c }

/-- Write `BUF`. -/
def State.setBuf (s : State) (m : Memory) : State := { s with buf := m }

/-- Write `HWCUR`. -/
def State.setHwcur (s : State) (w : Word) : State := { s with hwcur := w }

/-- Write `CRTC_IDX`. -/
def State.setCrtcIdx (s : State) (v : Byte) : State := { s with crtcIdx := v }

/-- `cmd_pc <- cmd_pc + n` (10_state R27). -/
def State.advance (s : State) (n : Nat) : State := { s with cmdPc := s.cmdPc + n }

/-- Write `FAULT`. -/
def State.setFault (s : State) (f : Option (FaultCode × Nat)) : State := { s with fault := f }

/-- Write `IF`. -/
def State.setIntEnable (s : State) (b : Bool) : State := { s with intEnable := b }

/-- Write `SAVED_IF`. -/
def State.setSavedIf (s : State) (b : Bool) : State := { s with savedIf := b }

/-- Write `LOCK`. -/
def State.setLock (s : State) (l : Lock) : State := { s with lock := l }

/-- Write the vector table and set `INSTALLED` (10_state R32). -/
def State.setTable (s : State) (t : Vector Slot 256) : State := { s with vt := t, installed := true }

/-- Write the controller pair. -/
def State.setPic (s : State) (p : Pic) : State := { s with pic := p }

/-- Write `DSTATE`. -/
def State.setDstate (s : State) (d : DecoderCell) : State := { s with dstate := d }

/-- Write `SYS`. -/
def State.setSys (s : State) (y : Sys) : State := { s with sys := y }

/-- Write `CTX`. -/
def State.setCtx (s : State) (c : Ctx) : State := { s with ctx := c }

/-- Write the environment's coming moves (the model's own, log 7). -/
def State.setEnv (s : State) (e : List EnvMove) : State := { s with env := e }

/-- Count one byte read from the keyboard port (the model's own, log 8). -/
def State.countKbdRead (s : State) : State := { s with kbdReads := s.kbdReads + 1 }

/-- Count one printed machine context (the model's own, log 9). -/
def State.countCtxDraw (s : State) : State := { s with ctxDraws := s.ctxDraws + 1 }

/-! ## Access primitives (00_scope R9): one access each, recorded in `EV` (20_memory R66) -/

/-- The cell `BUF[r][c]` as the display sees it (20_memory R67): no access of the controller's, no entry of `EV`. -/
def State.cellAt (s : State) (r : Row) (c : Col) : GlyphCell :=
  Memory.readCell s.buf (cellAddr s.par.consoleBase r c)

/-- The byte at a physical address, as the display sees it. -/
def State.byteAt (s : State) (a : Nat) : Byte := Memory.read s.buf a

/-- `CellRead(r, c)` (00_scope R9): the cell and the state with the access recorded. -/
def State.cellRead (s : State) (r : Row) (c : Col) : GlyphCell × State := (s.cellAt r c, s.log (.cellR r c))

/-- `CellWrite(r, c, x)` (00_scope R9; 20_memory R63: both bytes in one access). -/
def State.cellWrite (s : State) (r : Row) (c : Col) (x : GlyphCell) : State :=
  (s.setBuf (Memory.writeCell s.buf (cellAddr s.par.consoleBase r c) x)).log (.cellW r c x.glyph x.attr)

/-- What a write to `CURSOR_DATA_PORT` does to `HWCUR` (20_memory R71). The last branch is the one R71 does not model;
no rule reaches it, and the value is free: log 16. -/
def cursorData (p : Params) (idx : Byte) (old : Word) (v : Byte) : Word :=
  if idx = p.cursorLowIndex then old.extractLsb' 8 8 ++ v
  else if idx = p.cursorHighIndex then v ++ old.extractLsb' 0 8
  else Config.unselectedCursorData old idx v

/-- `PortWrite(port, v)` (00_scope R9; 20_memory R70, R71). No rule writes any other port. -/
def State.portWrite (s : State) (port : Word) (v : Byte) : State :=
  if port = s.par.cursorIndexPort then (s.log (.portW port v)).setCrtcIdx v
  else if port = s.par.cursorDataPort then (s.log (.portW port v)).setHwcur (cursorData s.par s.crtcIdx s.hwcur v)
  else s.log (.portW port v)

/-- `PortRead(KBD_DATA_PORT)` (10_state R40; 20_memory R70): one scancode from the oracle, consumed. The byte is free:
log 8. -/
def State.kbdRead (s : State) : Byte × State :=
  (Config.kbdByte s.kbdReads, (s.log (.portR s.par.kbdDataPort (Config.kbdByte s.kbdReads))).countKbdRead)

/-! ## Model faults, halts and deadlocks -/

/-- `raise Fault(code)` (60_exceptions R220). -/
def State.raiseFault (s : State) (code : FaultCode) : State :=
  ((s.setFault (some (code, s.cmdPc))).setSys .faulted).log (.fault code)

/-- `halt(cause)` (60_exceptions R222, R236). -/
def State.halt (s : State) (cause : HaltCause) : State := (s.setSys (.halted cause)).log (.halt cause)

/-- `stuck(reason)` (60_exceptions R237): nothing is appended to `EV` (R222). -/
def State.becomeStuck (s : State) (reason : StuckReason) : State := s.setSys (.stuck reason)

/-- An operation that may end the step it is part of: by a model fault, a halt or a deadlock. -/
inductive Ran where
  /-- The operation is done and the step goes on. -/
  | done (s : State)
  /-- The step ends here, in this state. -/
  | stopped (s : State)
  deriving DecidableEq, Repr

/-- Go on with `f` unless the step has ended. -/
def Ran.andThen : Ran → (State → Ran) → Ran
  | .done s, f => f s
  | .stopped s, _ => .stopped s

/-- The state an operation leaves. -/
def Ran.state : Ran → State
  | .done s => s
  | .stopped s => s

/-! ## Console micro-operations (40_console, part 1) -/

/-- `BLANK` (40_console R122). -/
def State.blank (s : State) : GlyphCell := ⟨Config.blankGlyph, s.color⟩

/-- All columns, 0 to 79, in increasing order. -/
def allCols : List Col := List.finRange 80

/-- `CLEAR(r)` (40_console R126). -/
def clearRowOp (r : Row) (s : State) : State := allCols.foldl (fun t c => t.cellWrite r c t.blank) s

/-- The row above, where a scroll copies to (40_console R125: from row `r` to row `r - 1`). -/
def rowAbove (r : Row) : Row := ⟨r.val - 1, by have := r.isLt; omega⟩

/-- One copy of a scroll: `v <- CellRead(r, c)`, then `CellWrite(r - 1, c, v)` (40_console R125). -/
def scrollCell (r : Row) (s : State) (c : Col) : State :=
  (s.cellRead r c).2.cellWrite (rowAbove r) c (s.cellRead r c).1

/-- One row of a scroll, columns in increasing order (40_console R125). -/
def scrollRow (s : State) (r : Row) : State := allCols.foldl (scrollCell r) s

/-- The rows a scroll reads, 3 to 24, in increasing order (40_console R125). -/
def scrollRows : List Row := (List.finRange 25).drop (Config.scrollTop + 1)

/-- `SCROLL()` (40_console R125). -/
def scroll (s : State) : State := clearRowOp 24 (scrollRows.foldl scrollRow s)

/-- `NEWLINE_OP()` (40_console R124). -/
def newlineOp (s : State) : State :=
  if h : s.row.val < 24 then s.setCursor ⟨s.row.val + 1, by omega⟩ 0
  else (scroll s).setCursor s.row 0

/-- The end of `PLACE`: write the glyph at column `c` of the cursor's row, then `COL <- c + 1` (40_console R123). -/
def placeAt (g : Byte) (c : Col) (s : State) : State :=
  (s.cellWrite s.row c ⟨g, s.color⟩).setCursor s.row ⟨c.val + 1, by have := c.isLt; omega⟩

/-- `PLACE(g)` (40_console R123). On a pending wrap the forced new line leaves `COL = 0`. -/
def place (g : Byte) (s : State) : State :=
  if h : s.col.val < 80 then placeAt g ⟨s.col.val, h⟩ s else placeAt g 0 (newlineOp s)

/-- `BACKSPACE_OP()` (40_console R127). -/
def backspaceOp (s : State) : State :=
  if s.row.val = 0 then s
  else if 1 < s.col.val then
    (s.setCursor s.row ⟨s.col.val - 1, by have := s.col.isLt; omega⟩).cellWrite s.row
      ⟨s.col.val - 1, by have := s.col.isLt; omega⟩ s.blank
  else (s.setCursor (rowAbove s.row) 79).cellWrite (rowAbove s.row) 79 s.blank

/-- The hardware cursor position of the logical cursor, `ROW * WIDTH + COL` (40_console R128). -/
def cursorPos (r : Row) (c : CurCol) : Word := BitVec.ofNat 16 (80 * r.val + c.val)

/-- `SYNC()` (40_console R128): two pairs of (select, data) writes, low half first (90_conflicts C6). -/
def sync (s : State) : State :=
  let pos := cursorPos s.row s.col
  let s1 := s.portWrite s.par.cursorIndexPort s.par.cursorLowIndex
  let s2 := s1.portWrite s.par.cursorDataPort (pos.extractLsb' 0 8)
  let s3 := s2.portWrite s.par.cursorIndexPort s.par.cursorHighIndex
  s3.portWrite s.par.cursorDataPort (pos.extractLsb' 8 8)

/-- `BYTE_OP(b)` (40_console R129). -/
def byteOp (s : State) (b : Byte) : State :=
  match filterByte b with
  | .print => place b s
  | .newline => newlineOp s
  | .bs => backspaceOp s
  | .other => place Config.replacementGlyph s

/-- The bytes of a string in order, before the `SYNC` (40_console R131). -/
def bytesOp (bs : List Byte) (s : State) : State := bs.foldl byteOp s

/-- `STR_OP(s)` (40_console R131): every byte, then `SYNC`. -/
def strOp (bs : List Byte) (s : State) : State := sync (bytesOp bs s)

/-! ## The console lock (41 R186, R187) -/

/-- `NORMAL_CONSOLE(body)` (41 R186). -/
def normalConsole (body : State → State) (s : State) : State :=
  if s.lock = .normal then body s
  else ((body ((s.setIntEnable false).setLock .normal)).setLock .free).setIntEnable s.intEnable

/-- `IRQ_CONSOLE(body)` (41 R187). -/
def irqConsole (body : State → State) (s : State) : Ran :=
  if s.lock = .normal then .stopped (s.becomeStuck .irqDeadlock)
  else .done ((body (s.setLock .irq)).setLock .free)

/-! ## The controller pair (41 R189) -/

/-- `w` with bit `l` set. -/
def setBit (w : Word) (l : Nat) : Word := w ||| (1#16 <<< l)

/-- `w` with bit `l` clear. -/
def clearBit (w : Word) (l : Nat) : Word := w &&& ~~~(1#16 <<< l)

/-- The primary's lines (10_state R34). -/
def primaryLines : List Nat := [0, 1, 2, 3, 4, 5, 6, 7]

/-- The secondary's lines (10_state R34). -/
def secondaryLines : List Nat := [8, 9, 10, 11, 12, 13, 14, 15]

/-- The primary line that carries the secondary's output (10_state R34; D36). -/
def cascadeLine : Nat := 2

/-- `CHECK_TOP(range, L)` (41 R189): the lowest set bit of `ISR` in the range is the line acknowledged. -/
def checkTop (lines : List Nat) (l : Nat) (s : State) : Ran :=
  match lines.find? (fun j => s.pic.isr.getLsbD j) with
  | none => .stopped (s.raiseFault .ackDuplicate)
  | some j => if j = l then .done s else .stopped (s.raiseFault .ackMismatch)

/-- Clear `ISR[L]` and append the end-of-interrupt (41 R189). `MASK` and the offsets stay (90_conflicts C8). -/
def endOfInterrupt (which : Controller) (l : Nat) (s : State) : State :=
  (s.setPic { s.pic with isr := clearBit s.pic.isr l }).log (.eoi which)

/-- `CHECK_TOP`, then the end-of-interrupt of that line (41 R189). -/
def ackLine (which : Controller) (lines : List Nat) (l : Nat) (s : State) : Ran :=
  (checkTop lines l s).andThen fun t => .done (endOfInterrupt which l t)

/-- Whether vector `v` lies in the eight vectors from `base` (41 R189). -/
def ownsVector (base v : Byte) : Bool := decide (base.toNat ≤ v.toNat) && decide (v.toNat < base.toNat + 8)

/-- `ACK(v)` (41 R189): secondary then primary when the secondary raised it, primary only otherwise. -/
def acknowledge (v : Byte) (s : State) : Ran :=
  if s.pic.remapped = false then .stopped (s.raiseFault .ackBeforeRemap)
  else if ownsVector s.pic.off2 v then
    (ackLine .secondary secondaryLines (8 + (v.toNat - s.pic.off2.toNat)) s).andThen
      (ackLine .primary primaryLines cascadeLine)
  else if ownsVector s.pic.off1 v then ackLine .primary primaryLines (v.toNat - s.pic.off1.toNat) s
  else .stopped (s.raiseFault .ackUnowned)

/-! ## Handler bodies (41 R192 to R195) -/

/-- `IRQ_CONSOLE(STR_OP(ctx))` with `ctx` a drawn byte string (41 R194, R195; D30). The text is free: log 9. -/
def printContext (s : State) : Ran := irqConsole (strOp (Config.contextText s.ctxDraws)) s.countCtxDraw

/-- `H_TIMER` (41 R192). -/
def timerHandler (v : Byte) (s : State) : Ran := acknowledge v s

/-- The decoder's state, constructed on first use (10_state R36; 41 R193). -/
def decoderStateOf : DecoderCell → DecoderState
  | .uninit => Config.decoderInit
  | .ready d => d

/-- What a key event writes to the console (41 R193). -/
def keyText : KeyEvent → List Byte
  | .unicode ch => utf8 ch
  | .rawKey k => Config.keyName k

/-- The console write of `H_KEYBOARD` for a decoder answer (41 R193). -/
def forwardKey (ev : Option KeyEvent) (s : State) : Ran :=
  match ev with
  | none => .done s
  | some e => irqConsole (strOp (keyText e)) s

/-- `H_KEYBOARD` (41 R193): read one byte, decode it, write what it decodes to, then acknowledge. -/
def keyboardHandler (v : Byte) (s : State) : Ran :=
  let b := s.kbdRead.1
  let answer := Config.decode (decoderStateOf s.dstate) b
  ((forwardKey answer.2 (s.kbdRead.2.setDstate (.ready answer.1))).andThen (acknowledge v))

/-- `H_BREAKPOINT` (41 R194). -/
def breakpointHandler (s : State) : Ran := printContext s

/-- `H_DOUBLE_FAULT` (41 R195): print, then halt; it never returns. -/
def doubleFaultHandler (s : State) : Ran := (printContext s).andThen fun t => .stopped (t.halt .doubleFault)

/-- Run the handler of a bound slot (60_exceptions R231). -/
def runHandler (h : Handler) (v : Byte) (s : State) : Ran :=
  match h with
  | .breakpoint => breakpointHandler s
  | .doubleFault => doubleFaultHandler s
  | .timer => timerHandler v s
  | .keyboard => keyboardHandler v s

/-! ## Taking a trap and returning from it (60_exceptions R225, R231, R233) -/

/-- Trap entry: interrupts masked, handler context (60_exceptions R231). The alternate stack of a slot with `alt` has
no observable state (10_state R38). -/
def trapEntry (v : Byte) (s : State) : State := (s.setIntEnable false).setCtx (.handler v)

/-- The end of a trap's atomic step: `CTX` is `HANDLER(v)` only inside it (10_state R37). -/
def leaveHandler (s : State) : State := s.setCtx .normal

/-- Trap return: `IF` as saved at entry, normal context; the stream resumes at `cmd_pc` (60_exceptions R233). -/
def trapReturn (savedIf : Bool) (s : State) : State := (leaveHandler s).setIntEnable savedIf

/-- `TRAP_BODY(v)` for a slot bound to `h` (60_exceptions R231). A body that halts, sticks or faults does not return: `IF`
stays 0, and the step ends (10_state R37: log 14). -/
def trapBody (v : Byte) (h : Handler) (s : State) : State :=
  match runHandler h v (trapEntry v s) with
  | .done t => trapReturn s.intEnable t
  | .stopped t => leaveHandler t

/-- The slot a trap finds: every slot is empty while no table is installed (60_exceptions R225, R231). -/
def State.slotOf (s : State) (v : Byte) : Slot :=
  if s.installed then s.vt[v.toNat]'(by have := v.isLt; omega) else .empty

/-- `EMPTY_SLOT(v)` (60_exceptions R225): the double-fault path, or the model fault when there is no such handler. -/
def emptySlot (s : State) : State :=
  if s.slotOf s.par.dfVector = .bound .doubleFault true then trapBody s.par.dfVector .doubleFault s
  else s.raiseFault .unmodelledTriple

/-- `TRAP(v)` (60_exceptions R231), one atomic step. -/
def trap (v : Byte) (s : State) : State :=
  match (s.log (.deliver v)).slotOf v with
  | .empty => emptySlot (s.log (.deliver v))
  | .bound h _ => trapBody v h (s.log (.deliver v))

end Sys2Proof.Machine
end

