-- ==== Sys2Proof/Machine/Delivery.lean ====
section
/-! DEFINITION. The environment's two events (spec/41_interrupt_control.md R190, R191): a device raises a line, and a
pending interrupt is delivered. -/

namespace Sys2Proof.Machine

/-- The line number of a device (41 R190): timer first, keyboard second. -/
def DeviceLine.number : DeviceLine → Nat
  | .timer => 0
  | .keyboard => 1

/-- `RAISE(L)` (41 R190): `PIC.IRR[L] <- 1`. -/
def raiseLine (l : DeviceLine) (s : State) : State :=
  s.setPic { s.pic with irr := setBit s.pic.irr l.number }

/-- `ISR[j] = 0` for every `j` in `lo .. hi`. -/
def noneInService (p : Pic) (lo hi : Nat) : Bool := (List.range' lo (hi + 1 - lo)).all fun j => !p.isr.getLsbD j

/-- Whether line `l` is deliverable (41 R191). -/
def deliverable (p : Pic) (l : Nat) : Bool :=
  p.irr.getLsbD l && !p.mask.getLsbD l &&
    (if l < 8 then l != cascadeLine && noneInService p 0 l
     else noneInService p 8 l && !p.mask.getLsbD cascadeLine && noneInService p 0 cascadeLine)

/-- The order in which lines are considered (41 R191; 60_exceptions R228). -/
def deliveryOrder : List Nat := [0, 1, 8, 9, 10, 11, 12, 13, 14, 15, 3, 4, 5, 6, 7]

/-- The first deliverable line, if there is one (41 R191). -/
def firstDeliverable (p : Pic) : Option Nat := deliveryOrder.find? (deliverable p)

/-- Whether `SYS` lets events be taken: `RUNNING` or `IDLE` (41 R191). -/
def Sys.live : Sys → Bool
  | .running => true
  | .idle => true
  | .halted _ => false
  | .stuck _ => false
  | .faulted => false

/-- The line that a `DELIVER` step takes, `none` when the step is not enabled (41 R191). -/
def deliverLine (s : State) : Option Nat :=
  if s.sys.live = true ∧ s.fault = none ∧ s.intEnable = true ∧ s.ctx = .normal then firstDeliverable s.pic else none

/-- The vector of a line (60_exceptions R224), 8 bits: log 25. -/
def vectorOf (p : Pic) (l : Nat) : Byte :=
  if 8 ≤ l then p.off2 + BitVec.ofNat 8 (l - 8) else p.off1 + BitVec.ofNat 8 l

/-- The controller pair once line `l` is taken (41 R191): `IRR` to `ISR`, and the cascade line with a secondary one. -/
def takeLine (p : Pic) (l : Nat) : Pic :=
  let taken := setBit p.isr l
  { p with irr := clearBit p.irr l, isr := if 8 ≤ l then setBit taken cascadeLine else taken }

/-- `DELIVER` (41 R191). Where the step is not enabled nothing happens: log 7. -/
def deliver (s : State) : State :=
  match deliverLine s with
  | none => s
  | some l => trap (vectorOf s.pic l) (s.setPic (takeLine s.pic l))

end Sys2Proof.Machine
end

