-- ==== Sys2Proof/Machine/Console.lean ====
section
/-! DEFINITION. The meanings of the five console commands (spec/40_console.md R130 to R134). Each runs as one atomic
step under the console lock (R120; spec/41_interrupt_control.md R186). -/

namespace Sys2Proof.Machine

/-- `WRITE_BYTE b` (40_console R130). No `SYNC`. -/
def execWriteByte (b : Byte) (s : State) : Host.Outcome State Fault Refusal :=
  .next (normalConsole (fun t => (byteOp t b).advance (Instr.writeByte b).length) s)

/-- `WRITE_STR n, s` (40_console R131). -/
def execWriteStr (bs : List Byte) (s : State) : Host.Outcome State Fault Refusal :=
  .next (normalConsole (fun t => (strOp bs t).advance (Instr.writeStr bs).length) s)

/-- `BACKSPACE` (40_console R132). No `SYNC`. -/
def execBackspace (s : State) : Host.Outcome State Fault Refusal :=
  .next (normalConsole (fun t => (backspaceOp t).advance Instr.backspace.length) s)

/-- `NEW_LINE` (40_console R133). No `SYNC`. -/
def execNewLine (s : State) : Host.Outcome State Fault Refusal :=
  .next (normalConsole (fun t => (newlineOp t).advance Instr.newLine.length) s)

/-- `CLEAR_ROW r` (40_console R134). The row check comes before any effect, the lock included (41 R186). -/
def execClearRow (r : Byte) (s : State) : Host.Outcome State Fault Refusal :=
  match rowOperand r with
  | none => .next (s.raiseFault .rowRange)
  | some row => .next (normalConsole (fun t => (clearRowOp row t).advance (Instr.clearRow r).length) s)

end Sys2Proof.Machine
end

