-- ==== Sys2Proof/Machine/InterruptControl.lean ====
section
/-! DEFINITION. The meanings of the six dispatch-block commands (spec/41_interrupt_control.md R181 to R185, R188). None
takes the console lock (R186). -/

namespace Sys2Proof.Machine

/-- Bind one slot of a vector table. -/
def setSlot (t : Vector Slot 256) (v : Byte) (x : Slot) : Vector Slot 256 :=
  t.set v.toNat x (by have := v.isLt; omega)

/-- The table `INSTALL` builds (41 R181); only the double-fault slot has the alternate stack (90_conflicts C3). -/
def builtTable (p : Params) : Vector Slot 256 :=
  setSlot (setSlot (setSlot (setSlot (Vector.replicate 256 .empty)
    p.bpVector (.bound .breakpoint false))
    p.dfVector (.bound .doubleFault true))
    Config.timerVector (.bound .timer false))
    Config.kbdVector (.bound .keyboard false)

/-- `INSTALL` (41 R181). -/
def execInstall (s : State) : Host.Outcome State Fault Refusal :=
  if s.installed = true then .next (s.raiseFault .reinstall)
  else .next ((s.setTable (builtTable s.par)).advance Instr.install.length)

/-- `REMAP a, b` (41 R182). A malformed remap halts with `cmd_pc` still at it (log 22). -/
def execRemap (a b : Byte) (s : State) : Host.Outcome State Fault Refusal :=
  if s.pic.remapped = true then .next (s.raiseFault .remapTwice)
  else if remapValid a b = false then .next (s.halt .malformedRemap)
  else .next ((s.setPic { s.pic with off1 := a, off2 := b, remapped := true }).advance (Instr.remap a b).length)

/-- `ENABLE` (41 R183): the order check before the section check (60_exceptions R230). -/
def execEnable (s : State) : Host.Outcome State Fault Refusal :=
  if s.installed = false ∨ s.pic.remapped = false then .next (s.raiseFault .enableOrder)
  else if s.lock = .normal then .next (s.raiseFault .enableInSection)
  else .next ((s.setIntEnable true).advance Instr.enable.length)

/-- `SECTION_BEGIN` (41 R184). The busy-wait on a lock the waiter holds never ends (60_exceptions R237). -/
def execSectionBegin (s : State) : Host.Outcome State Fault Refusal :=
  if s.lock = .normal then .next (s.becomeStuck .selfDeadlock)
  else .next ((((s.setSavedIf s.intEnable).setIntEnable false).setLock .normal).advance Instr.sectionBegin.length)

/-- `SECTION_END` (41 R185). -/
def execSectionEnd (s : State) : Host.Outcome State Fault Refusal :=
  if s.lock = .normal then .next (((s.setLock .free).setIntEnable s.savedIf).advance Instr.sectionEnd.length)
  else .next (s.raiseFault .sectionUnbalanced)

/-- `BREAKPOINT` (41 R188): the return point is the next command, then the trap, whatever `IF` is. -/
def execBreakpoint (s : State) : Host.Outcome State Fault Refusal :=
  .next (trap s.par.bpVector (s.advance Instr.breakpoint.length))

end Sys2Proof.Machine
end

