-- ==== Sys2Proof/Machine/Dispatch.lean ====
section
/-! DEFINITION. One arm per command: the meaning it calls. -/

namespace Sys2Proof.Machine

def exec (i : Instr) (s : State) : Host.Outcome State Fault Refusal :=
  match i with
  | .writeByte b => Sys2Proof.Machine.execWriteByte b s
  | .writeStr bs => Sys2Proof.Machine.execWriteStr bs s
  | .backspace => Sys2Proof.Machine.execBackspace s
  | .newLine => Sys2Proof.Machine.execNewLine s
  | .clearRow r => Sys2Proof.Machine.execClearRow r s
  | .install => Sys2Proof.Machine.execInstall s
  | .remap a b => Sys2Proof.Machine.execRemap a b s
  | .enable => Sys2Proof.Machine.execEnable s
  | .sectionBegin => Sys2Proof.Machine.execSectionBegin s
  | .sectionEnd => Sys2Proof.Machine.execSectionEnd s
  | .breakpoint => Sys2Proof.Machine.execBreakpoint s

end Sys2Proof.Machine
end

