-- ==== Sys2Proof/Machine/Fetch.lean ====
section
/-! DEFINITION. One command step and one event step (spec/41_interrupt_control.md R180), fetching from the command stream
(spec/30_encoding.md R90), and how an instruction is laid where the next step fetches it. -/

namespace Sys2Proof.Machine

/-- The bytes of the stream from `cmd_pc` on (30_encoding R90). -/
def State.fetchBytes (s : State) : List Byte := s.stream.drop s.cmdPc

/-- Whether the stream is exhausted (10_state R27). -/
def State.exhausted (s : State) : Bool := decide (s.stream.length ≤ s.cmdPc)

/-- Decode and run the command at `cmd_pc`; bytes that do not decode raise their model fault (30_encoding R96, R97). -/
def runCommand (s : State) : Host.Outcome State Fault Refusal :=
  match decode s.fetchBytes with
  | .ok i _ => exec i s
  | .reject code => .next (s.raiseFault code)

/-- When `cmd_pc` equals the stream's length the system is idle: `RUNNING` changes to `IDLE` (10_state R27, R37; 70_reset
R284: log 12). -/
def State.settle (s : State) : State :=
  if s.sys = .running ∧ s.exhausted = true then s.setSys .idle else s

/-- What a command answers, in a system that the end of the stream makes idle. -/
def settled : Host.Outcome State Fault Refusal → Host.Outcome State Fault Refusal
  | .next t => .next t.settle
  | .fault f => .fault f
  | .refused r => .refused r

/-- A command step (41 R180): the command, and the system idle in the same step when it was the last one (10_state R27). A
system at the end of its stream runs no command. -/
def commandStep (s : State) : Host.Outcome State Fault Refusal :=
  if s.sys = .running ∧ s.exhausted = false then settled (runCommand s) else .next s.settle

/-- The step of a live system: the environment's next move, a command step when it plans none (41 R180; 60_exceptions
R229: log 7). -/
def liveStep (s : State) : Host.Outcome State Fault Refusal :=
  match s.env with
  | [] => commandStep s
  | .command :: moves => commandStep (s.setEnv moves)
  | .raise l :: moves => .next (raiseLine l (s.setEnv moves))
  | .deliver :: moves => .next (deliver (s.setEnv moves))

/-- The step of a halted system: a device may still raise its line (41 R190), nothing else happens (60_exceptions
R236). DEDUCED: log 13. -/
def haltedStep (cause : HaltCause) (s : State) : Host.Outcome State Fault Refusal :=
  match s.env with
  | .raise l :: moves => .next (raiseLine l (s.setEnv moves))
  | _ => .fault (.halted cause)

/-- One step of the system (41 R180; 60_exceptions R220, R236, R237). -/
def systemStep (s : State) : Host.Outcome State Fault Refusal :=
  if s.fault.isSome = true then .fault .faulted
  else
    match s.sys with
    | .running => liveStep s
    | .idle => liveStep s
    | .halted cause => haltedStep cause s
    | .stuck reason => .fault (.deadlock reason)
    | .faulted => .fault .faulted

/-- `s` with `bytes` as the rest of its stream, running, with no fault and no environment move before the command:
what the next step needs in order to fetch there (log 6). -/
def placeAtFetch (bytes : List Byte) (s : State) : State :=
  { s with
    stream := (List.range s.cmdPc).map (fun k => s.stream.getD k 0#8) ++ bytes
    sys := .running, fault := none, env := [] }

end Sys2Proof.Machine
end

