-- ==== Sys2Proof/Machine/Step.lean ====
section
/-! DEFINITION. The step of the machine, and the state in which the next step runs a given table word. -/

namespace Sys2Proof.Machine

/-- One step (spec/41_interrupt_control.md R180). -/
def step (s : State) : Host.Outcome State Fault Refusal := systemStep s

/-- `s` with the instruction of table bits `w` (the bits from `nbits` up zero) where `step` fetches next: log 6. -/
def State.withFetchWord (s : State) (nbits w : Nat) : State := placeAtFetch (tableBytes nbits w) s

end Sys2Proof.Machine
end

