-- ==== Sys2Proof/Machine/Assembler.lean ====
section
/-! DEFINITION. The textual syntax and the pseudo-commands (spec/30_encoding.md R100, R101). One line of text gives the
commands it stands for; nothing here is part of a step. What R100 leaves open of the text is log 23. -/

namespace Sys2Proof.Machine

/-! ## Pseudo-commands (30_encoding R101) -/

/-- The chunks of `PUTS`: at most `k` full chunks of 255 bytes, then the rest. -/
def putsChunks : Nat → List Byte → List Instr
  | 0, bs => [.writeStr bs]
  | k + 1, bs =>
    if bs.length ≤ Config.maxStr then [.writeStr bs]
    else .writeStr (bs.take Config.maxStr) :: putsChunks k (bs.drop Config.maxStr)

/-- `PUTS "…"` (30_encoding R101; D37): each `WRITE_STR` carries the next 255 bytes, one with `n = 0` for no byte. -/
def puts (bs : List Byte) : List Instr := putsChunks (bs.length / Config.maxStr) bs

/-- `PRINTLN "…"` (30_encoding R101): the newline is part of the same string. -/
def println (bs : List Byte) : List Instr := puts (bs ++ [Config.newlineByte])

/-! ## Textual syntax (30_encoding R100) -/

/-- The single quote. -/
def singleQuote : Char := Char.ofNat 39

/-- The double quote. -/
def doubleQuote : Char := Char.ofNat 34

/-- The backslash. -/
def backslash : Char := Char.ofNat 92

/-- The value of a digit, up to hexadecimal. -/
def digitValue (c : Char) : Option Nat :=
  if '0' ≤ c ∧ c ≤ '9' then some (c.toNat - '0'.toNat)
  else if 'a' ≤ c ∧ c ≤ 'f' then some (c.toNat - 'a'.toNat + 10)
  else if 'A' ≤ c ∧ c ≤ 'F' then some (c.toNat - 'A'.toNat + 10)
  else none

/-- The number a row of digits stands for in a base, read on from `acc`. -/
def digitsValue (base : Nat) : Nat → List Char → Option Nat
  | acc, [] => some acc
  | acc, c :: cs =>
    match digitValue c with
    | some d => if d < base then digitsValue base (acc * base + d) cs else none
    | none => none

/-- A number of one byte in a base; at least one digit. -/
def byteOfDigits (base : Nat) (cs : List Char) : Option Byte :=
  match cs, digitsValue base 0 cs with
  | _ :: _, some n => if n < 256 then some (BitVec.ofNat 8 n) else none
  | _, _ => none

/-- A number: decimal, or hexadecimal after 0x, or binary after 0b (00_scope R7). -/
def numberOfText : List Char → Option Byte
  | '0' :: 'x' :: cs => byteOfDigits 16 cs
  | '0' :: 'b' :: cs => byteOfDigits 2 cs
  | cs => byteOfDigits 10 cs

/-- The text after its leading spaces. -/
def skipSpaces (cs : List Char) : List Char := cs.dropWhile (· == ' ')

/-- A byte operand and the text after it: a quoted ASCII character or a number (30_encoding R100). -/
def byteOperandText (cs : List Char) : Option (Byte × List Char) :=
  match skipSpaces cs with
  | q :: c :: q' :: rest =>
    if q = singleQuote then
      if q' = singleQuote ∧ c.toNat < 128 then some (BitVec.ofNat 8 c.toNat, rest) else none
    else (numberOfText ((q :: c :: q' :: rest).takeWhile Char.isAlphanum)).map
      fun b => (b, (q :: c :: q' :: rest).dropWhile Char.isAlphanum)
  | t => (numberOfText (t.takeWhile Char.isAlphanum)).map fun b => (b, t.dropWhile Char.isAlphanum)

/-- The inside of a string operand up to its closing quote, and the text after it, with the escapes of 30_encoding
R100. -/
def stringBody : List Char → Option (List Byte × List Char)
  | [] => none
  | c :: t =>
    if c = doubleQuote then some ([], t)
    else if c = backslash then
      match t with
      | 'n' :: t' => (stringBody t').map fun r => (0x0A#8 :: r.1, r.2)
      | 'b' :: t' => (stringBody t').map fun r => (0x08#8 :: r.1, r.2)
      | 'x' :: h :: l :: t' =>
        match byteOfDigits 16 [h, l], stringBody t' with
        | some b, some r => some (b :: r.1, r.2)
        | _, _ => none
      | _ => none
    else (stringBody t).map fun r => (utf8 c ++ r.1, r.2)

/-- Whether only spaces are left. -/
def lineEnds (cs : List Char) : Bool := (skipSpaces cs).isEmpty

/-- A line with no operand. -/
def lineN (i : Instr) (cs : List Char) : Option (List Instr) := if lineEnds cs then some [i] else none

/-- A line with one byte operand. -/
def lineB (f : Byte → Instr) (cs : List Char) : Option (List Instr) :=
  match byteOperandText cs with
  | some (b, rest) => lineN (f b) rest
  | none => none

/-- A line with two byte operands, separated by a comma. -/
def lineP (f : Byte → Byte → Instr) (cs : List Char) : Option (List Instr) :=
  match byteOperandText cs with
  | some (a, rest) =>
    match skipSpaces rest with
    | ',' :: rest' => lineB (f a) rest'
    | _ => none
  | none => none

/-- A line with one string operand; its length is implied (30_encoding R100). -/
def lineS (f : List Byte → Option (List Instr)) (cs : List Char) : Option (List Instr) :=
  match skipSpaces cs with
  | c :: t =>
    if c = doubleQuote then
      match stringBody t with
      | some (bs, rest) => if lineEnds rest then f bs else none
      | none => none
    else none
  | [] => none

/-- The commands one line of text stands for (30_encoding R100, R101), `none` where the line is not of the syntax. -/
def assembleLine (line : List Char) : Option (List Instr) :=
  let text := skipSpaces line
  let name := String.ofList (text.takeWhile fun c => c.isUpper || c == '_')
  let rest := text.dropWhile fun c => c.isUpper || c == '_'
  if name = "WRITE_BYTE" then lineB .writeByte rest
  else if name = "WRITE_STR" then
    lineS (fun bs => if (Instr.writeStr bs).wellFormed then some [.writeStr bs] else none) rest
  else if name = "BACKSPACE" then lineN .backspace rest
  else if name = "NEW_LINE" then lineN .newLine rest
  else if name = "CLEAR_ROW" then lineB .clearRow rest
  else if name = "INSTALL" then lineN .install rest
  else if name = "REMAP" then lineP .remap rest
  else if name = "ENABLE" then lineN .enable rest
  else if name = "SECTION_BEGIN" then lineN .sectionBegin rest
  else if name = "SECTION_END" then lineN .sectionEnd rest
  else if name = "BREAKPOINT" then lineN .breakpoint rest
  else if name = "PUTS" then lineS (fun bs => some (puts bs)) rest
  else if name = "PRINTLN" then lineS (fun bs => some (println bs)) rest
  else none

end Sys2Proof.Machine
end

