-- ==== Sys2Proof/Machine/Display.lean ====
section
/-! DEFINITION. The display as an observer (spec/20_memory.md R67, R71): what it sees, and how one entry of `EV` changes
that. The display reads between any two accesses and changes nothing, so it takes no step of its own: log 20. -/

namespace Sys2Proof.Machine

/-- What the display sees: the buffer and its two cursor registers (20_memory R67; 10_state R26). -/
structure View where
  /-- The cell buffer. -/
  buf : Memory
  /-- `HWCUR`. -/
  hwcur : Word
  /-- `CRTC_IDX`. -/
  crtcIdx : Byte
  deriving DecidableEq, Repr

/-- What the display sees in a state. -/
def State.view (s : State) : View := ⟨s.buf, s.hwcur, s.crtcIdx⟩

/-- What the display sees after one more access (20_memory R63, R67, R71): a cell write and a write to a cursor port
change it, nothing else does. -/
def View.after (p : Params) (v : View) : Event → View
  | .cellW r c g a => { v with buf := Memory.writeCell v.buf (cellAddr p.consoleBase r c) ⟨g, a⟩ }
  | .portW port x =>
    if port = p.cursorIndexPort then { v with crtcIdx := x }
    else if port = p.cursorDataPort then { v with hwcur := cursorData p v.crtcIdx v.hwcur x }
    else v
  | .cellR _ _ => v
  | .portR _ _ => v
  | .deliver _ => v
  | .eoi _ => v
  | .halt _ => v
  | .fault _ => v

/-- What the display sees after a list of accesses, in order. After the first `k` entries that a step appends to `EV` it
is what a display read between the `k`-th access and the next one sees (20_memory R66, R67). -/
def View.afterAll (p : Params) (v : View) (es : List Event) : View := es.foldl (View.after p) v

end Sys2Proof.Machine
end

