-- ==== Sys2Proof/Safety.lean ====
section
/-! DEFINITION. The terms the claims use: the invariant of the system, a completed run (spec/70_reset_and_hazards.md
R284), and what a step leaves alone. -/

namespace Sys2Proof.Machine

/-- What holds of every state the system reaches between two steps. -/
structure State.Inv (s : State) : Prop where
  /-- The parameters meet the spec's constraints (20_memory R64; 41 R181). -/
  params : s.par.Ok
  /-- The buffer's memory is in canonical form. -/
  buf_wf : Memory.wf s.buf
  /-- Nothing outside the console-buffer window is listed (20_memory R61). -/
  buf_window : Memory.inWindow s.par.consoleBase s.buf
  /-- `cmd_pc` is at most the stream's length (10_state R20). -/
  pc_in_stream : s.cmdPc ≤ s.stream.length
  /-- `FAULT` is set exactly in `SYS = FAULTED` (10_state R37; 60_exceptions R220). -/
  fault_iff : s.fault.isSome = true ↔ s.sys = .faulted
  /-- A running system has a command to run (10_state R27). -/
  running_pc : s.sys = .running → s.cmdPc < s.stream.length
  /-- An idle system has run its whole stream (10_state R27, R37). -/
  idle_pc : s.sys = .idle → s.cmdPc = s.stream.length
  /-- Between steps the context is `NORMAL` (10_state R37). -/
  ctx_normal : s.ctx = .normal
  /-- No handler holds the lock between steps (41 R184, R187). -/
  lock_not_irq : s.lock ≠ .irq
  /-- `LOCK = NORMAL` implies `IF = 0` (41 R187). -/
  locked_masked : s.lock = .normal → s.intEnable = false
  /-- Interrupts are enabled, or to be restored so, only after `INSTALL` and `REMAP` (41 R183). -/
  enabled_booted : s.intEnable = true ∨ s.savedIf = true → s.installed = true ∧ s.pic.remapped = true
  /-- The table is the one `INSTALL` builds (10_state R32). -/
  table_built : s.installed = true → s.vt = builtTable s.par
  /-- Before `INSTALL` every slot is empty (10_state R32). -/
  table_empty : s.installed = false → s.vt = Vector.replicate 256 .empty
  /-- The offsets after a remap are valid (41 R182). -/
  offsets_valid : s.pic.remapped = true → remapValid s.pic.off1 s.pic.off2 = true
  /-- Between steps of a live system no line is in service (70_reset R279). -/
  none_in_service : s.sys.live = true → s.pic.isr = 0#16
  /-- Only device lines are ever pending (41 R190). -/
  device_lines : ∀ l, 2 ≤ l → s.pic.irr.getLsbD l = false

/-- A completed run (70_reset R284). -/
structure State.Complete (s : State) : Prop where
  /-- The stream is exhausted. -/
  exhausted : s.cmdPc = s.stream.length
  /-- `SYS = IDLE`. -/
  idle : s.sys = .idle
  /-- `FAULT = none`. -/
  no_fault : s.fault = none
  /-- `LOCK = FREE`. -/
  lock_free : s.lock = .free

/-- `t` differs from `s` at most in `ROW`, `COL`, `BUF`, `EV` and a `cmd_pc` advanced by `n`: nothing else of the state
has changed. -/
def State.KeepsAllButCells (s t : State) (n : Nat) : Prop :=
  t = { s with row := t.row, col := t.col, buf := t.buf, hist := t.hist, cmdPc := s.cmdPc + n }

/-- `t` differs from `s` at most in `ROW`, `COL`, `BUF`, `HWCUR`, `CRTC_IDX`, `EV` and a `cmd_pc` advanced by `n`. -/
def State.KeepsAllButConsole (s t : State) (n : Nat) : Prop :=
  t = { s with
    row := t.row, col := t.col, buf := t.buf, hwcur := t.hwcur, crtcIdx := t.crtcIdx, hist := t.hist
    cmdPc := s.cmdPc + n }

/-- The byte at `a` is one of the two bytes of the cell at row `r`, column `c`. -/
def State.inCell (s : State) (r : Row) (c : Col) (a : Nat) : Prop :=
  a = cellAddr s.par.consoleBase r c ∨ a = cellAddr s.par.consoleBase r c + 1

/-- The byte at `a` is in row `r` of the buffer. -/
def State.inRow (s : State) (r : Row) (a : Nat) : Prop :=
  s.par.consoleBase + 160 * r.val ≤ a ∧ a < s.par.consoleBase + 160 * r.val + 160

/-- `s` after the model fault `code` is raised in it: only `FAULT`, `SYS` and `EV` have changed (60_exceptions
R220). -/
def State.faultedWith (s : State) (code : FaultCode) : State :=
  { s with fault := some (code, s.cmdPc), sys := .faulted, hist := .fault code :: s.hist }

/-- The one cell access between `s` and `t` is the write of `x` at row `r`, column `c`: the cell reads `x`, `EV` has the
one entry more, and every other byte is as before. -/
def State.WroteCell (s t : State) (r : Row) (c : Col) (x : GlyphCell) : Prop :=
  t.cellAt r c = x ∧ t.EV = s.EV ++ [.cellW r c x.glyph x.attr] ∧ ∀ a, ¬s.inCell r c a → t.byteAt a = s.byteAt a

/-- The glyph that a byte of class PRINT or OTHER leaves in its cell (40_console R121, R129). -/
def glyphOf (b : Byte) : Byte := if 0x20 ≤ b.toNat ∧ b.toNat ≤ 0x7E then b else 0xFE#8

/-- The accesses of `SCROLL` from `s`, in order (40_console R125). -/
def scrollTrace (s : State) : List Event :=
  (((List.finRange 25).drop 3).flatMap fun r => (List.finRange 80).flatMap fun c =>
    [.cellR r c, .cellW (rowAbove r) c (s.cellAt r c).glyph (s.cellAt r c).attr]) ++
  (List.finRange 80).map fun c => .cellW 24 c 0x20#8 s.color

/-- The accesses of a line advance from `s` (40_console R124). -/
def lineTrace (s : State) : List Event := if s.row.val = 24 then scrollTrace s else []

/-- The access of a backspace from `s` (40_console R127). -/
def eraseTrace (s : State) : List Event :=
  if s.row.val = 0 then []
  else if 1 < s.col.val then [.cellW s.row ⟨s.col.val - 1, by have := s.col.isLt; omega⟩ 0x20#8 s.color]
  else [.cellW (rowAbove s.row) 79 0x20#8 s.color]

/-- The cell the next glyph goes to (40_console R123): on a pending wrap, column 0 of the next row, the last row after a
scroll. -/
def nextCell (s : State) : Row × Col :=
  if h : s.col.val < 80 then (s.row, ⟨s.col.val, h⟩)
  else if h : s.row.val < 24 then (⟨s.row.val + 1, by omega⟩, 0)
  else (s.row, 0)

/-- The accesses of one byte from `s` (40_console R121, R123, R129). -/
def byteTrace (s : State) (b : Byte) : List Event :=
  if b = 0x0A#8 then lineTrace s
  else if b = 0x08#8 then eraseTrace s
  else (if s.col.val = 80 then lineTrace s else []) ++ [.cellW (nextCell s).1 (nextCell s).2 (glyphOf b) s.color]

/-- The accesses of the bytes of a string in order (40_console R131). -/
def bytesTrace : List Byte → State → List Event
  | [], _ => []
  | b :: bs, s => byteTrace s b ++ bytesTrace bs (byteOp s b)

/-- The accesses of a `SYNC` of the cursor position `pos` (40_console R128; 90_conflicts C6). -/
def syncTrace (p : Params) (pos : Word) : List Event :=
  [.portW p.cursorIndexPort p.cursorLowIndex, .portW p.cursorDataPort (pos.extractLsb' 0 8),
    .portW p.cursorIndexPort p.cursorHighIndex, .portW p.cursorDataPort (pos.extractLsb' 8 8)]

/-- The entries of `EV` that a console command makes, in order (40_console R130 to R134); none for the others. -/
def consoleTrace (i : Instr) (s : State) : List Event :=
  match i with
  | .writeByte b => byteTrace s b
  | .writeStr bs =>
    bytesTrace bs s ++
      syncTrace s.par (BitVec.ofNat 16 (80 * (bytesOp bs s).row.val + (bytesOp bs s).col.val))
  | .backspace => eraseTrace s
  | .newLine => lineTrace s
  | .clearRow r =>
    if h : r.toNat < 25 then (List.finRange 80).map fun c => .cellW ⟨r.toNat, h⟩ c 0x20#8 s.color
    else [.fault .rowRange]
  | .install => []
  | .remap _ _ => []
  | .enable => []
  | .sectionBegin => []
  | .sectionEnd => []
  | .breakpoint => []

/-- Whether an entry of `EV` is an end-of-interrupt. -/
def isEoi : Event → Bool
  | .eoi _ => true
  | _ => false

/-- The dispatch-block commands of the boot order (70_reset R273). -/
def bootCommands : List Instr := [.remap Config.pic1Offset Config.pic2Offset, .install, .enable]

/-- The next step of `s` is a command step (41 R180): the system is running without a fault and the environment plans no
event first. -/
def State.RunsCommandNext (s : State) : Prop :=
  s.sys = .running ∧ s.fault = none ∧ (s.env = [] ∨ ∃ moves, s.env = .command :: moves)

/-- The next step of `s` is the event `e` (41 R180), after which the environment's moves are `moves`. -/
def State.TakesEventNext (s : State) (e : EnvMove) (moves : List EnvMove) : Prop :=
  s.sys.live = true ∧ s.fault = none ∧ s.env = e :: moves

/-- The next step of `s` is a `DELIVER` that takes the device line `l` (41 R191; 60_exceptions R228: the keyboard only
where the timer is not deliverable), when no line is in service. -/
def State.DeliversNext (s : State) (l : DeviceLine) (moves : List EnvMove) : Prop :=
  s.TakesEventNext .deliver moves ∧ s.intEnable = true ∧ s.pic.irr.getLsbD l.number = true ∧
    s.pic.mask.getLsbD l.number = false ∧
    (l = .keyboard → s.pic.irr.getLsbD 0 = false ∨ s.pic.mask.getLsbD 0 = true)

/-- `s` once its next environment move, if there is one, is used up. -/
def State.afterMove (s : State) : State := { s with env := s.env.tail }

/-- `s` and `t` have the same console: parameters, registers, buffer, display registers. -/
def State.SameConsole (s t : State) : Prop :=
  s.par = t.par ∧ s.row = t.row ∧ s.col = t.col ∧ s.color = t.color ∧ s.buf = t.buf ∧ s.hwcur = t.hwcur ∧
    s.crtcIdx = t.crtcIdx

/-- The five console commands (30_encoding R93). -/
def consoleCommand : Instr → Bool
  | .writeByte _ => true
  | .writeStr _ => true
  | .backspace => true
  | .newLine => true
  | .clearRow _ => true
  | .install => false
  | .remap _ _ => false
  | .enable => false
  | .sectionBegin => false
  | .sectionEnd => false
  | .breakpoint => false

/-- The model faults of `ACK` (60_exceptions R221). -/
def ackFault : FaultCode → Bool
  | .ackBeforeRemap => true
  | .ackUnowned => true
  | .ackDuplicate => true
  | .ackMismatch => true
  | _ => false

/-- Run commands one after another, as far as they answer a next state. -/
def runCommands : List Instr → State → Host.Outcome State Fault Refusal
  | [], s => .next s
  | i :: is, s =>
    match exec i s with
    | .next t => runCommands is t
    | .fault r => .fault r
    | .refused r => .refused r

end Sys2Proof.Machine
end

