-- ==== Sys2Proof/Certificates/Slice0/Obligations.lean ====
section
/-! DEFINITION. The statements for the provers. Every `LOCK ≠ IRQ` below excludes a state no command step starts in
(41 R184); that no step reaches it is part of `StepKeepsTheInvariant`. -/

section

open Sys2Proof Sys2Proof.Machine

/-! ## Encoding and the step -/

/-- Decoding an encoded command gives it back and leaves the bytes after it (30_encoding R91 to R94, R99). That the
decoder gives `CLEAR_ROW` with a row of 25 and up too, for the command to raise `F_ROW_RANGE`, is the model's choice:
log 21. -/
def Obligations.DecodeOfEncodeIsTheCommand : Prop :=
  ∀ (i : Instr) (rest : List Byte), i.payloadFits = true →
    decode (encode i ++ rest) = .ok i rest ∧ (encode i).length = i.length

/-- Every byte list that decodes is the encoding of what it decodes to, followed by the rest (30_encoding R90 to R94). -/
def Obligations.EncodeOfDecodeIsTheBytes : Prop :=
  ∀ (bs : List Byte) (i : Instr) (rest : List Byte), decode bs = .ok i rest →
    encode i ++ rest = bs ∧ i.payloadFits = true

/-- The examples of 30_encoding R100 and words of the opcode map R93, R94. -/
def Obligations.WrittenOutWordsDecode : Prop :=
  decode [0x01#8, 0x41#8] = .ok (.writeByte 0x41#8) [] ∧
  decode [0x02#8, 0x02#8, 0x48#8, 0x69#8] = .ok (.writeStr [0x48#8, 0x69#8]) [] ∧
  decode [0x05#8, 0x18#8] = .ok (.clearRow 24#8) [] ∧
  decode [0x82#8, 0x20#8, 0x28#8, 0x81#8] = .ok (.remap 0x20#8 0x28#8) [0x81#8] ∧
  decode [0x86#8] = .ok .breakpoint []

/-- A step whose next command decodes is that command's meaning, once the environment's move is used up (41 R180), with
the system made idle when the command was the last of the stream (10_state R27). -/
def Obligations.StepRunsTheDecodedCommand : Prop :=
  ∀ (s : State) (i : Instr) (rest : List Byte), s.RunsCommandNext → decode s.fetchBytes = .ok i rest →
    step s = settled (exec i s.afterMove)

/-- 30_encoding R96: the illegal opcodes, and what decoding one does. -/
def Obligations.IllegalOpcodeFaults : Prop :=
  ∀ (op : Byte) (rest : List Byte),
    (decode (op :: rest) = .reject .illegalOpcode ↔
      op.toNat = 0 ∨ (0x06 ≤ op.toNat ∧ op.toNat ≤ 0x80) ∨ 0x87 ≤ op.toNat) ∧
    ∀ s : State, s.RunsCommandNext → s.fetchBytes = op :: rest → decode (op :: rest) = .reject .illegalOpcode →
      step s = .next (s.afterMove.faultedWith .illegalOpcode)

/-- 30_encoding R97, first part: operand bytes past the end of the stream. -/
def Obligations.TruncatedCommandFaults : Prop :=
  ∀ (s : State) (op : Byte) (rest : List Byte), s.RunsCommandNext → s.fetchBytes = op :: rest →
    ((op = 0x01#8 ∨ op = 0x05#8) ∧ rest = []) ∨ (op = 0x82#8 ∧ rest.length < 2) ∨ (op = 0x02#8 ∧ rest = []) ∨
      (op = 0x02#8 ∧ ∃ n payload, rest = n :: payload ∧ payload.length < n.toNat) →
    step s = .next (s.afterMove.faultedWith .truncated)

/-- The command that leaves `cmd_pc` at the stream's length makes a system that still runs idle in its own step, and
changes nothing else so (10_state R27, R37); with the lock free the run is then complete (70_reset R284). Any other
command's step is its meaning alone. A run of the empty stream is complete with no step (vector DF13). That this change is
no step of its own is the model's reading: log 12. -/
def Obligations.ExhaustedStreamMakesIdle : Prop :=
  (∀ (s u : State) (i : Instr) (rest : List Byte), s.RunsCommandNext → decode s.fetchBytes = .ok i rest →
    exec i s.afterMove = .next u →
    (u.sys = .running → u.cmdPc = u.stream.length →
      step s = .next { u with sys := .idle } ∧ (u.lock = .free → State.Complete { u with sys := .idle })) ∧
    (u.sys ≠ .running ∨ u.cmdPc < u.stream.length → step s = .next u)) ∧
  ∀ (p : Params) (d : ResetDraws) (env : List EnvMove), (State.resetWith p d [] env).Complete

/-- After a fault, in a deadlock and in a halt that no device disturbs, no step is enabled (60_exceptions R220, R236,
R237). -/
def Obligations.StoppedSystemTakesNoStep : Prop :=
  ∀ s : State,
    (s.fault ≠ none → step s = .fault .faulted) ∧
    (∀ reason, s.fault = none → s.sys = .stuck reason → step s = .fault (.deadlock reason)) ∧
    (∀ cause, s.fault = none → s.sys = .halted cause → (∀ l moves, s.env ≠ .raise l :: moves) →
      step s = .fault (.halted cause))

/-- The values reset leaves (70_reset R270, R271), for any parameters and any values of what it leaves unspecified, the
stream and the environment. That `SYS` is `IDLE` at once for the empty stream is the model's reading (vector DF13):
log 12. -/
def Obligations.ResetLeavesTheStatedValues : Prop :=
  ∀ (p : Params) (d : ResetDraws) (stream : List Byte) (env : List EnvMove),
    let s := State.resetWith p d stream env
    s.row = 0 ∧ s.col = 0 ∧ s.color = p.resetColor ∧ s.buf = d.buf ∧ s.hwcur = d.hwcur ∧ s.crtcIdx = d.crtcIdx ∧
    s.cmdPc = 0 ∧ s.fault = none ∧ s.intEnable = false ∧ s.installed = false ∧
    (∀ v : Fin 256, s.vt[v] = .empty) ∧ s.pic.remapped = false ∧ s.pic.off1 = d.off1 ∧ s.pic.off2 = d.off2 ∧
    s.pic.mask = p.picMask ∧ s.pic.irr = 0#16 ∧ s.pic.isr = 0#16 ∧ s.lock = .free ∧ s.savedIf = false ∧
    s.dstate = .uninit ∧ s.sys = (if stream = [] then .idle else .running) ∧ s.ctx = .normal ∧ s.EV = []

/-- The invariant holds right after reset. The parameter defaults and the zero draws of `State.reset` are the model's
choice: log 1 to 5. -/
def Obligations.ResetMeetsTheInvariant : Prop :=
  (∀ (p : Params) (d : ResetDraws) (stream : List Byte) (env : List EnvMove), p.Ok → Memory.wf d.buf →
    Memory.inWindow p.consoleBase d.buf → (State.resetWith p d stream env).Inv) ∧
  State.reset.Inv

/-- Every step keeps the invariant. -/
def Obligations.StepKeepsTheInvariant : Prop :=
  ∀ s t : State, s.Inv → step s = .next t → t.Inv

/-- No step changes the parameters, the stream, `COLOR` (10_state R23) or `PIC.MASK` (60_exceptions R227). -/
def Obligations.StepKeepsTheConstants : Prop :=
  ∀ s t : State, step s = .next t →
    t.par = s.par ∧ t.stream = s.stream ∧ t.color = s.color ∧ t.pic.mask = s.pic.mask

/-- 70_reset R282: after `INSTALL` the table does not change, and a second `INSTALL` is refused. -/
def Obligations.InstalledTableIsImmutable : Prop :=
  (∀ s t : State, s.installed = true → step s = .next t → t.installed = true ∧ t.vt = s.vt) ∧
  (∀ s : State, s.installed = true → exec .install s = .next (s.faultedWith .reinstall))

/-- A step only appends to `EV` (10_state R39). -/
def Obligations.HistoryOnlyGrows : Prop :=
  ∀ s t : State, step s = .next t → ∃ es, t.EV = s.EV ++ es

/-- The entries a step appends to `EV`, replayed in order, take what the display sees before the step to what it sees after
it (20_memory R65, R67, R71; 10_state R39). The replay alone: which entries there are is said by
`ConsoleCommandsMakeExactlyTheirAccesses` and by the statements about deliveries. -/
def Obligations.HistoryAccountsForEveryWrite : Prop :=
  ∀ s t : State, step s = .next t → ∃ es, t.EV = s.EV ++ es ∧ t.view = s.view.afterAll s.par es

/-- No step changes a byte outside the console-buffer window (20_memory R61). -/
def Obligations.BytesOutsideTheWindowNeverChange : Prop :=
  ∀ (s t : State) (a : Nat), step s = .next t → a < s.par.consoleBase ∨ s.par.consoleBase + 4000 ≤ a →
    t.byteAt a = s.byteAt a

/-- From a state that meets the invariant no step raises a fault of `ACK` (70_reset R276, R279). That a delivery is
acknowledged at all is `EveryDeliveryIsAcknowledgedOnce`. -/
def Obligations.NoAcknowledgeFaultIsReachable : Prop :=
  ∀ (s t : State) (code : FaultCode) (pc : Nat), s.Inv → step s = .next t → t.fault = some (code, pc) →
    ackFault code = false

/-- What a console command does to the console does not depend on the dispatch block (60_exceptions R239). -/
def Obligations.ConsoleIgnoresTheDispatchBlock : Prop :=
  ∀ (i : Instr) (s s' t : State), consoleCommand i = true → s.SameConsole s' → exec i s = .next t →
    ∃ t' es, exec i s' = .next t' ∧ t.SameConsole t' ∧ t.EV = s.EV ++ es ∧ t'.EV = s'.EV ++ es

/-! ## Console commands -/

/-- `WRITE_BYTE` of a PRINT or OTHER byte on a free column (40_console R121, R123, R129, R130). -/
def Obligations.WriteByteAtAFreeColumn : Prop :=
  ∀ (s : State) (b : Byte) (c : Col), s.lock ≠ .irq → Memory.wf s.buf → s.col.val = c.val → b ≠ 0x0A#8 → b ≠ 0x08#8 →
    ∃ t, exec (.writeByte b) s = .next t ∧ t.row = s.row ∧ t.col.val = c.val + 1 ∧
      s.WroteCell t s.row c ⟨glyphOf b, s.color⟩ ∧ s.KeepsAllButCells t 2

/-- On a pending wrap, `WRITE_BYTE` of a PRINT or OTHER byte is a `NEW_LINE` and then that `WRITE_BYTE` at column 0
(40_console R123, R136). -/
def Obligations.PendingWrapForcesANewLineFirst : Prop :=
  ∀ (s : State) (b : Byte), s.lock ≠ .irq → s.col = 80 → b ≠ 0x0A#8 → b ≠ 0x08#8 →
    ∃ u t, exec .newLine s = .next u ∧ u.col = 0 ∧ exec (.writeByte b) u = .next t ∧
      exec (.writeByte b) s = .next { t with cmdPc := s.cmdPc + 2 }

/-- `WRITE_BYTE 0x0A` is `NEW_LINE` but for its length (40_console R121, R129; one line advance from `COL = 80` too). -/
def Obligations.WriteByteNewlineIsNewLine : Prop :=
  ∀ s : State, s.lock ≠ .irq →
    ∃ t, exec .newLine s = .next t ∧ exec (.writeByte 0x0A#8) s = .next { t with cmdPc := s.cmdPc + 2 }

/-- `WRITE_BYTE 0x08` is `BACKSPACE` but for its length (40_console R121, R129). -/
def Obligations.WriteByteBackspaceIsBackspace : Prop :=
  ∀ s : State, s.lock ≠ .irq →
    ∃ t, exec .backspace s = .next t ∧ exec (.writeByte 0x08#8) s = .next { t with cmdPc := s.cmdPc + 2 }

/-- 40_console R132: `BACKSPACE` at row 0, at a column past 1, and at column 0 or 1 of a lower row. -/
def Obligations.BackspaceErasesBackwards : Prop :=
  encode .backspace = [0x03#8] ∧
  ∀ s : State, s.lock ≠ .irq → Memory.wf s.buf →
    ∃ t, exec .backspace s = .next t ∧ s.KeepsAllButCells t 1 ∧
      if s.row.val = 0 then t.row = s.row ∧ t.col = s.col ∧ t.buf = s.buf ∧ t.EV = s.EV
      else if 1 < s.col.val then
        ∃ c : Col, c.val = s.col.val - 1 ∧ t.row = s.row ∧ t.col.val = c.val ∧ s.WroteCell t s.row c ⟨0x20#8, s.color⟩
      else
        ∃ r : Row, r.val + 1 = s.row.val ∧ t.row = r ∧ t.col.val = 79 ∧ s.WroteCell t r 79 ⟨0x20#8, s.color⟩

/-- 40_console R138: `BACKSPACE` writes no cell of column 0, and from `(r, 1)` goes to the previous row with the glyph at
`(r, 0)` left. -/
def Obligations.BackspaceNeverWritesColumnZero : Prop :=
  ∀ s : State, s.lock ≠ .irq →
    ∃ t es, exec .backspace s = .next t ∧ t.EV = s.EV ++ es ∧ (∀ r g a, .cellW r 0 g a ∉ es) ∧
      (∀ r : Row, t.cellAt r 0 = s.cellAt r 0) ∧ (s.col.val = 1 → 1 ≤ s.row.val → t.row.val + 1 = s.row.val)

/-- 40_console R133: `NEW_LINE` moves down, or scrolls on the last row. -/
def Obligations.NewLineAdvancesOrScrolls : Prop :=
  encode .newLine = [0x04#8] ∧
  ∀ s : State, s.lock ≠ .irq → Memory.wf s.buf →
    ∃ t, exec .newLine s = .next t ∧ t.col = 0 ∧ s.KeepsAllButCells t 1 ∧
      if s.row.val ≤ 23 then t.row.val = s.row.val + 1 ∧ t.buf = s.buf ∧ t.EV = s.EV
      else t.row = s.row ∧ t.EV = s.EV ++ scrollTrace s ∧
        (∀ (r r' : Row) (c : Col), 2 ≤ r.val → r'.val = r.val + 1 → t.cellAt r c = s.cellAt r' c) ∧
        (∀ c : Col, t.cellAt 24 c = ⟨0x20#8, s.color⟩) ∧
        (∀ a, (∀ r : Row, 2 ≤ r.val → ¬s.inRow r a) → t.byteAt a = s.byteAt a)

/-- 40_console R125: the accesses of a scroll in their order, what they leave in the buffer, and no register written. -/
def Obligations.ScrollAccessesInOrder : Prop :=
  ∀ s : State, Memory.wf s.buf →
    (scroll s).EV = s.EV ++ scrollTrace s ∧
    (∀ (r r' : Row) (c : Col), 2 ≤ r.val → r'.val = r.val + 1 → (scroll s).cellAt r c = s.cellAt r' c) ∧
    (∀ c : Col, (scroll s).cellAt 24 c = ⟨0x20#8, s.color⟩) ∧
    (∀ (r : Row) (c : Col), r.val < 2 → (scroll s).cellAt r c = s.cellAt r c) ∧
    (∀ a, (∀ r : Row, 2 ≤ r.val → ¬s.inRow r a) → (scroll s).byteAt a = s.byteAt a) ∧
    scroll s = { s with buf := (scroll s).buf, hist := (scroll s).hist }

/-- 40_console R134: `CLEAR_ROW` of a row that exists, of one that does not, and without its operand. -/
def Obligations.ClearRowBlanksItsRow : Prop :=
  (∀ r, encode (.clearRow r) = [0x05#8, r]) ∧ decode [0x05#8] = .reject .truncated ∧
  ∀ (s : State) (r : Byte),
    (∀ q : Row, q.val = r.toNat → s.lock ≠ .irq → Memory.wf s.buf →
      ∃ t, exec (.clearRow r) s = .next t ∧ t.row = s.row ∧ t.col = s.col ∧ s.KeepsAllButCells t 2 ∧
        (∀ c : Col, t.cellAt q c = ⟨0x20#8, s.color⟩) ∧ (∀ a, ¬s.inRow q a → t.byteAt a = s.byteAt a) ∧
        t.EV = s.EV ++ (List.finRange 80).map fun c => .cellW q c 0x20#8 s.color) ∧
    (25 ≤ r.toNat → exec (.clearRow r) s = .next (s.faultedWith .rowRange))

/-- 40_console R128 and 20_memory R69: `WRITE_STR` leaves the cursor, the buffer and the cell accesses of its bytes
written one by one, then the four port writes of one `SYNC`, after which `HWCUR` is the cursor's position. -/
def Obligations.WriteStrIsItsBytesThenOneSync : Prop :=
  ∀ (s : State) (bs : List Byte), s.lock ≠ .irq → s.par.Ok →
    ∃ u t pos, runCommands (bs.map .writeByte) s = .next u ∧ exec (.writeStr bs) s = .next t ∧
      t.row = u.row ∧ t.col = u.col ∧ t.buf = u.buf ∧
      pos = BitVec.ofNat 16 (80 * t.row.val + t.col.val) ∧ t.hwcur = pos ∧ t.hwcur.toNat = 80 * t.row.val + t.col.val ∧
      t.crtcIdx = s.par.cursorHighIndex ∧
      t.EV = u.EV ++ [.portW s.par.cursorIndexPort s.par.cursorLowIndex,
        .portW s.par.cursorDataPort (pos.extractLsb' 0 8), .portW s.par.cursorIndexPort s.par.cursorHighIndex,
        .portW s.par.cursorDataPort (pos.extractLsb' 8 8)] ∧
      (∀ e ∈ u.EV.drop s.EV.length, ∀ p v, e ≠ .portW p v) ∧
      s.KeepsAllButConsole t (2 + bs.length)

/-- A `WRITE_STR` of PRINT bytes that fits the rest of its row fills exactly the cells from the cursor on (40_console
R123, R131). -/
def Obligations.WriteStrWithinARow : Prop :=
  ∀ (s : State) (bs : List Byte), s.lock ≠ .irq → Memory.wf s.buf → s.par.Ok → s.col.val + bs.length ≤ 80 →
    (∀ b ∈ bs, 0x20 ≤ b.toNat ∧ b.toNat ≤ 0x7E) →
    ∃ t, exec (.writeStr bs) s = .next t ∧ t.row = s.row ∧ t.col.val = s.col.val + bs.length ∧
      s.KeepsAllButConsole t (2 + bs.length) ∧
      (∀ (k : Nat) (b : Byte) (c : Col), bs[k]? = some b → c.val = s.col.val + k → t.cellAt s.row c = ⟨b, s.color⟩) ∧
      (∀ a, (∀ c : Col, s.col.val ≤ c.val → c.val < s.col.val + bs.length → ¬s.inCell s.row c a) →
        t.byteAt a = s.byteAt a)

/-- A full row of PRINT bytes from column 0 and one more PRINT or OTHER byte: the extra byte is at the next row's column
0, on the last row after a scroll (40_console R141). -/
def Obligations.FullRowThenOneMoreWraps : Prop :=
  ∀ (s : State) (bs : List Byte) (b : Byte), s.lock ≠ .irq → Memory.wf s.buf → s.par.Ok → s.col = 0 →
    bs.length = 80 → (∀ x ∈ bs, 0x20 ≤ x.toNat ∧ x.toNat ≤ 0x7E) → b ≠ 0x0A#8 → b ≠ 0x08#8 →
    ∃ t, exec (.writeStr (bs ++ [b])) s = .next t ∧ t.col = 1 ∧
      t.row.val = (if s.row.val ≤ 23 then s.row.val + 1 else 24) ∧ t.cellAt t.row 0 = ⟨glyphOf b, s.color⟩ ∧
      (∀ (r : Row) (c : Col) (x : Byte), r.val + 1 = t.row.val → bs[c.val]? = some x → t.cellAt r c = ⟨x, s.color⟩)

/-- A string without a backspace byte written from row 2 or below leaves the banner rows alone (40_console R137). -/
def Obligations.BannerRowsSurviveStrings : Prop :=
  ∀ (s : State) (bs : List Byte), s.lock ≠ .irq → 2 ≤ s.row.val → (∀ b ∈ bs, b ≠ 0x08#8) →
    ∃ t, exec (.writeStr bs) s = .next t ∧ 2 ≤ t.row.val ∧
      ∀ (r : Row) (a : Nat), r.val < 2 → s.inRow r a → t.byteAt a = s.byteAt a

/-- 30_encoding R101: the expansion of `PUTS` has ⌈L/255⌉ well-formed commands (one for L = 0), leaves the buffer and
cursor of one string of length L, and `HWCUR` at the final cursor; `PRINTLN` is `PUTS` of the string and 0x0A. The one
string of more than 255 bytes it is compared with is no command of the encoding; that its term runs STR_OP of the whole
string is the model's choice: log 18. -/
def Obligations.PutsMatchesOneLongString : Prop :=
  ∀ (s : State) (bs : List Byte), s.lock ≠ .irq → s.par.Ok →
    println bs = puts (bs ++ [0x0A#8]) ∧
    (puts bs).length = (if bs = [] then 1 else (bs.length + 254) / 255) ∧ (∀ i ∈ puts bs, i.wellFormed = true) ∧
    ∃ u t, exec (.writeStr bs) s = .next u ∧ runCommands (puts bs) s = .next t ∧
      t.row = u.row ∧ t.col = u.col ∧ t.buf = u.buf ∧ t.hwcur = u.hwcur ∧
      t.hwcur.toNat = 80 * t.row.val + t.col.val

/-! ## Dispatch-block commands -/

/-- 41 R181: `INSTALL` builds the table once. -/
def Obligations.InstallBuildsTheTable : Prop :=
  encode .install = [0x81#8] ∧
  ∀ s : State,
    (s.installed = true → exec .install s = .next (s.faultedWith .reinstall)) ∧
    (s.installed = false → s.par.Ok →
      ∃ t, exec .install s = .next t ∧ t = { s with vt := t.vt, installed := true, cmdPc := s.cmdPc + 1 } ∧
        ∀ v : Byte, t.slotOf v =
          if v = s.par.bpVector then .bound .breakpoint false
          else if v = s.par.dfVector then .bound .doubleFault true
          else if v = 0x20#8 then .bound .timer false
          else if v = 0x21#8 then .bound .keyboard false
          else .empty)

/-- 41 R182: `REMAP` refused twice, halting when malformed, else setting the offsets. That a malformed remap leaves
`cmd_pc` at it is the model's reading: log 22. -/
def Obligations.RemapSetsTheOffsetsOrStops : Prop :=
  (∀ a b, encode (.remap a b) = [0x82#8, a, b]) ∧
  ∀ (s : State) (a b : Byte),
    (s.pic.remapped = true → exec (.remap a b) s = .next (s.faultedWith .remapTwice)) ∧
    (s.pic.remapped = false →
      ¬(a.toNat % 8 = 0 ∧ b.toNat % 8 = 0 ∧ 32 ≤ a.toNat ∧ 32 ≤ b.toNat ∧ a ≠ b) →
      exec (.remap a b) s =
        .next { s with sys := .halted .malformedRemap, hist := .halt .malformedRemap :: s.hist }) ∧
    (s.pic.remapped = false → a.toNat % 8 = 0 → b.toNat % 8 = 0 → 32 ≤ a.toNat → 32 ≤ b.toNat → a ≠ b →
      exec (.remap a b) s =
        .next { s with
          pic := { s.pic with off1 := a, off2 := b, remapped := true }
          cmdPc := s.cmdPc + 3 })

/-- 41 R183: `ENABLE`, its two faults in order, and its effect. -/
def Obligations.EnableSetsTheInterruptFlag : Prop :=
  encode .enable = [0x83#8] ∧
  ∀ s : State,
    (s.installed = false ∨ s.pic.remapped = false → exec .enable s = .next (s.faultedWith .enableOrder)) ∧
    (s.installed = true → s.pic.remapped = true → s.lock = .normal →
      exec .enable s = .next (s.faultedWith .enableInSection)) ∧
    (s.installed = true → s.pic.remapped = true → s.lock ≠ .normal →
      exec .enable s = .next { s with intEnable := true, cmdPc := s.cmdPc + 1 })

/-- 41 R184: `SECTION_BEGIN` saves `IF`, masks and takes the lock; on a held lock it is a deadlock, with `cmd_pc` at it
(vector IC17; log 22). -/
def Obligations.SectionBeginTakesTheLock : Prop :=
  encode .sectionBegin = [0x84#8] ∧
  ∀ s : State,
    (s.lock = .free → exec .sectionBegin s =
      .next { s with savedIf := s.intEnable, intEnable := false, lock := .normal, cmdPc := s.cmdPc + 1 }) ∧
    (s.lock = .normal → exec .sectionBegin s = .next { s with sys := .stuck .selfDeadlock })

/-- 41 R185: `SECTION_END` frees the lock and restores `IF`; without a section it faults. -/
def Obligations.SectionEndRestoresInterrupts : Prop :=
  encode .sectionEnd = [0x85#8] ∧
  ∀ s : State,
    (s.lock = .normal → exec .sectionEnd s =
      .next { s with lock := .free, intEnable := s.savedIf, cmdPc := s.cmdPc + 1 }) ∧
    (s.lock ≠ .normal → exec .sectionEnd s = .next (s.faultedWith .sectionUnbalanced))

/-- 60_exceptions R235: after `H_BREAKPOINT` only the console and `EV` have changed (and the model's count of drawn
texts, log 9); the console is as one `WRITE_STR` of some text leaves it, after the `Deliver` entry. -/
def Obligations.BreakpointReturnsToTheNextCommand : Prop :=
  ∀ s : State, s.par.Ok → s.installed = true → s.vt = builtTable s.par → s.lock = .free → s.ctx = .normal →
    ∃ t u text, exec .breakpoint s = .next t ∧
      { s with ctxDraws := s.ctxDraws + 1 }.KeepsAllButConsole t 1 ∧
      exec (.writeStr text) { s with hist := .deliver s.par.bpVector :: s.hist } = .next u ∧
      t.SameConsole u ∧ t.EV = u.EV

/-- 70_reset R278: a breakpoint inside a section deadlocks; the trap is recorded, no console access is made, nothing else
changes. (The model's count of drawn texts goes up: log 9. That `IF` and `CTX` are left so is its reading: log 14.) -/
def Obligations.BreakpointInASectionDeadlocks : Prop :=
  ∀ s : State, s.par.Ok → s.installed = true → s.vt = builtTable s.par → s.lock = .normal →
    exec .breakpoint s = .next { s with
      cmdPc := s.cmdPc + 1, hist := .deliver s.par.bpVector :: s.hist, sys := .stuck .irqDeadlock
      intEnable := false, ctx := .normal, ctxDraws := s.ctxDraws + 1 }

/-- A breakpoint with no table installed (60_exceptions R225, R230; 41 R188). -/
def Obligations.BreakpointWithoutATableFaults : Prop :=
  ∀ s : State, s.installed = false →
    exec .breakpoint s = .next (State.faultedWith
      { s with cmdPc := s.cmdPc + 1, hist := .deliver s.par.bpVector :: s.hist } .unmodelledTriple)

/-! ## Events -/

/-- 60_exceptions R245: one timer raise and its delivery with the bases 0x20 and 0x28. -/
def Obligations.TimerDeliveryAcknowledgesOnce : Prop :=
  ∀ (s : State) (moves : List EnvMove), s.Inv → s.TakesEventNext (.raise .timer) (.deliver :: moves) →
    s.intEnable = true → s.pic.off1 = 0x20#8 → s.pic.off2 = 0x28#8 → s.pic.mask.getLsbD 0 = false →
    ∃ u t, step s = .next u ∧ step u = .next t ∧ t.EV = s.EV ++ [.deliver 0x20#8, .eoi .primary] ∧
      t.pic.isr = 0#16 ∧ t.pic.irr.getLsbD 0 = false ∧ (∀ l, l ≠ 0 → t.pic.irr.getLsbD l = s.pic.irr.getLsbD l) ∧
      t.pic.mask = s.pic.mask ∧ t.pic.off1 = s.pic.off1 ∧ t.pic.off2 = s.pic.off2 ∧
      t.pic.remapped = s.pic.remapped ∧ t = { s with pic := t.pic, hist := t.hist, env := moves }

/-- A keyboard delivery (41 R191, R193): one byte read, decoded from the decoder's state or its initial one, the decoded
text written as one `WRITE_STR` would, then one end-of-interrupt. -/
def Obligations.KeyboardDeliveryForwardsTheKey : Prop :=
  ∀ (s : State) (moves : List EnvMove), s.Inv → s.TakesEventNext .deliver moves → s.intEnable = true →
    s.pic.off1 = 0x20#8 → s.pic.irr.getLsbD 1 = true → s.pic.mask.getLsbD 1 = false →
    s.pic.irr.getLsbD 0 = false ∨ s.pic.mask.getLsbD 0 = true →
    ∃ (t : State) (b : Byte), step s = .next t ∧
      t.dstate = .ready (Config.decode (decoderStateOf s.dstate) b).1 ∧ t.pic.isr = 0#16 ∧
      t.pic = { s.pic with irr := t.pic.irr } ∧ t.pic.irr.getLsbD 1 = false ∧
      (∀ l, l ≠ 1 → t.pic.irr.getLsbD l = s.pic.irr.getLsbD l) ∧
      t = { s with
        row := t.row, col := t.col, buf := t.buf, hwcur := t.hwcur, crtcIdx := t.crtcIdx, hist := t.hist
        pic := t.pic, dstate := t.dstate, env := moves, kbdReads := s.kbdReads + 1 } ∧
      match (Config.decode (decoderStateOf s.dstate) b).2 with
      | none => t.SameConsole s ∧ t.EV = s.EV ++ [.deliver 0x21#8, .portR s.par.kbdDataPort b, .eoi .primary]
      | some key => ∃ u, exec (.writeStr (keyText key))
          { s with hist := .portR s.par.kbdDataPort b :: .deliver 0x21#8 :: s.hist } = .next u ∧
          t.SameConsole u ∧ t.EV = u.EV ++ [.eoi .primary]

/-- A device delivery whose vector has no handler takes the double-fault path (60_exceptions R225; 41 R182, R195): the
trap is recorded, a text is printed as one `WRITE_STR` would, the system halts, and the line stays in service. That `IF`
stays 0 and `CTX` is `NORMAL` is the model's reading: log 14. -/
def Obligations.UnboundVectorDoubleFaults : Prop :=
  ∀ (s : State) (l : DeviceLine) (moves : List EnvMove), s.Inv → s.DeliversNext l moves → s.pic.off1 ≠ 0x20#8 →
    ∃ t u text, step s = .next t ∧
      exec (.writeStr text) { s with hist := .deliver (s.pic.off1 + BitVec.ofNat 8 l.number) :: s.hist } = .next u ∧
      t.SameConsole u ∧ t.EV = u.EV ++ [.halt .doubleFault] ∧
      (∀ j, t.pic.irr.getLsbD j = (s.pic.irr.getLsbD j && j != l.number)) ∧
      (∀ j, t.pic.isr.getLsbD j = (j == l.number)) ∧ t.pic = { s.pic with irr := t.pic.irr, isr := t.pic.isr } ∧
      t = { s with
        row := t.row, col := t.col, buf := t.buf, hwcur := t.hwcur, crtcIdx := t.crtcIdx, hist := t.hist
        pic := t.pic, sys := .halted .doubleFault, intEnable := false, ctx := .normal, env := moves
        ctxDraws := s.ctxDraws + 1 }

/-- While `IF = 0` no interrupt is delivered (10_state R31). That the move is then used up is the model's choice:
log 7. -/
def Obligations.MaskedDeliveryDoesNothing : Prop :=
  ∀ (s : State) (moves : List EnvMove), s.TakesEventNext .deliver moves → s.intEnable = false →
    step s = .next s.afterMove

/-- A raise sets its line's request bit and nothing else (41 R190). -/
def Obligations.RaiseSetsOneRequest : Prop :=
  ∀ (s : State) (l : DeviceLine) (moves : List EnvMove), s.TakesEventNext (.raise l) moves →
    ∃ t, step s = .next t ∧ t.pic.irr.getLsbD l.number = true ∧
      (∀ k, k ≠ l.number → t.pic.irr.getLsbD k = s.pic.irr.getLsbD k) ∧
      t = { s with pic := { s.pic with irr := t.pic.irr }, env := moves }

/-- With both devices pending and unmasked the timer is delivered first, and the keyboard stays pending (60_exceptions
R228). -/
def Obligations.TimerBeatsKeyboard : Prop :=
  ∀ (s : State) (moves : List EnvMove), s.Inv → s.TakesEventNext .deliver moves → s.intEnable = true →
    s.pic.irr.getLsbD 0 = true → s.pic.irr.getLsbD 1 = true → s.pic.mask.getLsbD 0 = false →
    ∃ t es, step s = .next t ∧ t.EV = s.EV ++ .deliver s.pic.off1 :: es ∧ t.pic.irr.getLsbD 0 = false ∧
      t.pic.irr.getLsbD 1 = true

/-- The faults of `ACK` (41 R189): before a remap; on a vector no controller owns; for a vector of either controller with
nothing in service there, or with another line lowest in service; and for a secondary vector in service whose cascade line
2 is not the primary's lowest, after the secondary's end-of-interrupt. -/
def Obligations.AckRefusesWhatIsNotInService : Prop :=
  ∀ (s : State) (v : Byte),
    (s.pic.remapped = false → acknowledge v s = .stopped (s.faultedWith .ackBeforeRemap)) ∧
    (s.pic.remapped = true →
      ¬(s.pic.off2.toNat ≤ v.toNat ∧ v.toNat < s.pic.off2.toNat + 8) →
      (¬(s.pic.off1.toNat ≤ v.toNat ∧ v.toNat < s.pic.off1.toNat + 8) →
        acknowledge v s = .stopped (s.faultedWith .ackUnowned)) ∧
      (s.pic.off1.toNat ≤ v.toNat → v.toNat < s.pic.off1.toNat + 8 →
        ((∀ j, j < 8 → s.pic.isr.getLsbD j = false) → acknowledge v s = .stopped (s.faultedWith .ackDuplicate)) ∧
        (∀ k, k < 8 → s.pic.isr.getLsbD k = true → (∀ j, j < k → s.pic.isr.getLsbD j = false) →
          k ≠ v.toNat - s.pic.off1.toNat → acknowledge v s = .stopped (s.faultedWith .ackMismatch)))) ∧
    (s.pic.remapped = true → ∀ l, 8 ≤ l → l < 16 → v.toNat = s.pic.off2.toNat + (l - 8) →
      ((∀ j, 8 ≤ j → j < 16 → s.pic.isr.getLsbD j = false) →
        acknowledge v s = .stopped (s.faultedWith .ackDuplicate)) ∧
      (∀ k, 8 ≤ k → k < 16 → s.pic.isr.getLsbD k = true → (∀ j, 8 ≤ j → j < k → s.pic.isr.getLsbD j = false) → k ≠ l →
        acknowledge v s = .stopped (s.faultedWith .ackMismatch)) ∧
      (s.pic.isr.getLsbD l = true → (∀ j, 8 ≤ j → j < l → s.pic.isr.getLsbD j = false) →
        ∃ u : State, u = { s with pic := { s.pic with isr := u.pic.isr }, hist := .eoi .secondary :: s.hist } ∧
          (∀ j, u.pic.isr.getLsbD j = (s.pic.isr.getLsbD j && j != l)) ∧
          ((∀ j, j < 8 → s.pic.isr.getLsbD j = false) →
            acknowledge v s = .stopped (u.faultedWith .ackDuplicate)) ∧
          (∀ k, k < 8 → k ≠ 2 → s.pic.isr.getLsbD k = true → (∀ j, j < k → s.pic.isr.getLsbD j = false) →
            acknowledge v s = .stopped (u.faultedWith .ackMismatch))))

/-- `ACK` of the vector in service (41 R189): primary only when the primary raised it; secondary, then primary on the
cascade line, when the secondary did. `MASK` and the offsets stay. -/
def Obligations.AckEndsServiceInOrder : Prop :=
  ∀ (s : State) (v : Byte), s.pic.remapped = true →
    (¬(s.pic.off2.toNat ≤ v.toNat ∧ v.toNat < s.pic.off2.toNat + 8) →
      ∀ l, l < 8 → v.toNat = s.pic.off1.toNat + l → s.pic.isr.getLsbD l = true →
      (∀ j, j < l → s.pic.isr.getLsbD j = false) →
      ∃ t, acknowledge v s = .done t ∧ t = { s with pic := { s.pic with isr := t.pic.isr }, hist := .eoi .primary :: s.hist } ∧
        ∀ j, t.pic.isr.getLsbD j = (s.pic.isr.getLsbD j && j != l)) ∧
    (∀ l, 8 ≤ l → l < 16 → v.toNat = s.pic.off2.toNat + (l - 8) → s.pic.isr.getLsbD l = true →
      (∀ j, 8 ≤ j → j < l → s.pic.isr.getLsbD j = false) → s.pic.isr.getLsbD 0 = false →
      s.pic.isr.getLsbD 1 = false → s.pic.isr.getLsbD 2 = true →
      ∃ t, acknowledge v s = .done t ∧
        t = { s with
          pic := { s.pic with isr := t.pic.isr }
          hist := .eoi .primary :: .eoi .secondary :: s.hist } ∧
        ∀ j, t.pic.isr.getLsbD j = (s.pic.isr.getLsbD j && j != l && j != 2))

/-! ## Boot, exact accesses, acknowledgement -/

/-- 70_reset R273: from reset the boot order `REMAP 0x20, 0x28`, `INSTALL`, `ENABLE` completes, with `REMAP` and `INSTALL`
swapped too: interrupts are enabled, and the vectors of both device lines are bound. -/
def Obligations.BootOrderEnablesInterrupts : Prop :=
  bootCommands = [.remap 0x20#8 0x28#8, .install, .enable] ∧
  ∀ (p : Params) (d : ResetDraws) (stream : List Byte) (env : List EnvMove), p.Ok →
    let s := State.resetWith p d stream env
    ∃ t, runCommands bootCommands s = .next t ∧
      runCommands [.install, .remap 0x20#8 0x28#8, .enable] s = .next t ∧
      t = { s with
        pic := { s.pic with off1 := 0x20#8, off2 := 0x28#8, remapped := true }
        vt := t.vt, installed := true, intEnable := true, cmdPc := 5 } ∧
      t.slotOf (t.pic.off1 + 0#8) = .bound .timer false ∧ t.slotOf (t.pic.off1 + 1#8) = .bound .keyboard false ∧
      t.slotOf p.dfVector = .bound .doubleFault true ∧ t.slotOf p.bpVector = .bound .breakpoint false

/-- Every console command completes, and the entries it appends to `EV` are exactly its accesses in their order: none is
left out, added or reordered (20_memory R66; 40_console R121 to R134). A `CLEAR_ROW` of no row appends its fault alone. -/
def Obligations.ConsoleCommandsMakeExactlyTheirAccesses : Prop :=
  ∀ (i : Instr) (s : State), consoleCommand i = true → s.lock ≠ .irq → Memory.wf s.buf → s.par.Ok →
    ∃ t, exec i s = .next t ∧ t.EV = s.EV ++ consoleTrace i s

/-- A device delivery with the primary at its base 0x20 is acknowledged exactly once, on its own vector, as the last thing
its handler does (70_reset R279; 41 R192, R193): one end-of-interrupt, to the primary, with nothing left in service. -/
def Obligations.EveryDeliveryIsAcknowledgedOnce : Prop :=
  ∀ (s : State) (l : DeviceLine) (moves : List EnvMove), s.Inv → s.DeliversNext l moves → s.pic.off1 = 0x20#8 →
    ∃ t es, step s = .next t ∧ t.EV = s.EV ++ .deliver (0x20#8 + BitVec.ofNat 8 l.number) :: (es ++ [.eoi .primary]) ∧
      (∀ e ∈ es, isEoi e = false) ∧ t.pic.isr = 0#16 ∧
      (∀ j, t.pic.irr.getLsbD j = (s.pic.irr.getLsbD j && j != l.number)) ∧
      t.pic = { s.pic with irr := t.pic.irr } ∧ t.sys = s.sys ∧ t.intEnable = true ∧ t.ctx = .normal ∧
      t.cmdPc = s.cmdPc

end
end

