-- ==== Sys2Proof/Laws/Memory.lean ====
section
/-! SUPPORT. What the memory operations do: read after write, the canonical form, the window (spec/20_memory.md R61 to
R65), and the arithmetic of cell addresses. -/

namespace Sys2Proof.Machine

theorem Memory.read_nil (a : Nat) : Memory.read [] a = unlistedByte a := rfl

theorem Memory.read_cons (b : Nat) (w : Byte) (m : Memory) (a : Nat) :
    Memory.read ((b, w) :: m) a = if a = b then w else Memory.read m a := rfl

/-- An address that the list does not name reads as unlisted. -/
theorem Memory.read_unlisted (m : Memory) (a : Nat) (h : ∀ x ∈ m, x.1 ≠ a) : Memory.read m a = unlistedByte a := by
  induction m with
  | nil => rfl
  | cons x m ih =>
    obtain ⟨b, w⟩ := x
    have hb : a ≠ b := fun e => h (b, w) (by simp) e.symm
    rw [Memory.read_cons, if_neg hb]
    exact ih fun x hx => h x (by simp [hx])

/-- A write leaves every other address alone. -/
theorem Memory.read_write_of_ne (m : Memory) {a b : Nat} (v : Byte) (h : b ≠ a) :
    Memory.read (Memory.write m a v) b = Memory.read m b := by
  induction m with
  | nil => unfold Memory.write; split <;> simp [Memory.read, h]
  | cons x m ih =>
    obtain ⟨c, w⟩ := x
    unfold Memory.write
    split
    · split <;> simp [Memory.read, h]
    · split
      · subst_vars; split <;> simp [Memory.read, h]
      · simp [Memory.read, ih]

/-- Every address a write lists was listed before, or is the one written. -/
theorem Memory.mem_write {m : Memory} {a : Nat} {v : Byte} {x : Host.Cell} (h : x ∈ Memory.write m a v) :
    x ∈ m ∨ (x = (a, v) ∧ v ≠ unlistedByte a) := by
  induction m with
  | nil => unfold Memory.write at h; split at h <;> simp_all
  | cons y m ih =>
    obtain ⟨c, w⟩ := y
    unfold Memory.write at h
    split at h
    · split at h
      all_goals simp only [List.mem_cons] at h ⊢
      all_goals simp_all only [ne_eq]
      all_goals tauto
    · split at h
      · split at h
        all_goals simp only [List.mem_cons] at h ⊢
        all_goals simp_all only [ne_eq]
        all_goals tauto
      · simp only [List.mem_cons] at h ⊢
        rcases h with h | h
        · exact .inl (.inl h)
        · rcases ih h with h | h
          · exact .inl (.inr h)
          · exact .inr h

/-- A write keeps the canonical form. -/
theorem Memory.write_wf {m : Memory} (h : Memory.wf m) (a : Nat) (v : Byte) : Memory.wf (Memory.write m a v) := by
  refine ⟨?_, fun x hx => ?_⟩
  · obtain ⟨hs, -⟩ := h
    induction m with
    | nil => unfold Memory.write; split <;> simp
    | cons y m ih =>
      obtain ⟨c, w⟩ := y
      obtain ⟨hy, hm⟩ := List.pairwise_cons.1 hs
      unfold Memory.write
      split
      · rename_i hac
        split
        · exact hs
        · refine List.pairwise_cons.2 ⟨fun z hz => ?_, hs⟩
          rcases List.mem_cons.1 hz with rfl | hz
          · exact hac
          · exact hac.trans (hy z hz)
      · rename_i hac
        split
        · rename_i hEq
          subst hEq
          split
          · exact hm
          · exact List.pairwise_cons.2 ⟨hy, hm⟩
        · rename_i hne
          refine List.pairwise_cons.2 ⟨fun z hz => ?_, ih hm⟩
          rcases Memory.mem_write hz with hz | ⟨rfl, -⟩
          · exact hy z hz
          · simp only; omega
  · rcases Memory.mem_write hx with hx | ⟨rfl, hv⟩
    · exact h.2 x hx
    · exact hv

/-- A write inside the window keeps the list inside it. -/
theorem Memory.write_inWindow {m : Memory} {base a : Nat} (h : Memory.inWindow base m) (ha : base ≤ a)
    (ha' : a < base + 4000) (v : Byte) : Memory.inWindow base (Memory.write m a v) := by
  intro x hx
  rcases Memory.mem_write hx with hx | ⟨rfl, -⟩
  · exact h x hx
  · exact ⟨ha, ha'⟩

/-- Read after write (20_memory R65). -/
theorem Memory.read_write_self {m : Memory} (h : Memory.wf m) (a : Nat) (v : Byte) :
    Memory.read (Memory.write m a v) a = v := by
  obtain ⟨hs, -⟩ := h
  induction m with
  | nil => unfold Memory.write; split <;> simp_all [Memory.read]
  | cons y m ih =>
    obtain ⟨c, w⟩ := y
    obtain ⟨hy, hm⟩ := List.pairwise_cons.1 hs
    have gone : ∀ {b : Nat}, b ≤ c → ∀ x ∈ m, x.1 ≠ b := fun hb x hx => by
      have := hy x hx; simp only at this; omega
    unfold Memory.write
    split
    · rename_i hac
      split
      · rename_i hv
        rw [Memory.read_cons, if_neg (by omega), Memory.read_unlisted m a (gone (by omega)), hv]
      · simp [Memory.read]
    · split
      · rename_i hEq
        subst hEq
        split
        · rename_i hv
          rw [Memory.read_unlisted m a (gone (le_refl _)), hv]
        · simp [Memory.read]
      · rename_i hne
        rw [Memory.read_cons, if_neg hne, ih hm]

/-! ## Cells -/

theorem cellAddr_even_offset (base : Nat) (r : Row) (c : Col) :
    cellAddr base r c = base + 160 * r.val + 2 * c.val := by unfold cellAddr; omega

theorem cellAddr_lower (base : Nat) (r : Row) (c : Col) : base ≤ cellAddr base r c := by
  unfold cellAddr; omega

/-- Both bytes of a cell are inside the window (20_memory R61). -/
theorem cellAddr_upper (base : Nat) (r : Row) (c : Col) : cellAddr base r c + 1 < base + 4000 := by
  have := r.isLt; have := c.isLt; unfold cellAddr; omega

/-- Distinct cells have disjoint bytes. -/
theorem cellAddr_apart (base : Nat) {r r' : Row} {c c' : Col} (h : ¬(r' = r ∧ c' = c)) :
    cellAddr base r' c' ≠ cellAddr base r c ∧ cellAddr base r' c' ≠ cellAddr base r c + 1 ∧
      cellAddr base r' c' + 1 ≠ cellAddr base r c ∧ cellAddr base r' c' + 1 ≠ cellAddr base r c + 1 := by
  have := r.isLt; have := c.isLt; have := r'.isLt; have := c'.isLt
  have h' : ¬(r'.val = r.val ∧ c'.val = c.val) := fun e => h ⟨Fin.ext e.1, Fin.ext e.2⟩
  unfold cellAddr
  omega

theorem Memory.writeCell_wf {m : Memory} (h : Memory.wf m) (a : Nat) (x : GlyphCell) :
    Memory.wf (Memory.writeCell m a x) := Memory.write_wf (Memory.write_wf h _ _) _ _

theorem Memory.writeCell_inWindow {m : Memory} {base : Nat} (h : Memory.inWindow base m) (r : Row) (c : Col)
    (x : GlyphCell) : Memory.inWindow base (Memory.writeCell m (cellAddr base r c) x) := by
  have hl := cellAddr_lower base r c
  have hu := cellAddr_upper base r c
  exact Memory.write_inWindow (Memory.write_inWindow h hl (by omega) _) (by omega) hu _

/-- A cell write leaves every byte outside its two alone. -/
theorem Memory.read_writeCell_of_ne (m : Memory) {a b : Nat} (x : GlyphCell) (h : b ≠ a) (h' : b ≠ a + 1) :
    Memory.read (Memory.writeCell m a x) b = Memory.read m b := by
  unfold Memory.writeCell
  rw [Memory.read_write_of_ne _ _ h', Memory.read_write_of_ne _ _ h]

/-- A cell reads back as the cell last written there (20_memory R65). -/
theorem Memory.readCell_writeCell_self {m : Memory} (h : Memory.wf m) (a : Nat) (x : GlyphCell) :
    Memory.readCell (Memory.writeCell m a x) a = x := by
  unfold Memory.readCell Memory.writeCell
  rw [Memory.read_write_of_ne _ _ (by omega), Memory.read_write_self h, Memory.read_write_self (Memory.write_wf h _ _)]

/-- Writing one cell leaves every other cell alone. -/
theorem Memory.readCell_writeCell_of_ne (m : Memory) (base : Nat) {r r' : Row} {c c' : Col} (x : GlyphCell)
    (h : ¬(r' = r ∧ c' = c)) :
    Memory.readCell (Memory.writeCell m (cellAddr base r c) x) (cellAddr base r' c') =
      Memory.readCell m (cellAddr base r' c') := by
  obtain ⟨h1, h2, h3, h4⟩ := cellAddr_apart base h
  unfold Memory.readCell
  rw [Memory.read_writeCell_of_ne m x h1 h2, Memory.read_writeCell_of_ne m x h3 h4]

end Sys2Proof.Machine
end

