-- ==== Sys2Proof/Laws/State.lean ====
section
/-! SUPPORT. One lemma per field per register update of Machine/Ops.lean, so that no later proof unfolds an update. -/

namespace Sys2Proof.Machine

/-- Two states are equal when every field is. -/
@[ext] theorem State.ext {s t : State}
    (par : s.par = t.par) (row : s.row = t.row) (col : s.col = t.col) (color : s.color = t.color)
    (buf : s.buf = t.buf) (hwcur : s.hwcur = t.hwcur) (crtcIdx : s.crtcIdx = t.crtcIdx)
    (stream : s.stream = t.stream) (cmdPc : s.cmdPc = t.cmdPc) (fault : s.fault = t.fault)
    (intEnable : s.intEnable = t.intEnable) (vt : s.vt = t.vt) (installed : s.installed = t.installed)
    (pic : s.pic = t.pic) (lock : s.lock = t.lock) (savedIf : s.savedIf = t.savedIf) (dstate : s.dstate = t.dstate)
    (sys : s.sys = t.sys) (ctx : s.ctx = t.ctx) (hist : s.hist = t.hist) (env : s.env = t.env)
    (kbdReads : s.kbdReads = t.kbdReads) (ctxDraws : s.ctxDraws = t.ctxDraws) : s = t := by
  cases s; cases t; simp_all only

variable (s : State)

@[simp] theorem State.log_par (e : Event) : (s.log e).par = s.par := rfl
@[simp] theorem State.log_row (e : Event) : (s.log e).row = s.row := rfl
@[simp] theorem State.log_col (e : Event) : (s.log e).col = s.col := rfl
@[simp] theorem State.log_color (e : Event) : (s.log e).color = s.color := rfl
@[simp] theorem State.log_buf (e : Event) : (s.log e).buf = s.buf := rfl
@[simp] theorem State.log_hwcur (e : Event) : (s.log e).hwcur = s.hwcur := rfl
@[simp] theorem State.log_crtcIdx (e : Event) : (s.log e).crtcIdx = s.crtcIdx := rfl
@[simp] theorem State.log_stream (e : Event) : (s.log e).stream = s.stream := rfl
@[simp] theorem State.log_cmdPc (e : Event) : (s.log e).cmdPc = s.cmdPc := rfl
@[simp] theorem State.log_fault (e : Event) : (s.log e).fault = s.fault := rfl
@[simp] theorem State.log_intEnable (e : Event) : (s.log e).intEnable = s.intEnable := rfl
@[simp] theorem State.log_vt (e : Event) : (s.log e).vt = s.vt := rfl
@[simp] theorem State.log_installed (e : Event) : (s.log e).installed = s.installed := rfl
@[simp] theorem State.log_pic (e : Event) : (s.log e).pic = s.pic := rfl
@[simp] theorem State.log_lock (e : Event) : (s.log e).lock = s.lock := rfl
@[simp] theorem State.log_savedIf (e : Event) : (s.log e).savedIf = s.savedIf := rfl
@[simp] theorem State.log_dstate (e : Event) : (s.log e).dstate = s.dstate := rfl
@[simp] theorem State.log_sys (e : Event) : (s.log e).sys = s.sys := rfl
@[simp] theorem State.log_ctx (e : Event) : (s.log e).ctx = s.ctx := rfl
@[simp] theorem State.log_hist (e : Event) : (s.log e).hist = e :: s.hist := rfl
@[simp] theorem State.log_env (e : Event) : (s.log e).env = s.env := rfl
@[simp] theorem State.log_kbdReads (e : Event) : (s.log e).kbdReads = s.kbdReads := rfl
@[simp] theorem State.log_ctxDraws (e : Event) : (s.log e).ctxDraws = s.ctxDraws := rfl

@[simp] theorem State.setCursor_par (r : Row) (c : CurCol) : (s.setCursor r c).par = s.par := rfl
@[simp] theorem State.setCursor_row (r : Row) (c : CurCol) : (s.setCursor r c).row = r := rfl
@[simp] theorem State.setCursor_col (r : Row) (c : CurCol) : (s.setCursor r c).col = c := rfl
@[simp] theorem State.setCursor_color (r : Row) (c : CurCol) : (s.setCursor r c).color = s.color := rfl
@[simp] theorem State.setCursor_buf (r : Row) (c : CurCol) : (s.setCursor r c).buf = s.buf := rfl
@[simp] theorem State.setCursor_hwcur (r : Row) (c : CurCol) : (s.setCursor r c).hwcur = s.hwcur := rfl
@[simp] theorem State.setCursor_crtcIdx (r : Row) (c : CurCol) : (s.setCursor r c).crtcIdx = s.crtcIdx := rfl
@[simp] theorem State.setCursor_stream (r : Row) (c : CurCol) : (s.setCursor r c).stream = s.stream := rfl
@[simp] theorem State.setCursor_cmdPc (r : Row) (c : CurCol) : (s.setCursor r c).cmdPc = s.cmdPc := rfl
@[simp] theorem State.setCursor_fault (r : Row) (c : CurCol) : (s.setCursor r c).fault = s.fault := rfl
@[simp] theorem State.setCursor_intEnable (r : Row) (c : CurCol) : (s.setCursor r c).intEnable = s.intEnable := rfl
@[simp] theorem State.setCursor_vt (r : Row) (c : CurCol) : (s.setCursor r c).vt = s.vt := rfl
@[simp] theorem State.setCursor_installed (r : Row) (c : CurCol) : (s.setCursor r c).installed = s.installed := rfl
@[simp] theorem State.setCursor_pic (r : Row) (c : CurCol) : (s.setCursor r c).pic = s.pic := rfl
@[simp] theorem State.setCursor_lock (r : Row) (c : CurCol) : (s.setCursor r c).lock = s.lock := rfl
@[simp] theorem State.setCursor_savedIf (r : Row) (c : CurCol) : (s.setCursor r c).savedIf = s.savedIf := rfl
@[simp] theorem State.setCursor_dstate (r : Row) (c : CurCol) : (s.setCursor r c).dstate = s.dstate := rfl
@[simp] theorem State.setCursor_sys (r : Row) (c : CurCol) : (s.setCursor r c).sys = s.sys := rfl
@[simp] theorem State.setCursor_ctx (r : Row) (c : CurCol) : (s.setCursor r c).ctx = s.ctx := rfl
@[simp] theorem State.setCursor_hist (r : Row) (c : CurCol) : (s.setCursor r c).hist = s.hist := rfl
@[simp] theorem State.setCursor_env (r : Row) (c : CurCol) : (s.setCursor r c).env = s.env := rfl
@[simp] theorem State.setCursor_kbdReads (r : Row) (c : CurCol) : (s.setCursor r c).kbdReads = s.kbdReads := rfl
@[simp] theorem State.setCursor_ctxDraws (r : Row) (c : CurCol) : (s.setCursor r c).ctxDraws = s.ctxDraws := rfl
@[simp] theorem State.setCursor_EV (r : Row) (c : CurCol) : (s.setCursor r c).EV = s.EV := rfl

@[simp] theorem State.setBuf_par (m : Memory) : (s.setBuf m).par = s.par := rfl
@[simp] theorem State.setBuf_row (m : Memory) : (s.setBuf m).row = s.row := rfl
@[simp] theorem State.setBuf_col (m : Memory) : (s.setBuf m).col = s.col := rfl
@[simp] theorem State.setBuf_color (m : Memory) : (s.setBuf m).color = s.color := rfl
@[simp] theorem State.setBuf_buf (m : Memory) : (s.setBuf m).buf = m := rfl
@[simp] theorem State.setBuf_hwcur (m : Memory) : (s.setBuf m).hwcur = s.hwcur := rfl
@[simp] theorem State.setBuf_crtcIdx (m : Memory) : (s.setBuf m).crtcIdx = s.crtcIdx := rfl
@[simp] theorem State.setBuf_stream (m : Memory) : (s.setBuf m).stream = s.stream := rfl
@[simp] theorem State.setBuf_cmdPc (m : Memory) : (s.setBuf m).cmdPc = s.cmdPc := rfl
@[simp] theorem State.setBuf_fault (m : Memory) : (s.setBuf m).fault = s.fault := rfl
@[simp] theorem State.setBuf_intEnable (m : Memory) : (s.setBuf m).intEnable = s.intEnable := rfl
@[simp] theorem State.setBuf_vt (m : Memory) : (s.setBuf m).vt = s.vt := rfl
@[simp] theorem State.setBuf_installed (m : Memory) : (s.setBuf m).installed = s.installed := rfl
@[simp] theorem State.setBuf_pic (m : Memory) : (s.setBuf m).pic = s.pic := rfl
@[simp] theorem State.setBuf_lock (m : Memory) : (s.setBuf m).lock = s.lock := rfl
@[simp] theorem State.setBuf_savedIf (m : Memory) : (s.setBuf m).savedIf = s.savedIf := rfl
@[simp] theorem State.setBuf_dstate (m : Memory) : (s.setBuf m).dstate = s.dstate := rfl
@[simp] theorem State.setBuf_sys (m : Memory) : (s.setBuf m).sys = s.sys := rfl
@[simp] theorem State.setBuf_ctx (m : Memory) : (s.setBuf m).ctx = s.ctx := rfl
@[simp] theorem State.setBuf_hist (m : Memory) : (s.setBuf m).hist = s.hist := rfl
@[simp] theorem State.setBuf_env (m : Memory) : (s.setBuf m).env = s.env := rfl
@[simp] theorem State.setBuf_kbdReads (m : Memory) : (s.setBuf m).kbdReads = s.kbdReads := rfl
@[simp] theorem State.setBuf_ctxDraws (m : Memory) : (s.setBuf m).ctxDraws = s.ctxDraws := rfl
@[simp] theorem State.setBuf_EV (m : Memory) : (s.setBuf m).EV = s.EV := rfl

@[simp] theorem State.setHwcur_par (w : Word) : (s.setHwcur w).par = s.par := rfl
@[simp] theorem State.setHwcur_row (w : Word) : (s.setHwcur w).row = s.row := rfl
@[simp] theorem State.setHwcur_col (w : Word) : (s.setHwcur w).col = s.col := rfl
@[simp] theorem State.setHwcur_color (w : Word) : (s.setHwcur w).color = s.color := rfl
@[simp] theorem State.setHwcur_buf (w : Word) : (s.setHwcur w).buf = s.buf := rfl
@[simp] theorem State.setHwcur_hwcur (w : Word) : (s.setHwcur w).hwcur = w := rfl
@[simp] theorem State.setHwcur_crtcIdx (w : Word) : (s.setHwcur w).crtcIdx = s.crtcIdx := rfl
@[simp] theorem State.setHwcur_stream (w : Word) : (s.setHwcur w).stream = s.stream := rfl
@[simp] theorem State.setHwcur_cmdPc (w : Word) : (s.setHwcur w).cmdPc = s.cmdPc := rfl
@[simp] theorem State.setHwcur_fault (w : Word) : (s.setHwcur w).fault = s.fault := rfl
@[simp] theorem State.setHwcur_intEnable (w : Word) : (s.setHwcur w).intEnable = s.intEnable := rfl
@[simp] theorem State.setHwcur_vt (w : Word) : (s.setHwcur w).vt = s.vt := rfl
@[simp] theorem State.setHwcur_installed (w : Word) : (s.setHwcur w).installed = s.installed := rfl
@[simp] theorem State.setHwcur_pic (w : Word) : (s.setHwcur w).pic = s.pic := rfl
@[simp] theorem State.setHwcur_lock (w : Word) : (s.setHwcur w).lock = s.lock := rfl
@[simp] theorem State.setHwcur_savedIf (w : Word) : (s.setHwcur w).savedIf = s.savedIf := rfl
@[simp] theorem State.setHwcur_dstate (w : Word) : (s.setHwcur w).dstate = s.dstate := rfl
@[simp] theorem State.setHwcur_sys (w : Word) : (s.setHwcur w).sys = s.sys := rfl
@[simp] theorem State.setHwcur_ctx (w : Word) : (s.setHwcur w).ctx = s.ctx := rfl
@[simp] theorem State.setHwcur_hist (w : Word) : (s.setHwcur w).hist = s.hist := rfl
@[simp] theorem State.setHwcur_env (w : Word) : (s.setHwcur w).env = s.env := rfl
@[simp] theorem State.setHwcur_kbdReads (w : Word) : (s.setHwcur w).kbdReads = s.kbdReads := rfl
@[simp] theorem State.setHwcur_ctxDraws (w : Word) : (s.setHwcur w).ctxDraws = s.ctxDraws := rfl
@[simp] theorem State.setHwcur_EV (w : Word) : (s.setHwcur w).EV = s.EV := rfl

@[simp] theorem State.setCrtcIdx_par (v : Byte) : (s.setCrtcIdx v).par = s.par := rfl
@[simp] theorem State.setCrtcIdx_row (v : Byte) : (s.setCrtcIdx v).row = s.row := rfl
@[simp] theorem State.setCrtcIdx_col (v : Byte) : (s.setCrtcIdx v).col = s.col := rfl
@[simp] theorem State.setCrtcIdx_color (v : Byte) : (s.setCrtcIdx v).color = s.color := rfl
@[simp] theorem State.setCrtcIdx_buf (v : Byte) : (s.setCrtcIdx v).buf = s.buf := rfl
@[simp] theorem State.setCrtcIdx_hwcur (v : Byte) : (s.setCrtcIdx v).hwcur = s.hwcur := rfl
@[simp] theorem State.setCrtcIdx_crtcIdx (v : Byte) : (s.setCrtcIdx v).crtcIdx = v := rfl
@[simp] theorem State.setCrtcIdx_stream (v : Byte) : (s.setCrtcIdx v).stream = s.stream := rfl
@[simp] theorem State.setCrtcIdx_cmdPc (v : Byte) : (s.setCrtcIdx v).cmdPc = s.cmdPc := rfl
@[simp] theorem State.setCrtcIdx_fault (v : Byte) : (s.setCrtcIdx v).fault = s.fault := rfl
@[simp] theorem State.setCrtcIdx_intEnable (v : Byte) : (s.setCrtcIdx v).intEnable = s.intEnable := rfl
@[simp] theorem State.setCrtcIdx_vt (v : Byte) : (s.setCrtcIdx v).vt = s.vt := rfl
@[simp] theorem State.setCrtcIdx_installed (v : Byte) : (s.setCrtcIdx v).installed = s.installed := rfl
@[simp] theorem State.setCrtcIdx_pic (v : Byte) : (s.setCrtcIdx v).pic = s.pic := rfl
@[simp] theorem State.setCrtcIdx_lock (v : Byte) : (s.setCrtcIdx v).lock = s.lock := rfl
@[simp] theorem State.setCrtcIdx_savedIf (v : Byte) : (s.setCrtcIdx v).savedIf = s.savedIf := rfl
@[simp] theorem State.setCrtcIdx_dstate (v : Byte) : (s.setCrtcIdx v).dstate = s.dstate := rfl
@[simp] theorem State.setCrtcIdx_sys (v : Byte) : (s.setCrtcIdx v).sys = s.sys := rfl
@[simp] theorem State.setCrtcIdx_ctx (v : Byte) : (s.setCrtcIdx v).ctx = s.ctx := rfl
@[simp] theorem State.setCrtcIdx_hist (v : Byte) : (s.setCrtcIdx v).hist = s.hist := rfl
@[simp] theorem State.setCrtcIdx_env (v : Byte) : (s.setCrtcIdx v).env = s.env := rfl
@[simp] theorem State.setCrtcIdx_kbdReads (v : Byte) : (s.setCrtcIdx v).kbdReads = s.kbdReads := rfl
@[simp] theorem State.setCrtcIdx_ctxDraws (v : Byte) : (s.setCrtcIdx v).ctxDraws = s.ctxDraws := rfl
@[simp] theorem State.setCrtcIdx_EV (v : Byte) : (s.setCrtcIdx v).EV = s.EV := rfl

@[simp] theorem State.advance_par (n : Nat) : (s.advance n).par = s.par := rfl
@[simp] theorem State.advance_row (n : Nat) : (s.advance n).row = s.row := rfl
@[simp] theorem State.advance_col (n : Nat) : (s.advance n).col = s.col := rfl
@[simp] theorem State.advance_color (n : Nat) : (s.advance n).color = s.color := rfl
@[simp] theorem State.advance_buf (n : Nat) : (s.advance n).buf = s.buf := rfl
@[simp] theorem State.advance_hwcur (n : Nat) : (s.advance n).hwcur = s.hwcur := rfl
@[simp] theorem State.advance_crtcIdx (n : Nat) : (s.advance n).crtcIdx = s.crtcIdx := rfl
@[simp] theorem State.advance_stream (n : Nat) : (s.advance n).stream = s.stream := rfl
@[simp] theorem State.advance_cmdPc (n : Nat) : (s.advance n).cmdPc = s.cmdPc + n := rfl
@[simp] theorem State.advance_fault (n : Nat) : (s.advance n).fault = s.fault := rfl
@[simp] theorem State.advance_intEnable (n : Nat) : (s.advance n).intEnable = s.intEnable := rfl
@[simp] theorem State.advance_vt (n : Nat) : (s.advance n).vt = s.vt := rfl
@[simp] theorem State.advance_installed (n : Nat) : (s.advance n).installed = s.installed := rfl
@[simp] theorem State.advance_pic (n : Nat) : (s.advance n).pic = s.pic := rfl
@[simp] theorem State.advance_lock (n : Nat) : (s.advance n).lock = s.lock := rfl
@[simp] theorem State.advance_savedIf (n : Nat) : (s.advance n).savedIf = s.savedIf := rfl
@[simp] theorem State.advance_dstate (n : Nat) : (s.advance n).dstate = s.dstate := rfl
@[simp] theorem State.advance_sys (n : Nat) : (s.advance n).sys = s.sys := rfl
@[simp] theorem State.advance_ctx (n : Nat) : (s.advance n).ctx = s.ctx := rfl
@[simp] theorem State.advance_hist (n : Nat) : (s.advance n).hist = s.hist := rfl
@[simp] theorem State.advance_env (n : Nat) : (s.advance n).env = s.env := rfl
@[simp] theorem State.advance_kbdReads (n : Nat) : (s.advance n).kbdReads = s.kbdReads := rfl
@[simp] theorem State.advance_ctxDraws (n : Nat) : (s.advance n).ctxDraws = s.ctxDraws := rfl
@[simp] theorem State.advance_EV (n : Nat) : (s.advance n).EV = s.EV := rfl

@[simp] theorem State.setFault_par (f : Option (FaultCode × Nat)) : (s.setFault f).par = s.par := rfl
@[simp] theorem State.setFault_row (f : Option (FaultCode × Nat)) : (s.setFault f).row = s.row := rfl
@[simp] theorem State.setFault_col (f : Option (FaultCode × Nat)) : (s.setFault f).col = s.col := rfl
@[simp] theorem State.setFault_color (f : Option (FaultCode × Nat)) : (s.setFault f).color = s.color := rfl
@[simp] theorem State.setFault_buf (f : Option (FaultCode × Nat)) : (s.setFault f).buf = s.buf := rfl
@[simp] theorem State.setFault_hwcur (f : Option (FaultCode × Nat)) : (s.setFault f).hwcur = s.hwcur := rfl
@[simp] theorem State.setFault_crtcIdx (f : Option (FaultCode × Nat)) : (s.setFault f).crtcIdx = s.crtcIdx := rfl
@[simp] theorem State.setFault_stream (f : Option (FaultCode × Nat)) : (s.setFault f).stream = s.stream := rfl
@[simp] theorem State.setFault_cmdPc (f : Option (FaultCode × Nat)) : (s.setFault f).cmdPc = s.cmdPc := rfl
@[simp] theorem State.setFault_fault (f : Option (FaultCode × Nat)) : (s.setFault f).fault = f := rfl
@[simp] theorem State.setFault_intEnable (f : Option (FaultCode × Nat)) : (s.setFault f).intEnable = s.intEnable := rfl
@[simp] theorem State.setFault_vt (f : Option (FaultCode × Nat)) : (s.setFault f).vt = s.vt := rfl
@[simp] theorem State.setFault_installed (f : Option (FaultCode × Nat)) : (s.setFault f).installed = s.installed := rfl
@[simp] theorem State.setFault_pic (f : Option (FaultCode × Nat)) : (s.setFault f).pic = s.pic := rfl
@[simp] theorem State.setFault_lock (f : Option (FaultCode × Nat)) : (s.setFault f).lock = s.lock := rfl
@[simp] theorem State.setFault_savedIf (f : Option (FaultCode × Nat)) : (s.setFault f).savedIf = s.savedIf := rfl
@[simp] theorem State.setFault_dstate (f : Option (FaultCode × Nat)) : (s.setFault f).dstate = s.dstate := rfl
@[simp] theorem State.setFault_sys (f : Option (FaultCode × Nat)) : (s.setFault f).sys = s.sys := rfl
@[simp] theorem State.setFault_ctx (f : Option (FaultCode × Nat)) : (s.setFault f).ctx = s.ctx := rfl
@[simp] theorem State.setFault_hist (f : Option (FaultCode × Nat)) : (s.setFault f).hist = s.hist := rfl
@[simp] theorem State.setFault_env (f : Option (FaultCode × Nat)) : (s.setFault f).env = s.env := rfl
@[simp] theorem State.setFault_kbdReads (f : Option (FaultCode × Nat)) : (s.setFault f).kbdReads = s.kbdReads := rfl
@[simp] theorem State.setFault_ctxDraws (f : Option (FaultCode × Nat)) : (s.setFault f).ctxDraws = s.ctxDraws := rfl
@[simp] theorem State.setFault_EV (f : Option (FaultCode × Nat)) : (s.setFault f).EV = s.EV := rfl

@[simp] theorem State.setIntEnable_par (b : Bool) : (s.setIntEnable b).par = s.par := rfl
@[simp] theorem State.setIntEnable_row (b : Bool) : (s.setIntEnable b).row = s.row := rfl
@[simp] theorem State.setIntEnable_col (b : Bool) : (s.setIntEnable b).col = s.col := rfl
@[simp] theorem State.setIntEnable_color (b : Bool) : (s.setIntEnable b).color = s.color := rfl
@[simp] theorem State.setIntEnable_buf (b : Bool) : (s.setIntEnable b).buf = s.buf := rfl
@[simp] theorem State.setIntEnable_hwcur (b : Bool) : (s.setIntEnable b).hwcur = s.hwcur := rfl
@[simp] theorem State.setIntEnable_crtcIdx (b : Bool) : (s.setIntEnable b).crtcIdx = s.crtcIdx := rfl
@[simp] theorem State.setIntEnable_stream (b : Bool) : (s.setIntEnable b).stream = s.stream := rfl
@[simp] theorem State.setIntEnable_cmdPc (b : Bool) : (s.setIntEnable b).cmdPc = s.cmdPc := rfl
@[simp] theorem State.setIntEnable_fault (b : Bool) : (s.setIntEnable b).fault = s.fault := rfl
@[simp] theorem State.setIntEnable_intEnable (b : Bool) : (s.setIntEnable b).intEnable = b := rfl
@[simp] theorem State.setIntEnable_vt (b : Bool) : (s.setIntEnable b).vt = s.vt := rfl
@[simp] theorem State.setIntEnable_installed (b : Bool) : (s.setIntEnable b).installed = s.installed := rfl
@[simp] theorem State.setIntEnable_pic (b : Bool) : (s.setIntEnable b).pic = s.pic := rfl
@[simp] theorem State.setIntEnable_lock (b : Bool) : (s.setIntEnable b).lock = s.lock := rfl
@[simp] theorem State.setIntEnable_savedIf (b : Bool) : (s.setIntEnable b).savedIf = s.savedIf := rfl
@[simp] theorem State.setIntEnable_dstate (b : Bool) : (s.setIntEnable b).dstate = s.dstate := rfl
@[simp] theorem State.setIntEnable_sys (b : Bool) : (s.setIntEnable b).sys = s.sys := rfl
@[simp] theorem State.setIntEnable_ctx (b : Bool) : (s.setIntEnable b).ctx = s.ctx := rfl
@[simp] theorem State.setIntEnable_hist (b : Bool) : (s.setIntEnable b).hist = s.hist := rfl
@[simp] theorem State.setIntEnable_env (b : Bool) : (s.setIntEnable b).env = s.env := rfl
@[simp] theorem State.setIntEnable_kbdReads (b : Bool) : (s.setIntEnable b).kbdReads = s.kbdReads := rfl
@[simp] theorem State.setIntEnable_ctxDraws (b : Bool) : (s.setIntEnable b).ctxDraws = s.ctxDraws := rfl
@[simp] theorem State.setIntEnable_EV (b : Bool) : (s.setIntEnable b).EV = s.EV := rfl

@[simp] theorem State.setSavedIf_par (b : Bool) : (s.setSavedIf b).par = s.par := rfl
@[simp] theorem State.setSavedIf_row (b : Bool) : (s.setSavedIf b).row = s.row := rfl
@[simp] theorem State.setSavedIf_col (b : Bool) : (s.setSavedIf b).col = s.col := rfl
@[simp] theorem State.setSavedIf_color (b : Bool) : (s.setSavedIf b).color = s.color := rfl
@[simp] theorem State.setSavedIf_buf (b : Bool) : (s.setSavedIf b).buf = s.buf := rfl
@[simp] theorem State.setSavedIf_hwcur (b : Bool) : (s.setSavedIf b).hwcur = s.hwcur := rfl
@[simp] theorem State.setSavedIf_crtcIdx (b : Bool) : (s.setSavedIf b).crtcIdx = s.crtcIdx := rfl
@[simp] theorem State.setSavedIf_stream (b : Bool) : (s.setSavedIf b).stream = s.stream := rfl
@[simp] theorem State.setSavedIf_cmdPc (b : Bool) : (s.setSavedIf b).cmdPc = s.cmdPc := rfl
@[simp] theorem State.setSavedIf_fault (b : Bool) : (s.setSavedIf b).fault = s.fault := rfl
@[simp] theorem State.setSavedIf_intEnable (b : Bool) : (s.setSavedIf b).intEnable = s.intEnable := rfl
@[simp] theorem State.setSavedIf_vt (b : Bool) : (s.setSavedIf b).vt = s.vt := rfl
@[simp] theorem State.setSavedIf_installed (b : Bool) : (s.setSavedIf b).installed = s.installed := rfl
@[simp] theorem State.setSavedIf_pic (b : Bool) : (s.setSavedIf b).pic = s.pic := rfl
@[simp] theorem State.setSavedIf_lock (b : Bool) : (s.setSavedIf b).lock = s.lock := rfl
@[simp] theorem State.setSavedIf_savedIf (b : Bool) : (s.setSavedIf b).savedIf = b := rfl
@[simp] theorem State.setSavedIf_dstate (b : Bool) : (s.setSavedIf b).dstate = s.dstate := rfl
@[simp] theorem State.setSavedIf_sys (b : Bool) : (s.setSavedIf b).sys = s.sys := rfl
@[simp] theorem State.setSavedIf_ctx (b : Bool) : (s.setSavedIf b).ctx = s.ctx := rfl
@[simp] theorem State.setSavedIf_hist (b : Bool) : (s.setSavedIf b).hist = s.hist := rfl
@[simp] theorem State.setSavedIf_env (b : Bool) : (s.setSavedIf b).env = s.env := rfl
@[simp] theorem State.setSavedIf_kbdReads (b : Bool) : (s.setSavedIf b).kbdReads = s.kbdReads := rfl
@[simp] theorem State.setSavedIf_ctxDraws (b : Bool) : (s.setSavedIf b).ctxDraws = s.ctxDraws := rfl
@[simp] theorem State.setSavedIf_EV (b : Bool) : (s.setSavedIf b).EV = s.EV := rfl

@[simp] theorem State.setLock_par (l : Lock) : (s.setLock l).par = s.par := rfl
@[simp] theorem State.setLock_row (l : Lock) : (s.setLock l).row = s.row := rfl
@[simp] theorem State.setLock_col (l : Lock) : (s.setLock l).col = s.col := rfl
@[simp] theorem State.setLock_color (l : Lock) : (s.setLock l).color = s.color := rfl
@[simp] theorem State.setLock_buf (l : Lock) : (s.setLock l).buf = s.buf := rfl
@[simp] theorem State.setLock_hwcur (l : Lock) : (s.setLock l).hwcur = s.hwcur := rfl
@[simp] theorem State.setLock_crtcIdx (l : Lock) : (s.setLock l).crtcIdx = s.crtcIdx := rfl
@[simp] theorem State.setLock_stream (l : Lock) : (s.setLock l).stream = s.stream := rfl
@[simp] theorem State.setLock_cmdPc (l : Lock) : (s.setLock l).cmdPc = s.cmdPc := rfl
@[simp] theorem State.setLock_fault (l : Lock) : (s.setLock l).fault = s.fault := rfl
@[simp] theorem State.setLock_intEnable (l : Lock) : (s.setLock l).intEnable = s.intEnable := rfl
@[simp] theorem State.setLock_vt (l : Lock) : (s.setLock l).vt = s.vt := rfl
@[simp] theorem State.setLock_installed (l : Lock) : (s.setLock l).installed = s.installed := rfl
@[simp] theorem State.setLock_pic (l : Lock) : (s.setLock l).pic = s.pic := rfl
@[simp] theorem State.setLock_lock (l : Lock) : (s.setLock l).lock = l := rfl
@[simp] theorem State.setLock_savedIf (l : Lock) : (s.setLock l).savedIf = s.savedIf := rfl
@[simp] theorem State.setLock_dstate (l : Lock) : (s.setLock l).dstate = s.dstate := rfl
@[simp] theorem State.setLock_sys (l : Lock) : (s.setLock l).sys = s.sys := rfl
@[simp] theorem State.setLock_ctx (l : Lock) : (s.setLock l).ctx = s.ctx := rfl
@[simp] theorem State.setLock_hist (l : Lock) : (s.setLock l).hist = s.hist := rfl
@[simp] theorem State.setLock_env (l : Lock) : (s.setLock l).env = s.env := rfl
@[simp] theorem State.setLock_kbdReads (l : Lock) : (s.setLock l).kbdReads = s.kbdReads := rfl
@[simp] theorem State.setLock_ctxDraws (l : Lock) : (s.setLock l).ctxDraws = s.ctxDraws := rfl
@[simp] theorem State.setLock_EV (l : Lock) : (s.setLock l).EV = s.EV := rfl

@[simp] theorem State.setTable_par (t : Vector Slot 256) : (s.setTable t).par = s.par := rfl
@[simp] theorem State.setTable_row (t : Vector Slot 256) : (s.setTable t).row = s.row := rfl
@[simp] theorem State.setTable_col (t : Vector Slot 256) : (s.setTable t).col = s.col := rfl
@[simp] theorem State.setTable_color (t : Vector Slot 256) : (s.setTable t).color = s.color := rfl
@[simp] theorem State.setTable_buf (t : Vector Slot 256) : (s.setTable t).buf = s.buf := rfl
@[simp] theorem State.setTable_hwcur (t : Vector Slot 256) : (s.setTable t).hwcur = s.hwcur := rfl
@[simp] theorem State.setTable_crtcIdx (t : Vector Slot 256) : (s.setTable t).crtcIdx = s.crtcIdx := rfl
@[simp] theorem State.setTable_stream (t : Vector Slot 256) : (s.setTable t).stream = s.stream := rfl
@[simp] theorem State.setTable_cmdPc (t : Vector Slot 256) : (s.setTable t).cmdPc = s.cmdPc := rfl
@[simp] theorem State.setTable_fault (t : Vector Slot 256) : (s.setTable t).fault = s.fault := rfl
@[simp] theorem State.setTable_intEnable (t : Vector Slot 256) : (s.setTable t).intEnable = s.intEnable := rfl
@[simp] theorem State.setTable_vt (t : Vector Slot 256) : (s.setTable t).vt = t := rfl
@[simp] theorem State.setTable_installed (t : Vector Slot 256) : (s.setTable t).installed = true := rfl
@[simp] theorem State.setTable_pic (t : Vector Slot 256) : (s.setTable t).pic = s.pic := rfl
@[simp] theorem State.setTable_lock (t : Vector Slot 256) : (s.setTable t).lock = s.lock := rfl
@[simp] theorem State.setTable_savedIf (t : Vector Slot 256) : (s.setTable t).savedIf = s.savedIf := rfl
@[simp] theorem State.setTable_dstate (t : Vector Slot 256) : (s.setTable t).dstate = s.dstate := rfl
@[simp] theorem State.setTable_sys (t : Vector Slot 256) : (s.setTable t).sys = s.sys := rfl
@[simp] theorem State.setTable_ctx (t : Vector Slot 256) : (s.setTable t).ctx = s.ctx := rfl
@[simp] theorem State.setTable_hist (t : Vector Slot 256) : (s.setTable t).hist = s.hist := rfl
@[simp] theorem State.setTable_env (t : Vector Slot 256) : (s.setTable t).env = s.env := rfl
@[simp] theorem State.setTable_kbdReads (t : Vector Slot 256) : (s.setTable t).kbdReads = s.kbdReads := rfl
@[simp] theorem State.setTable_ctxDraws (t : Vector Slot 256) : (s.setTable t).ctxDraws = s.ctxDraws := rfl
@[simp] theorem State.setTable_EV (t : Vector Slot 256) : (s.setTable t).EV = s.EV := rfl

@[simp] theorem State.setPic_par (p : Pic) : (s.setPic p).par = s.par := rfl
@[simp] theorem State.setPic_row (p : Pic) : (s.setPic p).row = s.row := rfl
@[simp] theorem State.setPic_col (p : Pic) : (s.setPic p).col = s.col := rfl
@[simp] theorem State.setPic_color (p : Pic) : (s.setPic p).color = s.color := rfl
@[simp] theorem State.setPic_buf (p : Pic) : (s.setPic p).buf = s.buf := rfl
@[simp] theorem State.setPic_hwcur (p : Pic) : (s.setPic p).hwcur = s.hwcur := rfl
@[simp] theorem State.setPic_crtcIdx (p : Pic) : (s.setPic p).crtcIdx = s.crtcIdx := rfl
@[simp] theorem State.setPic_stream (p : Pic) : (s.setPic p).stream = s.stream := rfl
@[simp] theorem State.setPic_cmdPc (p : Pic) : (s.setPic p).cmdPc = s.cmdPc := rfl
@[simp] theorem State.setPic_fault (p : Pic) : (s.setPic p).fault = s.fault := rfl
@[simp] theorem State.setPic_intEnable (p : Pic) : (s.setPic p).intEnable = s.intEnable := rfl
@[simp] theorem State.setPic_vt (p : Pic) : (s.setPic p).vt = s.vt := rfl
@[simp] theorem State.setPic_installed (p : Pic) : (s.setPic p).installed = s.installed := rfl
@[simp] theorem State.setPic_pic (p : Pic) : (s.setPic p).pic = p := rfl
@[simp] theorem State.setPic_lock (p : Pic) : (s.setPic p).lock = s.lock := rfl
@[simp] theorem State.setPic_savedIf (p : Pic) : (s.setPic p).savedIf = s.savedIf := rfl
@[simp] theorem State.setPic_dstate (p : Pic) : (s.setPic p).dstate = s.dstate := rfl
@[simp] theorem State.setPic_sys (p : Pic) : (s.setPic p).sys = s.sys := rfl
@[simp] theorem State.setPic_ctx (p : Pic) : (s.setPic p).ctx = s.ctx := rfl
@[simp] theorem State.setPic_hist (p : Pic) : (s.setPic p).hist = s.hist := rfl
@[simp] theorem State.setPic_env (p : Pic) : (s.setPic p).env = s.env := rfl
@[simp] theorem State.setPic_kbdReads (p : Pic) : (s.setPic p).kbdReads = s.kbdReads := rfl
@[simp] theorem State.setPic_ctxDraws (p : Pic) : (s.setPic p).ctxDraws = s.ctxDraws := rfl
@[simp] theorem State.setPic_EV (p : Pic) : (s.setPic p).EV = s.EV := rfl

@[simp] theorem State.setDstate_par (d : DecoderCell) : (s.setDstate d).par = s.par := rfl
@[simp] theorem State.setDstate_row (d : DecoderCell) : (s.setDstate d).row = s.row := rfl
@[simp] theorem State.setDstate_col (d : DecoderCell) : (s.setDstate d).col = s.col := rfl
@[simp] theorem State.setDstate_color (d : DecoderCell) : (s.setDstate d).color = s.color := rfl
@[simp] theorem State.setDstate_buf (d : DecoderCell) : (s.setDstate d).buf = s.buf := rfl
@[simp] theorem State.setDstate_hwcur (d : DecoderCell) : (s.setDstate d).hwcur = s.hwcur := rfl
@[simp] theorem State.setDstate_crtcIdx (d : DecoderCell) : (s.setDstate d).crtcIdx = s.crtcIdx := rfl
@[simp] theorem State.setDstate_stream (d : DecoderCell) : (s.setDstate d).stream = s.stream := rfl
@[simp] theorem State.setDstate_cmdPc (d : DecoderCell) : (s.setDstate d).cmdPc = s.cmdPc := rfl
@[simp] theorem State.setDstate_fault (d : DecoderCell) : (s.setDstate d).fault = s.fault := rfl
@[simp] theorem State.setDstate_intEnable (d : DecoderCell) : (s.setDstate d).intEnable = s.intEnable := rfl
@[simp] theorem State.setDstate_vt (d : DecoderCell) : (s.setDstate d).vt = s.vt := rfl
@[simp] theorem State.setDstate_installed (d : DecoderCell) : (s.setDstate d).installed = s.installed := rfl
@[simp] theorem State.setDstate_pic (d : DecoderCell) : (s.setDstate d).pic = s.pic := rfl
@[simp] theorem State.setDstate_lock (d : DecoderCell) : (s.setDstate d).lock = s.lock := rfl
@[simp] theorem State.setDstate_savedIf (d : DecoderCell) : (s.setDstate d).savedIf = s.savedIf := rfl
@[simp] theorem State.setDstate_dstate (d : DecoderCell) : (s.setDstate d).dstate = d := rfl
@[simp] theorem State.setDstate_sys (d : DecoderCell) : (s.setDstate d).sys = s.sys := rfl
@[simp] theorem State.setDstate_ctx (d : DecoderCell) : (s.setDstate d).ctx = s.ctx := rfl
@[simp] theorem State.setDstate_hist (d : DecoderCell) : (s.setDstate d).hist = s.hist := rfl
@[simp] theorem State.setDstate_env (d : DecoderCell) : (s.setDstate d).env = s.env := rfl
@[simp] theorem State.setDstate_kbdReads (d : DecoderCell) : (s.setDstate d).kbdReads = s.kbdReads := rfl
@[simp] theorem State.setDstate_ctxDraws (d : DecoderCell) : (s.setDstate d).ctxDraws = s.ctxDraws := rfl
@[simp] theorem State.setDstate_EV (d : DecoderCell) : (s.setDstate d).EV = s.EV := rfl

@[simp] theorem State.setSys_par (y : Sys) : (s.setSys y).par = s.par := rfl
@[simp] theorem State.setSys_row (y : Sys) : (s.setSys y).row = s.row := rfl
@[simp] theorem State.setSys_col (y : Sys) : (s.setSys y).col = s.col := rfl
@[simp] theorem State.setSys_color (y : Sys) : (s.setSys y).color = s.color := rfl
@[simp] theorem State.setSys_buf (y : Sys) : (s.setSys y).buf = s.buf := rfl
@[simp] theorem State.setSys_hwcur (y : Sys) : (s.setSys y).hwcur = s.hwcur := rfl
@[simp] theorem State.setSys_crtcIdx (y : Sys) : (s.setSys y).crtcIdx = s.crtcIdx := rfl
@[simp] theorem State.setSys_stream (y : Sys) : (s.setSys y).stream = s.stream := rfl
@[simp] theorem State.setSys_cmdPc (y : Sys) : (s.setSys y).cmdPc = s.cmdPc := rfl
@[simp] theorem State.setSys_fault (y : Sys) : (s.setSys y).fault = s.fault := rfl
@[simp] theorem State.setSys_intEnable (y : Sys) : (s.setSys y).intEnable = s.intEnable := rfl
@[simp] theorem State.setSys_vt (y : Sys) : (s.setSys y).vt = s.vt := rfl
@[simp] theorem State.setSys_installed (y : Sys) : (s.setSys y).installed = s.installed := rfl
@[simp] theorem State.setSys_pic (y : Sys) : (s.setSys y).pic = s.pic := rfl
@[simp] theorem State.setSys_lock (y : Sys) : (s.setSys y).lock = s.lock := rfl
@[simp] theorem State.setSys_savedIf (y : Sys) : (s.setSys y).savedIf = s.savedIf := rfl
@[simp] theorem State.setSys_dstate (y : Sys) : (s.setSys y).dstate = s.dstate := rfl
@[simp] theorem State.setSys_sys (y : Sys) : (s.setSys y).sys = y := rfl
@[simp] theorem State.setSys_ctx (y : Sys) : (s.setSys y).ctx = s.ctx := rfl
@[simp] theorem State.setSys_hist (y : Sys) : (s.setSys y).hist = s.hist := rfl
@[simp] theorem State.setSys_env (y : Sys) : (s.setSys y).env = s.env := rfl
@[simp] theorem State.setSys_kbdReads (y : Sys) : (s.setSys y).kbdReads = s.kbdReads := rfl
@[simp] theorem State.setSys_ctxDraws (y : Sys) : (s.setSys y).ctxDraws = s.ctxDraws := rfl
@[simp] theorem State.setSys_EV (y : Sys) : (s.setSys y).EV = s.EV := rfl

@[simp] theorem State.setCtx_par (c : Ctx) : (s.setCtx c).par = s.par := rfl
@[simp] theorem State.setCtx_row (c : Ctx) : (s.setCtx c).row = s.row := rfl
@[simp] theorem State.setCtx_col (c : Ctx) : (s.setCtx c).col = s.col := rfl
@[simp] theorem State.setCtx_color (c : Ctx) : (s.setCtx c).color = s.color := rfl
@[simp] theorem State.setCtx_buf (c : Ctx) : (s.setCtx c).buf = s.buf := rfl
@[simp] theorem State.setCtx_hwcur (c : Ctx) : (s.setCtx c).hwcur = s.hwcur := rfl
@[simp] theorem State.setCtx_crtcIdx (c : Ctx) : (s.setCtx c).crtcIdx = s.crtcIdx := rfl
@[simp] theorem State.setCtx_stream (c : Ctx) : (s.setCtx c).stream = s.stream := rfl
@[simp] theorem State.setCtx_cmdPc (c : Ctx) : (s.setCtx c).cmdPc = s.cmdPc := rfl
@[simp] theorem State.setCtx_fault (c : Ctx) : (s.setCtx c).fault = s.fault := rfl
@[simp] theorem State.setCtx_intEnable (c : Ctx) : (s.setCtx c).intEnable = s.intEnable := rfl
@[simp] theorem State.setCtx_vt (c : Ctx) : (s.setCtx c).vt = s.vt := rfl
@[simp] theorem State.setCtx_installed (c : Ctx) : (s.setCtx c).installed = s.installed := rfl
@[simp] theorem State.setCtx_pic (c : Ctx) : (s.setCtx c).pic = s.pic := rfl
@[simp] theorem State.setCtx_lock (c : Ctx) : (s.setCtx c).lock = s.lock := rfl
@[simp] theorem State.setCtx_savedIf (c : Ctx) : (s.setCtx c).savedIf = s.savedIf := rfl
@[simp] theorem State.setCtx_dstate (c : Ctx) : (s.setCtx c).dstate = s.dstate := rfl
@[simp] theorem State.setCtx_sys (c : Ctx) : (s.setCtx c).sys = s.sys := rfl
@[simp] theorem State.setCtx_ctx (c : Ctx) : (s.setCtx c).ctx = c := rfl
@[simp] theorem State.setCtx_hist (c : Ctx) : (s.setCtx c).hist = s.hist := rfl
@[simp] theorem State.setCtx_env (c : Ctx) : (s.setCtx c).env = s.env := rfl
@[simp] theorem State.setCtx_kbdReads (c : Ctx) : (s.setCtx c).kbdReads = s.kbdReads := rfl
@[simp] theorem State.setCtx_ctxDraws (c : Ctx) : (s.setCtx c).ctxDraws = s.ctxDraws := rfl
@[simp] theorem State.setCtx_EV (c : Ctx) : (s.setCtx c).EV = s.EV := rfl

@[simp] theorem State.setEnv_par (e : List EnvMove) : (s.setEnv e).par = s.par := rfl
@[simp] theorem State.setEnv_row (e : List EnvMove) : (s.setEnv e).row = s.row := rfl
@[simp] theorem State.setEnv_col (e : List EnvMove) : (s.setEnv e).col = s.col := rfl
@[simp] theorem State.setEnv_color (e : List EnvMove) : (s.setEnv e).color = s.color := rfl
@[simp] theorem State.setEnv_buf (e : List EnvMove) : (s.setEnv e).buf = s.buf := rfl
@[simp] theorem State.setEnv_hwcur (e : List EnvMove) : (s.setEnv e).hwcur = s.hwcur := rfl
@[simp] theorem State.setEnv_crtcIdx (e : List EnvMove) : (s.setEnv e).crtcIdx = s.crtcIdx := rfl
@[simp] theorem State.setEnv_stream (e : List EnvMove) : (s.setEnv e).stream = s.stream := rfl
@[simp] theorem State.setEnv_cmdPc (e : List EnvMove) : (s.setEnv e).cmdPc = s.cmdPc := rfl
@[simp] theorem State.setEnv_fault (e : List EnvMove) : (s.setEnv e).fault = s.fault := rfl
@[simp] theorem State.setEnv_intEnable (e : List EnvMove) : (s.setEnv e).intEnable = s.intEnable := rfl
@[simp] theorem State.setEnv_vt (e : List EnvMove) : (s.setEnv e).vt = s.vt := rfl
@[simp] theorem State.setEnv_installed (e : List EnvMove) : (s.setEnv e).installed = s.installed := rfl
@[simp] theorem State.setEnv_pic (e : List EnvMove) : (s.setEnv e).pic = s.pic := rfl
@[simp] theorem State.setEnv_lock (e : List EnvMove) : (s.setEnv e).lock = s.lock := rfl
@[simp] theorem State.setEnv_savedIf (e : List EnvMove) : (s.setEnv e).savedIf = s.savedIf := rfl
@[simp] theorem State.setEnv_dstate (e : List EnvMove) : (s.setEnv e).dstate = s.dstate := rfl
@[simp] theorem State.setEnv_sys (e : List EnvMove) : (s.setEnv e).sys = s.sys := rfl
@[simp] theorem State.setEnv_ctx (e : List EnvMove) : (s.setEnv e).ctx = s.ctx := rfl
@[simp] theorem State.setEnv_hist (e : List EnvMove) : (s.setEnv e).hist = s.hist := rfl
@[simp] theorem State.setEnv_env (e : List EnvMove) : (s.setEnv e).env = e := rfl
@[simp] theorem State.setEnv_kbdReads (e : List EnvMove) : (s.setEnv e).kbdReads = s.kbdReads := rfl
@[simp] theorem State.setEnv_ctxDraws (e : List EnvMove) : (s.setEnv e).ctxDraws = s.ctxDraws := rfl
@[simp] theorem State.setEnv_EV (e : List EnvMove) : (s.setEnv e).EV = s.EV := rfl

@[simp] theorem State.countKbdRead_par : (s.countKbdRead).par = s.par := rfl
@[simp] theorem State.countKbdRead_row : (s.countKbdRead).row = s.row := rfl
@[simp] theorem State.countKbdRead_col : (s.countKbdRead).col = s.col := rfl
@[simp] theorem State.countKbdRead_color : (s.countKbdRead).color = s.color := rfl
@[simp] theorem State.countKbdRead_buf : (s.countKbdRead).buf = s.buf := rfl
@[simp] theorem State.countKbdRead_hwcur : (s.countKbdRead).hwcur = s.hwcur := rfl
@[simp] theorem State.countKbdRead_crtcIdx : (s.countKbdRead).crtcIdx = s.crtcIdx := rfl
@[simp] theorem State.countKbdRead_stream : (s.countKbdRead).stream = s.stream := rfl
@[simp] theorem State.countKbdRead_cmdPc : (s.countKbdRead).cmdPc = s.cmdPc := rfl
@[simp] theorem State.countKbdRead_fault : (s.countKbdRead).fault = s.fault := rfl
@[simp] theorem State.countKbdRead_intEnable : (s.countKbdRead).intEnable = s.intEnable := rfl
@[simp] theorem State.countKbdRead_vt : (s.countKbdRead).vt = s.vt := rfl
@[simp] theorem State.countKbdRead_installed : (s.countKbdRead).installed = s.installed := rfl
@[simp] theorem State.countKbdRead_pic : (s.countKbdRead).pic = s.pic := rfl
@[simp] theorem State.countKbdRead_lock : (s.countKbdRead).lock = s.lock := rfl
@[simp] theorem State.countKbdRead_savedIf : (s.countKbdRead).savedIf = s.savedIf := rfl
@[simp] theorem State.countKbdRead_dstate : (s.countKbdRead).dstate = s.dstate := rfl
@[simp] theorem State.countKbdRead_sys : (s.countKbdRead).sys = s.sys := rfl
@[simp] theorem State.countKbdRead_ctx : (s.countKbdRead).ctx = s.ctx := rfl
@[simp] theorem State.countKbdRead_hist : (s.countKbdRead).hist = s.hist := rfl
@[simp] theorem State.countKbdRead_env : (s.countKbdRead).env = s.env := rfl
@[simp] theorem State.countKbdRead_kbdReads : (s.countKbdRead).kbdReads = s.kbdReads + 1 := rfl
@[simp] theorem State.countKbdRead_ctxDraws : (s.countKbdRead).ctxDraws = s.ctxDraws := rfl
@[simp] theorem State.countKbdRead_EV : (s.countKbdRead).EV = s.EV := rfl

@[simp] theorem State.countCtxDraw_par : (s.countCtxDraw).par = s.par := rfl
@[simp] theorem State.countCtxDraw_row : (s.countCtxDraw).row = s.row := rfl
@[simp] theorem State.countCtxDraw_col : (s.countCtxDraw).col = s.col := rfl
@[simp] theorem State.countCtxDraw_color : (s.countCtxDraw).color = s.color := rfl
@[simp] theorem State.countCtxDraw_buf : (s.countCtxDraw).buf = s.buf := rfl
@[simp] theorem State.countCtxDraw_hwcur : (s.countCtxDraw).hwcur = s.hwcur := rfl
@[simp] theorem State.countCtxDraw_crtcIdx : (s.countCtxDraw).crtcIdx = s.crtcIdx := rfl
@[simp] theorem State.countCtxDraw_stream : (s.countCtxDraw).stream = s.stream := rfl
@[simp] theorem State.countCtxDraw_cmdPc : (s.countCtxDraw).cmdPc = s.cmdPc := rfl
@[simp] theorem State.countCtxDraw_fault : (s.countCtxDraw).fault = s.fault := rfl
@[simp] theorem State.countCtxDraw_intEnable : (s.countCtxDraw).intEnable = s.intEnable := rfl
@[simp] theorem State.countCtxDraw_vt : (s.countCtxDraw).vt = s.vt := rfl
@[simp] theorem State.countCtxDraw_installed : (s.countCtxDraw).installed = s.installed := rfl
@[simp] theorem State.countCtxDraw_pic : (s.countCtxDraw).pic = s.pic := rfl
@[simp] theorem State.countCtxDraw_lock : (s.countCtxDraw).lock = s.lock := rfl
@[simp] theorem State.countCtxDraw_savedIf : (s.countCtxDraw).savedIf = s.savedIf := rfl
@[simp] theorem State.countCtxDraw_dstate : (s.countCtxDraw).dstate = s.dstate := rfl
@[simp] theorem State.countCtxDraw_sys : (s.countCtxDraw).sys = s.sys := rfl
@[simp] theorem State.countCtxDraw_ctx : (s.countCtxDraw).ctx = s.ctx := rfl
@[simp] theorem State.countCtxDraw_hist : (s.countCtxDraw).hist = s.hist := rfl
@[simp] theorem State.countCtxDraw_env : (s.countCtxDraw).env = s.env := rfl
@[simp] theorem State.countCtxDraw_kbdReads : (s.countCtxDraw).kbdReads = s.kbdReads := rfl
@[simp] theorem State.countCtxDraw_ctxDraws : (s.countCtxDraw).ctxDraws = s.ctxDraws + 1 := rfl
@[simp] theorem State.countCtxDraw_EV : (s.countCtxDraw).EV = s.EV := rfl

/-- Logging appends at the end of `EV` (10_state R39). -/
@[simp] theorem State.log_EV (e : Event) : (s.log e).EV = s.EV ++ [e] := by simp [State.EV, State.log]

/-! ## Operations built of updates -/

@[simp] theorem State.raiseFault_par (code : FaultCode) : (s.raiseFault code).par = s.par := rfl
@[simp] theorem State.raiseFault_row (code : FaultCode) : (s.raiseFault code).row = s.row := rfl
@[simp] theorem State.raiseFault_col (code : FaultCode) : (s.raiseFault code).col = s.col := rfl
@[simp] theorem State.raiseFault_color (code : FaultCode) : (s.raiseFault code).color = s.color := rfl
@[simp] theorem State.raiseFault_buf (code : FaultCode) : (s.raiseFault code).buf = s.buf := rfl
@[simp] theorem State.raiseFault_hwcur (code : FaultCode) : (s.raiseFault code).hwcur = s.hwcur := rfl
@[simp] theorem State.raiseFault_crtcIdx (code : FaultCode) : (s.raiseFault code).crtcIdx = s.crtcIdx := rfl
@[simp] theorem State.raiseFault_stream (code : FaultCode) : (s.raiseFault code).stream = s.stream := rfl
@[simp] theorem State.raiseFault_cmdPc (code : FaultCode) : (s.raiseFault code).cmdPc = s.cmdPc := rfl
@[simp] theorem State.raiseFault_fault (code : FaultCode) : (s.raiseFault code).fault = some (code, s.cmdPc) := rfl
@[simp] theorem State.raiseFault_intEnable (code : FaultCode) : (s.raiseFault code).intEnable = s.intEnable := rfl
@[simp] theorem State.raiseFault_vt (code : FaultCode) : (s.raiseFault code).vt = s.vt := rfl
@[simp] theorem State.raiseFault_installed (code : FaultCode) : (s.raiseFault code).installed = s.installed := rfl
@[simp] theorem State.raiseFault_pic (code : FaultCode) : (s.raiseFault code).pic = s.pic := rfl
@[simp] theorem State.raiseFault_lock (code : FaultCode) : (s.raiseFault code).lock = s.lock := rfl
@[simp] theorem State.raiseFault_savedIf (code : FaultCode) : (s.raiseFault code).savedIf = s.savedIf := rfl
@[simp] theorem State.raiseFault_dstate (code : FaultCode) : (s.raiseFault code).dstate = s.dstate := rfl
@[simp] theorem State.raiseFault_sys (code : FaultCode) : (s.raiseFault code).sys = .faulted := rfl
@[simp] theorem State.raiseFault_ctx (code : FaultCode) : (s.raiseFault code).ctx = s.ctx := rfl
@[simp] theorem State.raiseFault_hist (code : FaultCode) : (s.raiseFault code).hist = .fault code :: s.hist := rfl
@[simp] theorem State.raiseFault_env (code : FaultCode) : (s.raiseFault code).env = s.env := rfl
@[simp] theorem State.raiseFault_kbdReads (code : FaultCode) : (s.raiseFault code).kbdReads = s.kbdReads := rfl
@[simp] theorem State.raiseFault_ctxDraws (code : FaultCode) : (s.raiseFault code).ctxDraws = s.ctxDraws := rfl

@[simp] theorem State.halt_par (cause : HaltCause) : (s.halt cause).par = s.par := rfl
@[simp] theorem State.halt_row (cause : HaltCause) : (s.halt cause).row = s.row := rfl
@[simp] theorem State.halt_col (cause : HaltCause) : (s.halt cause).col = s.col := rfl
@[simp] theorem State.halt_color (cause : HaltCause) : (s.halt cause).color = s.color := rfl
@[simp] theorem State.halt_buf (cause : HaltCause) : (s.halt cause).buf = s.buf := rfl
@[simp] theorem State.halt_hwcur (cause : HaltCause) : (s.halt cause).hwcur = s.hwcur := rfl
@[simp] theorem State.halt_crtcIdx (cause : HaltCause) : (s.halt cause).crtcIdx = s.crtcIdx := rfl
@[simp] theorem State.halt_stream (cause : HaltCause) : (s.halt cause).stream = s.stream := rfl
@[simp] theorem State.halt_cmdPc (cause : HaltCause) : (s.halt cause).cmdPc = s.cmdPc := rfl
@[simp] theorem State.halt_fault (cause : HaltCause) : (s.halt cause).fault = s.fault := rfl
@[simp] theorem State.halt_intEnable (cause : HaltCause) : (s.halt cause).intEnable = s.intEnable := rfl
@[simp] theorem State.halt_vt (cause : HaltCause) : (s.halt cause).vt = s.vt := rfl
@[simp] theorem State.halt_installed (cause : HaltCause) : (s.halt cause).installed = s.installed := rfl
@[simp] theorem State.halt_pic (cause : HaltCause) : (s.halt cause).pic = s.pic := rfl
@[simp] theorem State.halt_lock (cause : HaltCause) : (s.halt cause).lock = s.lock := rfl
@[simp] theorem State.halt_savedIf (cause : HaltCause) : (s.halt cause).savedIf = s.savedIf := rfl
@[simp] theorem State.halt_dstate (cause : HaltCause) : (s.halt cause).dstate = s.dstate := rfl
@[simp] theorem State.halt_sys (cause : HaltCause) : (s.halt cause).sys = .halted cause := rfl
@[simp] theorem State.halt_ctx (cause : HaltCause) : (s.halt cause).ctx = s.ctx := rfl
@[simp] theorem State.halt_hist (cause : HaltCause) : (s.halt cause).hist = .halt cause :: s.hist := rfl
@[simp] theorem State.halt_env (cause : HaltCause) : (s.halt cause).env = s.env := rfl
@[simp] theorem State.halt_kbdReads (cause : HaltCause) : (s.halt cause).kbdReads = s.kbdReads := rfl
@[simp] theorem State.halt_ctxDraws (cause : HaltCause) : (s.halt cause).ctxDraws = s.ctxDraws := rfl

@[simp] theorem State.becomeStuck_par (reason : StuckReason) : (s.becomeStuck reason).par = s.par := rfl
@[simp] theorem State.becomeStuck_row (reason : StuckReason) : (s.becomeStuck reason).row = s.row := rfl
@[simp] theorem State.becomeStuck_col (reason : StuckReason) : (s.becomeStuck reason).col = s.col := rfl
@[simp] theorem State.becomeStuck_color (reason : StuckReason) : (s.becomeStuck reason).color = s.color := rfl
@[simp] theorem State.becomeStuck_buf (reason : StuckReason) : (s.becomeStuck reason).buf = s.buf := rfl
@[simp] theorem State.becomeStuck_hwcur (reason : StuckReason) : (s.becomeStuck reason).hwcur = s.hwcur := rfl
@[simp] theorem State.becomeStuck_crtcIdx (reason : StuckReason) : (s.becomeStuck reason).crtcIdx = s.crtcIdx := rfl
@[simp] theorem State.becomeStuck_stream (reason : StuckReason) : (s.becomeStuck reason).stream = s.stream := rfl
@[simp] theorem State.becomeStuck_cmdPc (reason : StuckReason) : (s.becomeStuck reason).cmdPc = s.cmdPc := rfl
@[simp] theorem State.becomeStuck_fault (reason : StuckReason) : (s.becomeStuck reason).fault = s.fault := rfl
@[simp] theorem State.becomeStuck_intEnable (reason : StuckReason) :
    (s.becomeStuck reason).intEnable = s.intEnable := rfl
@[simp] theorem State.becomeStuck_vt (reason : StuckReason) : (s.becomeStuck reason).vt = s.vt := rfl
@[simp] theorem State.becomeStuck_installed (reason : StuckReason) :
    (s.becomeStuck reason).installed = s.installed := rfl
@[simp] theorem State.becomeStuck_pic (reason : StuckReason) : (s.becomeStuck reason).pic = s.pic := rfl
@[simp] theorem State.becomeStuck_lock (reason : StuckReason) : (s.becomeStuck reason).lock = s.lock := rfl
@[simp] theorem State.becomeStuck_savedIf (reason : StuckReason) : (s.becomeStuck reason).savedIf = s.savedIf := rfl
@[simp] theorem State.becomeStuck_dstate (reason : StuckReason) : (s.becomeStuck reason).dstate = s.dstate := rfl
@[simp] theorem State.becomeStuck_sys (reason : StuckReason) : (s.becomeStuck reason).sys = .stuck reason := rfl
@[simp] theorem State.becomeStuck_ctx (reason : StuckReason) : (s.becomeStuck reason).ctx = s.ctx := rfl
@[simp] theorem State.becomeStuck_hist (reason : StuckReason) : (s.becomeStuck reason).hist = s.hist := rfl
@[simp] theorem State.becomeStuck_env (reason : StuckReason) : (s.becomeStuck reason).env = s.env := rfl
@[simp] theorem State.becomeStuck_kbdReads (reason : StuckReason) :
    (s.becomeStuck reason).kbdReads = s.kbdReads := rfl
@[simp] theorem State.becomeStuck_ctxDraws (reason : StuckReason) :
    (s.becomeStuck reason).ctxDraws = s.ctxDraws := rfl

@[simp] theorem State.kbdRead_par : s.kbdRead.2.par = s.par := rfl
@[simp] theorem State.kbdRead_row : s.kbdRead.2.row = s.row := rfl
@[simp] theorem State.kbdRead_col : s.kbdRead.2.col = s.col := rfl
@[simp] theorem State.kbdRead_color : s.kbdRead.2.color = s.color := rfl
@[simp] theorem State.kbdRead_buf : s.kbdRead.2.buf = s.buf := rfl
@[simp] theorem State.kbdRead_hwcur : s.kbdRead.2.hwcur = s.hwcur := rfl
@[simp] theorem State.kbdRead_crtcIdx : s.kbdRead.2.crtcIdx = s.crtcIdx := rfl
@[simp] theorem State.kbdRead_stream : s.kbdRead.2.stream = s.stream := rfl
@[simp] theorem State.kbdRead_cmdPc : s.kbdRead.2.cmdPc = s.cmdPc := rfl
@[simp] theorem State.kbdRead_fault : s.kbdRead.2.fault = s.fault := rfl
@[simp] theorem State.kbdRead_intEnable : s.kbdRead.2.intEnable = s.intEnable := rfl
@[simp] theorem State.kbdRead_vt : s.kbdRead.2.vt = s.vt := rfl
@[simp] theorem State.kbdRead_installed : s.kbdRead.2.installed = s.installed := rfl
@[simp] theorem State.kbdRead_pic : s.kbdRead.2.pic = s.pic := rfl
@[simp] theorem State.kbdRead_lock : s.kbdRead.2.lock = s.lock := rfl
@[simp] theorem State.kbdRead_savedIf : s.kbdRead.2.savedIf = s.savedIf := rfl
@[simp] theorem State.kbdRead_dstate : s.kbdRead.2.dstate = s.dstate := rfl
@[simp] theorem State.kbdRead_sys : s.kbdRead.2.sys = s.sys := rfl
@[simp] theorem State.kbdRead_ctx : s.kbdRead.2.ctx = s.ctx := rfl
@[simp] theorem State.kbdRead_hist :
    s.kbdRead.2.hist = .portR s.par.kbdDataPort (Config.kbdByte s.kbdReads) :: s.hist := rfl
@[simp] theorem State.kbdRead_env : s.kbdRead.2.env = s.env := rfl
@[simp] theorem State.kbdRead_kbdReads : s.kbdRead.2.kbdReads = s.kbdReads + 1 := rfl
@[simp] theorem State.kbdRead_ctxDraws : s.kbdRead.2.ctxDraws = s.ctxDraws := rfl

@[simp] theorem trapEntry_par (v : Byte) : (trapEntry v s).par = s.par := rfl
@[simp] theorem trapEntry_row (v : Byte) : (trapEntry v s).row = s.row := rfl
@[simp] theorem trapEntry_col (v : Byte) : (trapEntry v s).col = s.col := rfl
@[simp] theorem trapEntry_color (v : Byte) : (trapEntry v s).color = s.color := rfl
@[simp] theorem trapEntry_buf (v : Byte) : (trapEntry v s).buf = s.buf := rfl
@[simp] theorem trapEntry_hwcur (v : Byte) : (trapEntry v s).hwcur = s.hwcur := rfl
@[simp] theorem trapEntry_crtcIdx (v : Byte) : (trapEntry v s).crtcIdx = s.crtcIdx := rfl
@[simp] theorem trapEntry_stream (v : Byte) : (trapEntry v s).stream = s.stream := rfl
@[simp] theorem trapEntry_cmdPc (v : Byte) : (trapEntry v s).cmdPc = s.cmdPc := rfl
@[simp] theorem trapEntry_fault (v : Byte) : (trapEntry v s).fault = s.fault := rfl
@[simp] theorem trapEntry_intEnable (v : Byte) : (trapEntry v s).intEnable = false := rfl
@[simp] theorem trapEntry_vt (v : Byte) : (trapEntry v s).vt = s.vt := rfl
@[simp] theorem trapEntry_installed (v : Byte) : (trapEntry v s).installed = s.installed := rfl
@[simp] theorem trapEntry_pic (v : Byte) : (trapEntry v s).pic = s.pic := rfl
@[simp] theorem trapEntry_lock (v : Byte) : (trapEntry v s).lock = s.lock := rfl
@[simp] theorem trapEntry_savedIf (v : Byte) : (trapEntry v s).savedIf = s.savedIf := rfl
@[simp] theorem trapEntry_dstate (v : Byte) : (trapEntry v s).dstate = s.dstate := rfl
@[simp] theorem trapEntry_sys (v : Byte) : (trapEntry v s).sys = s.sys := rfl
@[simp] theorem trapEntry_ctx (v : Byte) : (trapEntry v s).ctx = .handler v := rfl
@[simp] theorem trapEntry_hist (v : Byte) : (trapEntry v s).hist = s.hist := rfl
@[simp] theorem trapEntry_env (v : Byte) : (trapEntry v s).env = s.env := rfl
@[simp] theorem trapEntry_kbdReads (v : Byte) : (trapEntry v s).kbdReads = s.kbdReads := rfl
@[simp] theorem trapEntry_ctxDraws (v : Byte) : (trapEntry v s).ctxDraws = s.ctxDraws := rfl

@[simp] theorem leaveHandler_par : (leaveHandler s).par = s.par := rfl
@[simp] theorem leaveHandler_row : (leaveHandler s).row = s.row := rfl
@[simp] theorem leaveHandler_col : (leaveHandler s).col = s.col := rfl
@[simp] theorem leaveHandler_color : (leaveHandler s).color = s.color := rfl
@[simp] theorem leaveHandler_buf : (leaveHandler s).buf = s.buf := rfl
@[simp] theorem leaveHandler_hwcur : (leaveHandler s).hwcur = s.hwcur := rfl
@[simp] theorem leaveHandler_crtcIdx : (leaveHandler s).crtcIdx = s.crtcIdx := rfl
@[simp] theorem leaveHandler_stream : (leaveHandler s).stream = s.stream := rfl
@[simp] theorem leaveHandler_cmdPc : (leaveHandler s).cmdPc = s.cmdPc := rfl
@[simp] theorem leaveHandler_fault : (leaveHandler s).fault = s.fault := rfl
@[simp] theorem leaveHandler_intEnable : (leaveHandler s).intEnable = s.intEnable := rfl
@[simp] theorem leaveHandler_vt : (leaveHandler s).vt = s.vt := rfl
@[simp] theorem leaveHandler_installed : (leaveHandler s).installed = s.installed := rfl
@[simp] theorem leaveHandler_pic : (leaveHandler s).pic = s.pic := rfl
@[simp] theorem leaveHandler_lock : (leaveHandler s).lock = s.lock := rfl
@[simp] theorem leaveHandler_savedIf : (leaveHandler s).savedIf = s.savedIf := rfl
@[simp] theorem leaveHandler_dstate : (leaveHandler s).dstate = s.dstate := rfl
@[simp] theorem leaveHandler_sys : (leaveHandler s).sys = s.sys := rfl
@[simp] theorem leaveHandler_ctx : (leaveHandler s).ctx = .normal := rfl
@[simp] theorem leaveHandler_hist : (leaveHandler s).hist = s.hist := rfl
@[simp] theorem leaveHandler_env : (leaveHandler s).env = s.env := rfl
@[simp] theorem leaveHandler_kbdReads : (leaveHandler s).kbdReads = s.kbdReads := rfl
@[simp] theorem leaveHandler_ctxDraws : (leaveHandler s).ctxDraws = s.ctxDraws := rfl

@[simp] theorem trapReturn_par (b : Bool) : (trapReturn b s).par = s.par := rfl
@[simp] theorem trapReturn_row (b : Bool) : (trapReturn b s).row = s.row := rfl
@[simp] theorem trapReturn_col (b : Bool) : (trapReturn b s).col = s.col := rfl
@[simp] theorem trapReturn_color (b : Bool) : (trapReturn b s).color = s.color := rfl
@[simp] theorem trapReturn_buf (b : Bool) : (trapReturn b s).buf = s.buf := rfl
@[simp] theorem trapReturn_hwcur (b : Bool) : (trapReturn b s).hwcur = s.hwcur := rfl
@[simp] theorem trapReturn_crtcIdx (b : Bool) : (trapReturn b s).crtcIdx = s.crtcIdx := rfl
@[simp] theorem trapReturn_stream (b : Bool) : (trapReturn b s).stream = s.stream := rfl
@[simp] theorem trapReturn_cmdPc (b : Bool) : (trapReturn b s).cmdPc = s.cmdPc := rfl
@[simp] theorem trapReturn_fault (b : Bool) : (trapReturn b s).fault = s.fault := rfl
@[simp] theorem trapReturn_intEnable (b : Bool) : (trapReturn b s).intEnable = b := rfl
@[simp] theorem trapReturn_vt (b : Bool) : (trapReturn b s).vt = s.vt := rfl
@[simp] theorem trapReturn_installed (b : Bool) : (trapReturn b s).installed = s.installed := rfl
@[simp] theorem trapReturn_pic (b : Bool) : (trapReturn b s).pic = s.pic := rfl
@[simp] theorem trapReturn_lock (b : Bool) : (trapReturn b s).lock = s.lock := rfl
@[simp] theorem trapReturn_savedIf (b : Bool) : (trapReturn b s).savedIf = s.savedIf := rfl
@[simp] theorem trapReturn_dstate (b : Bool) : (trapReturn b s).dstate = s.dstate := rfl
@[simp] theorem trapReturn_sys (b : Bool) : (trapReturn b s).sys = s.sys := rfl
@[simp] theorem trapReturn_ctx (b : Bool) : (trapReturn b s).ctx = .normal := rfl
@[simp] theorem trapReturn_hist (b : Bool) : (trapReturn b s).hist = s.hist := rfl
@[simp] theorem trapReturn_env (b : Bool) : (trapReturn b s).env = s.env := rfl
@[simp] theorem trapReturn_kbdReads (b : Bool) : (trapReturn b s).kbdReads = s.kbdReads := rfl
@[simp] theorem trapReturn_ctxDraws (b : Bool) : (trapReturn b s).ctxDraws = s.ctxDraws := rfl

@[simp] theorem endOfInterrupt_par (w : Controller) (l : Nat) : (endOfInterrupt w l s).par = s.par := rfl
@[simp] theorem endOfInterrupt_row (w : Controller) (l : Nat) : (endOfInterrupt w l s).row = s.row := rfl
@[simp] theorem endOfInterrupt_col (w : Controller) (l : Nat) : (endOfInterrupt w l s).col = s.col := rfl
@[simp] theorem endOfInterrupt_color (w : Controller) (l : Nat) : (endOfInterrupt w l s).color = s.color := rfl
@[simp] theorem endOfInterrupt_buf (w : Controller) (l : Nat) : (endOfInterrupt w l s).buf = s.buf := rfl
@[simp] theorem endOfInterrupt_hwcur (w : Controller) (l : Nat) : (endOfInterrupt w l s).hwcur = s.hwcur := rfl
@[simp] theorem endOfInterrupt_crtcIdx (w : Controller) (l : Nat) : (endOfInterrupt w l s).crtcIdx = s.crtcIdx := rfl
@[simp] theorem endOfInterrupt_stream (w : Controller) (l : Nat) : (endOfInterrupt w l s).stream = s.stream := rfl
@[simp] theorem endOfInterrupt_cmdPc (w : Controller) (l : Nat) : (endOfInterrupt w l s).cmdPc = s.cmdPc := rfl
@[simp] theorem endOfInterrupt_fault (w : Controller) (l : Nat) : (endOfInterrupt w l s).fault = s.fault := rfl
@[simp] theorem endOfInterrupt_intEnable (w : Controller) (l : Nat) :
    (endOfInterrupt w l s).intEnable = s.intEnable := rfl
@[simp] theorem endOfInterrupt_vt (w : Controller) (l : Nat) : (endOfInterrupt w l s).vt = s.vt := rfl
@[simp] theorem endOfInterrupt_installed (w : Controller) (l : Nat) :
    (endOfInterrupt w l s).installed = s.installed := rfl
@[simp] theorem endOfInterrupt_pic (w : Controller) (l : Nat) :
    (endOfInterrupt w l s).pic = { s.pic with isr := clearBit s.pic.isr l } := rfl
@[simp] theorem endOfInterrupt_lock (w : Controller) (l : Nat) : (endOfInterrupt w l s).lock = s.lock := rfl
@[simp] theorem endOfInterrupt_savedIf (w : Controller) (l : Nat) : (endOfInterrupt w l s).savedIf = s.savedIf := rfl
@[simp] theorem endOfInterrupt_dstate (w : Controller) (l : Nat) : (endOfInterrupt w l s).dstate = s.dstate := rfl
@[simp] theorem endOfInterrupt_sys (w : Controller) (l : Nat) : (endOfInterrupt w l s).sys = s.sys := rfl
@[simp] theorem endOfInterrupt_ctx (w : Controller) (l : Nat) : (endOfInterrupt w l s).ctx = s.ctx := rfl
@[simp] theorem endOfInterrupt_hist (w : Controller) (l : Nat) : (endOfInterrupt w l s).hist = .eoi w :: s.hist := rfl
@[simp] theorem endOfInterrupt_env (w : Controller) (l : Nat) : (endOfInterrupt w l s).env = s.env := rfl
@[simp] theorem endOfInterrupt_kbdReads (w : Controller) (l : Nat) :
    (endOfInterrupt w l s).kbdReads = s.kbdReads := rfl
@[simp] theorem endOfInterrupt_ctxDraws (w : Controller) (l : Nat) :
    (endOfInterrupt w l s).ctxDraws = s.ctxDraws := rfl

/-! ## The buffer as it reads after an update that does not write it -/

@[simp] theorem State.log_cellAt (e : Event) (q : Row) (k : Col) : (s.log e).cellAt q k = s.cellAt q k := rfl
@[simp] theorem State.log_byteAt (e : Event) (x : Nat) : (s.log e).byteAt x = s.byteAt x := rfl
@[simp] theorem State.setCursor_cellAt (r : Row) (c : CurCol) (q : Row) (k : Col) :
    (s.setCursor r c).cellAt q k = s.cellAt q k := rfl
@[simp] theorem State.setCursor_byteAt (r : Row) (c : CurCol) (x : Nat) :
    (s.setCursor r c).byteAt x = s.byteAt x := rfl
@[simp] theorem State.setHwcur_cellAt (w : Word) (q : Row) (k : Col) : (s.setHwcur w).cellAt q k = s.cellAt q k := rfl
@[simp] theorem State.setHwcur_byteAt (w : Word) (x : Nat) : (s.setHwcur w).byteAt x = s.byteAt x := rfl
@[simp] theorem State.setCrtcIdx_cellAt (v : Byte) (q : Row) (k : Col) :
    (s.setCrtcIdx v).cellAt q k = s.cellAt q k := rfl
@[simp] theorem State.setCrtcIdx_byteAt (v : Byte) (x : Nat) : (s.setCrtcIdx v).byteAt x = s.byteAt x := rfl
@[simp] theorem State.advance_cellAt (n : Nat) (q : Row) (k : Col) : (s.advance n).cellAt q k = s.cellAt q k := rfl
@[simp] theorem State.advance_byteAt (n : Nat) (x : Nat) : (s.advance n).byteAt x = s.byteAt x := rfl
@[simp] theorem State.setFault_cellAt (f : Option (FaultCode × Nat)) (q : Row) (k : Col) :
    (s.setFault f).cellAt q k = s.cellAt q k := rfl
@[simp] theorem State.setFault_byteAt (f : Option (FaultCode × Nat)) (x : Nat) :
    (s.setFault f).byteAt x = s.byteAt x := rfl
@[simp] theorem State.setIntEnable_cellAt (b : Bool) (q : Row) (k : Col) :
    (s.setIntEnable b).cellAt q k = s.cellAt q k := rfl
@[simp] theorem State.setIntEnable_byteAt (b : Bool) (x : Nat) : (s.setIntEnable b).byteAt x = s.byteAt x := rfl
@[simp] theorem State.setSavedIf_cellAt (b : Bool) (q : Row) (k : Col) :
    (s.setSavedIf b).cellAt q k = s.cellAt q k := rfl
@[simp] theorem State.setSavedIf_byteAt (b : Bool) (x : Nat) : (s.setSavedIf b).byteAt x = s.byteAt x := rfl
@[simp] theorem State.setLock_cellAt (l : Lock) (q : Row) (k : Col) : (s.setLock l).cellAt q k = s.cellAt q k := rfl
@[simp] theorem State.setLock_byteAt (l : Lock) (x : Nat) : (s.setLock l).byteAt x = s.byteAt x := rfl
@[simp] theorem State.setTable_cellAt (t : Vector Slot 256) (q : Row) (k : Col) :
    (s.setTable t).cellAt q k = s.cellAt q k := rfl
@[simp] theorem State.setTable_byteAt (t : Vector Slot 256) (x : Nat) : (s.setTable t).byteAt x = s.byteAt x := rfl
@[simp] theorem State.setPic_cellAt (p : Pic) (q : Row) (k : Col) : (s.setPic p).cellAt q k = s.cellAt q k := rfl
@[simp] theorem State.setPic_byteAt (p : Pic) (x : Nat) : (s.setPic p).byteAt x = s.byteAt x := rfl
@[simp] theorem State.setDstate_cellAt (d : DecoderCell) (q : Row) (k : Col) :
    (s.setDstate d).cellAt q k = s.cellAt q k := rfl
@[simp] theorem State.setDstate_byteAt (d : DecoderCell) (x : Nat) : (s.setDstate d).byteAt x = s.byteAt x := rfl
@[simp] theorem State.setSys_cellAt (y : Sys) (q : Row) (k : Col) : (s.setSys y).cellAt q k = s.cellAt q k := rfl
@[simp] theorem State.setSys_byteAt (y : Sys) (x : Nat) : (s.setSys y).byteAt x = s.byteAt x := rfl
@[simp] theorem State.setCtx_cellAt (c : Ctx) (q : Row) (k : Col) : (s.setCtx c).cellAt q k = s.cellAt q k := rfl
@[simp] theorem State.setCtx_byteAt (c : Ctx) (x : Nat) : (s.setCtx c).byteAt x = s.byteAt x := rfl
@[simp] theorem State.setEnv_cellAt (e : List EnvMove) (q : Row) (k : Col) :
    (s.setEnv e).cellAt q k = s.cellAt q k := rfl
@[simp] theorem State.setEnv_byteAt (e : List EnvMove) (x : Nat) : (s.setEnv e).byteAt x = s.byteAt x := rfl
@[simp] theorem State.countKbdRead_cellAt (q : Row) (k : Col) : s.countKbdRead.cellAt q k = s.cellAt q k := rfl
@[simp] theorem State.countKbdRead_byteAt (x : Nat) : s.countKbdRead.byteAt x = s.byteAt x := rfl
@[simp] theorem State.countCtxDraw_cellAt (q : Row) (k : Col) : s.countCtxDraw.cellAt q k = s.cellAt q k := rfl
@[simp] theorem State.countCtxDraw_byteAt (x : Nat) : s.countCtxDraw.byteAt x = s.byteAt x := rfl
@[simp] theorem State.raiseFault_cellAt (code : FaultCode) (q : Row) (k : Col) :
    (s.raiseFault code).cellAt q k = s.cellAt q k := rfl
@[simp] theorem State.raiseFault_byteAt (code : FaultCode) (x : Nat) :
    (s.raiseFault code).byteAt x = s.byteAt x := rfl
@[simp] theorem State.halt_cellAt (cause : HaltCause) (q : Row) (k : Col) :
    (s.halt cause).cellAt q k = s.cellAt q k := rfl
@[simp] theorem State.halt_byteAt (cause : HaltCause) (x : Nat) : (s.halt cause).byteAt x = s.byteAt x := rfl
@[simp] theorem State.becomeStuck_cellAt (reason : StuckReason) (q : Row) (k : Col) :
    (s.becomeStuck reason).cellAt q k = s.cellAt q k := rfl
@[simp] theorem State.becomeStuck_byteAt (reason : StuckReason) (x : Nat) :
    (s.becomeStuck reason).byteAt x = s.byteAt x := rfl
@[simp] theorem State.kbdRead_cellAt (q : Row) (k : Col) : s.kbdRead.2.cellAt q k = s.cellAt q k := rfl
@[simp] theorem State.kbdRead_byteAt (x : Nat) : s.kbdRead.2.byteAt x = s.byteAt x := rfl
@[simp] theorem trapEntry_cellAt (v : Byte) (q : Row) (k : Col) : (trapEntry v s).cellAt q k = s.cellAt q k := rfl
@[simp] theorem trapEntry_byteAt (v : Byte) (x : Nat) : (trapEntry v s).byteAt x = s.byteAt x := rfl
@[simp] theorem leaveHandler_cellAt (q : Row) (k : Col) : (leaveHandler s).cellAt q k = s.cellAt q k := rfl
@[simp] theorem leaveHandler_byteAt (x : Nat) : (leaveHandler s).byteAt x = s.byteAt x := rfl

@[simp] theorem trapReturn_cellAt (b : Bool) (q : Row) (k : Col) : (trapReturn b s).cellAt q k = s.cellAt q k := rfl
@[simp] theorem trapReturn_byteAt (b : Bool) (x : Nat) : (trapReturn b s).byteAt x = s.byteAt x := rfl
@[simp] theorem endOfInterrupt_cellAt (w : Controller) (l : Nat) (q : Row) (k : Col) :
    (endOfInterrupt w l s).cellAt q k = s.cellAt q k := rfl
@[simp] theorem endOfInterrupt_byteAt (w : Controller) (l : Nat) (x : Nat) :
    (endOfInterrupt w l s).byteAt x = s.byteAt x := rfl

end Sys2Proof.Machine
end

