-- ==== Sys2Proof/Laws/Console.lean ====
section
/-! SUPPORT. What the console micro-operations can do (spec/40_console.md R121 to R131): which state they touch, and what
each leaves in the buffer. -/

namespace Sys2Proof.Machine

/-- Everything a console operation may do to the state: it touches the console's own fields and `EV` alone, appends to
`EV`, keeps the memory's canonical form and stays inside the window. -/
structure ConsoleStep (s t : State) : Prop where
  frame : t = { s with
    row := t.row, col := t.col, buf := t.buf, hwcur := t.hwcur, crtcIdx := t.crtcIdx, hist := t.hist }
  history : s.hist <:+ t.hist
  wf : Memory.wf s.buf → Memory.wf t.buf
  window : Memory.inWindow s.par.consoleBase s.buf → Memory.inWindow s.par.consoleBase t.buf
  outside : ∀ a, a < s.par.consoleBase ∨ s.par.consoleBase + 4000 ≤ a → t.byteAt a = s.byteAt a

/-- A console operation that writes no port. -/
structure CellStep (s t : State) : Prop extends ConsoleStep s t where
  hwcur : t.hwcur = s.hwcur
  crtcIdx : t.crtcIdx = s.crtcIdx

namespace ConsoleStep

variable {s t u : State}

theorem refl (s : State) : ConsoleStep s s := ⟨rfl, List.suffix_refl _, id, id, fun _ _ => rfl⟩

theorem par (h : ConsoleStep s t) : t.par = s.par := by rw [h.frame]

theorem color (h : ConsoleStep s t) : t.color = s.color := by rw [h.frame]

theorem trans (h : ConsoleStep s t) (k : ConsoleStep t u) : ConsoleStep s u where
  frame := by rw [k.frame, h.frame]
  history := h.history.trans k.history
  wf := fun w => k.wf (h.wf w)
  window := fun w => by
    have := k.window; rw [h.par] at this; exact this (h.window w)
  outside := fun a ha => by
    have := k.outside a; rw [h.par] at this; rw [this ha, h.outside a ha]

end ConsoleStep

namespace CellStep

variable {s t u : State}

theorem refl (s : State) : CellStep s s := ⟨ConsoleStep.refl s, rfl, rfl⟩

theorem trans (h : CellStep s t) (k : CellStep t u) : CellStep s u :=
  ⟨h.toConsoleStep.trans k.toConsoleStep, k.hwcur.trans h.hwcur, k.crtcIdx.trans h.crtcIdx⟩

/-- A fold of cell steps is a cell step. -/
theorem foldl {α : Type} {f : State → α → State} (hf : ∀ s x, CellStep s (f s x)) (xs : List α) (s : State) :
    CellStep s (xs.foldl f s) := by
  induction xs generalizing s with
  | nil => exact refl s
  | cons x xs ih => exact (hf s x).trans (ih (f s x))

end CellStep

/-! ## Primitives -/

theorem cellStep_setCursor (s : State) (r : Row) (c : CurCol) : CellStep s (s.setCursor r c) :=
  ⟨⟨rfl, List.suffix_refl _, id, id, fun _ _ => rfl⟩, rfl, rfl⟩

theorem cellStep_log (s : State) (e : Event) : CellStep s (s.log e) :=
  ⟨⟨rfl, List.suffix_cons _ _, id, id, fun _ _ => rfl⟩, rfl, rfl⟩

theorem cellStep_cellWrite (s : State) (r : Row) (c : Col) (x : GlyphCell) : CellStep s (s.cellWrite r c x) where
  frame := rfl
  history := List.suffix_cons _ _
  wf := fun h => Memory.writeCell_wf h _ x
  window := fun h => Memory.writeCell_inWindow h r c x
  outside := fun a ha => by
    have hl := cellAddr_lower s.par.consoleBase r c
    have hu := cellAddr_upper s.par.consoleBase r c
    exact Memory.read_writeCell_of_ne _ x (by omega) (by omega)
  hwcur := rfl
  crtcIdx := rfl

/-- Only the two bytes of the cell change (20_memory R63). -/
theorem cellWrite_byteAt (s : State) (r : Row) (c : Col) (x : GlyphCell) {a : Nat}
    (h : a ≠ cellAddr s.par.consoleBase r c) (h' : a ≠ cellAddr s.par.consoleBase r c + 1) :
    (s.cellWrite r c x).byteAt a = s.byteAt a := Memory.read_writeCell_of_ne _ x h h'

/-- A cell written reads back (20_memory R65). -/
theorem cellWrite_cellAt_self {s : State} (h : Memory.wf s.buf) (r : Row) (c : Col) (x : GlyphCell) :
    (s.cellWrite r c x).cellAt r c = x := Memory.readCell_writeCell_self h _ x

/-- Every other cell is as before. -/
theorem cellWrite_cellAt_of_ne (s : State) {r r' : Row} {c c' : Col} (x : GlyphCell) (h : ¬(r' = r ∧ c' = c)) :
    (s.cellWrite r c x).cellAt r' c' = s.cellAt r' c' := Memory.readCell_writeCell_of_ne _ _ x h

/-! ## CLEAR and SCROLL -/

theorem cellStep_clearRowOp (r : Row) (s : State) : CellStep s (clearRowOp r s) :=
  CellStep.foldl (fun s c => cellStep_cellWrite s r c s.blank) allCols s

theorem cellStep_scrollCell (r : Row) (s : State) (c : Col) : CellStep s (scrollCell r s c) :=
  (cellStep_log s (.cellR r c)).trans (cellStep_cellWrite _ _ _ _)

theorem cellStep_scrollRow (s : State) (r : Row) : CellStep s (scrollRow s r) :=
  CellStep.foldl (cellStep_scrollCell r) allCols s

theorem cellStep_scroll (s : State) : CellStep s (scroll s) :=
  (CellStep.foldl cellStep_scrollRow scrollRows s).trans (cellStep_clearRowOp 24 _)

/-- The blank cells of the columns written so far (40_console R126). -/
theorem clearCols_cellAt (r : Row) (cs : List Col) (s : State) (h : Memory.wf s.buf) (r' : Row) (c' : Col) :
    (cs.foldl (fun t c => t.cellWrite r c t.blank) s).cellAt r' c' =
      if r' = r ∧ c' ∈ cs then s.blank else s.cellAt r' c' := by
  induction cs generalizing s with
  | nil => simp
  | cons c cs ih =>
    have step := cellStep_cellWrite s r c s.blank
    have hb : (s.cellWrite r c s.blank).blank = s.blank := rfl
    rw [List.foldl_cons, ih _ (step.wf h), hb]
    by_cases hin : r' = r ∧ c' ∈ cs
    · rw [if_pos hin, if_pos ⟨hin.1, List.mem_cons_of_mem _ hin.2⟩]
    · rw [if_neg hin]
      by_cases hc : r' = r ∧ c' = c
      · obtain ⟨rfl, rfl⟩ := hc
        rw [cellWrite_cellAt_self h, if_pos ⟨rfl, List.mem_cons_self⟩]
      · rw [cellWrite_cellAt_of_ne s _ hc, if_neg]
        rintro ⟨h1, h2⟩
        rcases List.mem_cons.1 h2 with h2 | h2
        · exact hc ⟨h1, h2⟩
        · exact hin ⟨h1, h2⟩

theorem mem_allCols (c : Col) : c ∈ allCols := List.mem_finRange c

/-- `CLEAR(r)`: row `r` is blank, every other row as before (40_console R126). -/
theorem clearRowOp_cellAt (r : Row) {s : State} (h : Memory.wf s.buf) (r' : Row) (c' : Col) :
    (clearRowOp r s).cellAt r' c' = if r' = r then s.blank else s.cellAt r' c' := by
  unfold clearRowOp
  rw [clearCols_cellAt r allCols s h]
  simp [mem_allCols]

/-- The registers `CLEAR` leaves (40_console R126: it writes no register). -/
theorem clearRowOp_cursor (r : Row) (s : State) : (clearRowOp r s).row = s.row ∧ (clearRowOp r s).col = s.col := by
  unfold clearRowOp
  generalize allCols = cs
  induction cs generalizing s with
  | nil => exact ⟨rfl, rfl⟩
  | cons c cs ih => exact ih (s.cellWrite r c s.blank)

theorem rowAbove_ne {r : Row} (h : 3 ≤ r.val) : rowAbove r ≠ r := fun e => by
  have := congrArg Fin.val e; simp only [rowAbove] at this; omega

theorem scrollCell_cellAt {s : State} (h : Memory.wf s.buf) (r : Row) (c : Col) (r' : Row) (c' : Col) :
    (scrollCell r s c).cellAt r' c' = if r' = rowAbove r ∧ c' = c then s.cellAt r c else s.cellAt r' c' := by
  unfold scrollCell
  split
  · rename_i e
    obtain ⟨rfl, rfl⟩ := e
    exact cellWrite_cellAt_self (s := s.log (.cellR r c')) h _ _ _
  · rename_i e
    exact cellWrite_cellAt_of_ne (s.log (.cellR r c)) _ e

theorem scrollCols_cellAt {r : Row} (hr : 3 ≤ r.val) (cs : List Col) (hn : cs.Nodup) (s : State)
    (h : Memory.wf s.buf) (r' : Row) (c' : Col) :
    (cs.foldl (scrollCell r) s).cellAt r' c' =
      if r' = rowAbove r ∧ c' ∈ cs then s.cellAt r c' else s.cellAt r' c' := by
  induction cs generalizing s with
  | nil => simp
  | cons c cs ih =>
    obtain ⟨hc, hn⟩ := List.nodup_cons.1 hn
    have step := cellStep_scrollCell r s c
    rw [List.foldl_cons, ih hn _ (step.wf h), scrollCell_cellAt h, scrollCell_cellAt h]
    have hne := rowAbove_ne hr
    by_cases h1 : r' = rowAbove r
    · subst h1
      by_cases h2 : c' = c
      · subst h2; simp [hc]
      · simp [h2, hne.symm]
    · simp [h1]

theorem allCols_nodup : allCols.Nodup := List.nodup_finRange 80

/-- One row of a scroll: the row above takes this row's cells, every other row is as before (40_console R125). -/
theorem scrollRow_cellAt {r : Row} (hr : 3 ≤ r.val) {s : State} (h : Memory.wf s.buf) (r' : Row) (c' : Col) :
    (scrollRow s r).cellAt r' c' = if r' = rowAbove r then s.cellAt r c' else s.cellAt r' c' := by
  unfold scrollRow
  rw [scrollCols_cellAt hr allCols allCols_nodup s h]
  simp [mem_allCols]

/-- The rows from `k` on, each read after the one above it is done (40_console R125). -/
theorem scrollFrom_cellAt (k : Nat) (hk : 3 ≤ k) (rs : List Row) (hrs : rs = (List.finRange 25).drop k) {s : State}
    (h : Memory.wf s.buf) (r' : Row) (c' : Col) :
    (rs.foldl scrollRow s).cellAt r' c' =
      if hr : k ≤ r'.val + 1 ∧ r'.val < 24 then s.cellAt ⟨r'.val + 1, by omega⟩ c' else s.cellAt r' c' := by
  induction rs generalizing k s with
  | nil =>
    have : 25 ≤ k := by
      have := congrArg List.length hrs; simp at this; omega
    rw [List.foldl_nil, dif_neg (by omega)]
  | cons r rs ih =>
    have hk25 : k < 25 := by
      have := congrArg List.length hrs; simp at this; omega
    have hcons : (List.finRange 25).drop k = ⟨k, hk25⟩ :: (List.finRange 25).drop (k + 1) := by
      rw [List.drop_eq_getElem_cons (by simpa using hk25)]; simp
    rw [hcons] at hrs
    obtain ⟨e0, hrs'⟩ := List.cons.inj hrs
    subst e0
    have hr3 : 3 ≤ (⟨k, hk25⟩ : Row).val := hk
    rw [List.foldl_cons, ih (k + 1) (by omega) hrs' ((cellStep_scrollRow s _).wf h)]
    have key : ∀ q : Row, (scrollRow s ⟨k, hk25⟩).cellAt q c' =
        if q.val = k - 1 then s.cellAt ⟨k, hk25⟩ c' else s.cellAt q c' := fun q => by
      rw [scrollRow_cellAt hr3 h]
      by_cases e : q.val = k - 1
      · rw [if_pos e, if_pos (Fin.ext e)]
      · rw [if_neg e, if_neg (fun e' => e (congrArg Fin.val e'))]
    split
    · rename_i hq
      rw [key, dif_pos ⟨by omega, hq.2⟩, if_neg (by simp only; omega)]
    · rename_i hq
      rw [key]
      by_cases e : r'.val = k - 1
      · have e1 : (⟨r'.val + 1, by have := r'.isLt; omega⟩ : Row) = ⟨k, hk25⟩ := Fin.ext (by simp only; omega)
        rw [if_pos e, dif_pos ⟨by omega, by omega⟩, e1]
      · rw [if_neg e, dif_neg (by omega)]

/-- `SCROLL()` on the buffer (40_console R125): rows 2 to 23 take the row below, row 24 is blank, rows 0 and 1 stay. -/
theorem scroll_cellAt {s : State} (h : Memory.wf s.buf) (r : Row) (c : Col) :
    (scroll s).cellAt r c =
      if r.val = 24 then s.blank
      else if hr : 2 ≤ r.val ∧ r.val < 24 then s.cellAt ⟨r.val + 1, by omega⟩ c else s.cellAt r c := by
  have hs := CellStep.foldl cellStep_scrollRow scrollRows s
  have hb : (scrollRows.foldl scrollRow s).blank = s.blank := by unfold State.blank; rw [hs.color]
  unfold scroll
  rw [clearRowOp_cellAt 24 (hs.wf h), hb, scrollFrom_cellAt 3 (le_refl 3) scrollRows rfl h]
  by_cases e : r.val = 24
  · rw [if_pos e, if_pos (Fin.ext e)]
  · rw [if_neg e, if_neg (fun e' => e (congrArg Fin.val e'))]
    by_cases k : 2 ≤ r.val ∧ r.val < 24
    · rw [dif_pos k, dif_pos ⟨by omega, k.2⟩]
    · rw [dif_neg k, dif_neg (by omega)]

theorem scrollCols_cursor (r : Row) (cs : List Col) (s : State) :
    (cs.foldl (scrollCell r) s).row = s.row ∧ (cs.foldl (scrollCell r) s).col = s.col := by
  induction cs generalizing s with
  | nil => exact ⟨rfl, rfl⟩
  | cons c cs ih => exact ih (scrollCell r s c)

theorem scrollRow_cursor (s : State) (r : Row) : (scrollRow s r).row = s.row ∧ (scrollRow s r).col = s.col := by
  unfold scrollRow
  exact scrollCols_cursor r allCols s

theorem scrollRows_cursor (rs : List Row) (s : State) :
    (rs.foldl scrollRow s).row = s.row ∧ (rs.foldl scrollRow s).col = s.col := by
  induction rs generalizing s with
  | nil => exact ⟨rfl, rfl⟩
  | cons r rs ih =>
    obtain ⟨h1, h2⟩ := ih (scrollRow s r)
    obtain ⟨k1, k2⟩ := scrollRow_cursor s r
    rw [List.foldl_cons]
    exact ⟨h1.trans k1, h2.trans k2⟩

/-- `SCROLL` writes neither `ROW` nor `COL` (40_console R125). -/
theorem scroll_cursor (s : State) : (scroll s).row = s.row ∧ (scroll s).col = s.col := by
  unfold scroll
  rw [(clearRowOp_cursor 24 _).1, (clearRowOp_cursor 24 _).2]
  exact scrollRows_cursor scrollRows s

/-! ## Cursor operations -/

theorem cellStep_newlineOp (s : State) : CellStep s (newlineOp s) := by
  unfold newlineOp
  split
  · exact cellStep_setCursor s _ _
  · exact (cellStep_scroll s).trans (cellStep_setCursor _ _ _)

theorem cellStep_placeAt (g : Byte) (c : Col) (s : State) : CellStep s (placeAt g c s) :=
  (cellStep_cellWrite s _ _ _).trans (cellStep_setCursor _ _ _)

theorem cellStep_place (g : Byte) (s : State) : CellStep s (place g s) := by
  unfold place
  split
  · exact cellStep_placeAt g _ s
  · exact (cellStep_newlineOp s).trans (cellStep_placeAt g _ _)

theorem cellStep_backspaceOp (s : State) : CellStep s (backspaceOp s) := by
  unfold backspaceOp
  split
  · exact CellStep.refl s
  · split <;> exact (cellStep_setCursor s _ _).trans (cellStep_cellWrite _ _ _ _)

theorem cellStep_byteOp (s : State) (b : Byte) : CellStep s (byteOp s b) := by
  unfold byteOp
  split
  · exact cellStep_place b s
  · exact cellStep_newlineOp s
  · exact cellStep_backspaceOp s
  · exact cellStep_place _ s

theorem cellStep_bytesOp (bs : List Byte) (s : State) : CellStep s (bytesOp bs s) :=
  CellStep.foldl cellStep_byteOp bs s

/-- `NEWLINE_OP` above the last row (40_console R124). -/
theorem newlineOp_above {s : State} (h : s.row.val < 24) :
    newlineOp s = s.setCursor ⟨s.row.val + 1, by omega⟩ 0 := by unfold newlineOp; rw [dif_pos h]

/-- `NEWLINE_OP` on the last row (40_console R124). -/
theorem newlineOp_last {s : State} (h : s.row.val = 24) : newlineOp s = (scroll s).setCursor s.row 0 := by
  unfold newlineOp; rw [dif_neg (by omega)]

/-- `NEWLINE_OP` leaves column 0 and never decreases the row (40_console R124, R137). -/
theorem newlineOp_cursor (s : State) : (newlineOp s).col = 0 ∧ s.row ≤ (newlineOp s).row := by
  by_cases h : s.row.val < 24
  · rw [newlineOp_above h, State.setCursor_col, State.setCursor_row, Fin.le_def]
    exact ⟨rfl, Nat.le_succ _⟩
  · have := s.row.isLt
    rw [newlineOp_last (by omega), State.setCursor_col, State.setCursor_row]
    exact ⟨rfl, le_refl _⟩

/-- `PLACE` on a free column (40_console R123). -/
theorem place_free (g : Byte) {s : State} (h : s.col.val < 80) : place g s = placeAt g ⟨s.col.val, h⟩ s := by
  unfold place; rw [dif_pos h]

/-- `PLACE` on a pending wrap: a new line first (40_console R123). -/
theorem place_wrap (g : Byte) {s : State} (h : s.col.val = 80) : place g s = placeAt g 0 (newlineOp s) := by
  unfold place; rw [dif_neg (by omega)]

theorem bytesOp_append (xs ys : List Byte) (s : State) : bytesOp (xs ++ ys) s = bytesOp ys (bytesOp xs s) := by
  unfold bytesOp; rw [List.foldl_append]

/-- The printable filter as four disjoint cases (40_console R121). -/
theorem filterByte_print {b : Byte} (h : 0x20 ≤ b.toNat) (h' : b.toNat ≤ 0x7E) : filterByte b = .print := by
  unfold filterByte Config.printLo Config.printHi
  rw [if_pos ⟨by rw [BitVec.le_def]; exact h, by rw [BitVec.le_def]; exact h'⟩]

theorem filterByte_newline : filterByte Config.newlineByte = .newline := by decide

theorem filterByte_backspace : filterByte Config.backspaceByte = .bs := by decide

theorem filterByte_other {b : Byte} (h : ¬(0x20 ≤ b.toNat ∧ b.toNat ≤ 0x7E)) (hn : b ≠ Config.newlineByte)
    (hb : b ≠ Config.backspaceByte) : filterByte b = .other := by
  unfold filterByte Config.printLo Config.printHi
  rw [if_neg, if_neg hn, if_neg hb]
  rintro ⟨h1, h2⟩
  rw [BitVec.le_def] at h1 h2
  exact h ⟨h1, h2⟩

/-! ## SYNC -/

theorem consoleStep_portWrite (s : State) (p : Word) (v : Byte) : ConsoleStep s (s.portWrite p v) := by
  unfold State.portWrite
  split
  · exact ⟨rfl, List.suffix_cons _ _, id, id, fun _ _ => rfl⟩
  · split <;> exact ⟨rfl, List.suffix_cons _ _, id, id, fun _ _ => rfl⟩

theorem portWrite_hist (s : State) (p : Word) (v : Byte) : (s.portWrite p v).hist = .portW p v :: s.hist := by
  unfold State.portWrite
  split
  · rfl
  · split <;> rfl

theorem consoleStep_sync (s : State) : ConsoleStep s (sync s) :=
  (((consoleStep_portWrite s _ _).trans (consoleStep_portWrite _ _ _)).trans (consoleStep_portWrite _ _ _)).trans
    (consoleStep_portWrite _ _ _)

/-- A word written as its high half after its low half is that word. -/
theorem halves_append (w : Word) : w.extractLsb' 8 8 ++ w.extractLsb' 0 8 = w := by
  apply BitVec.eq_of_getLsbD_eq
  intro i hi
  simp only [BitVec.getLsbD_append, BitVec.getLsbD_extractLsb']
  by_cases h : i < 8
  · simp [h]
  · have : i - 8 < 8 := by omega
    have e : 8 + (i - 8) = i := by omega
    simp [h, this, e]

/-- `SYNC()` as a whole (40_console R128; 20_memory R71): `HWCUR` is the cursor position, `CRTC_IDX` the high index, and
four port writes are recorded, low half first. -/
theorem sync_eq {s : State} (hp : s.par.cursorIndexPort ≠ s.par.cursorDataPort)
    (hi : s.par.cursorLowIndex ≠ s.par.cursorHighIndex) :
    sync s = { s with
      hwcur := cursorPos s.row s.col
      crtcIdx := s.par.cursorHighIndex
      hist := .portW s.par.cursorDataPort ((cursorPos s.row s.col).extractLsb' 8 8) ::
        .portW s.par.cursorIndexPort s.par.cursorHighIndex ::
        .portW s.par.cursorDataPort ((cursorPos s.row s.col).extractLsb' 0 8) ::
        .portW s.par.cursorIndexPort s.par.cursorLowIndex :: s.hist } := by
  have low : (((cursorPos s.row s.col).extractLsb' 8 8) ++
      ((s.hwcur.extractLsb' 8 8 ++ (cursorPos s.row s.col).extractLsb' 0 8).extractLsb' 0 8) : Word) =
      cursorPos s.row s.col := by
    have e : (s.hwcur.extractLsb' 8 8 ++ (cursorPos s.row s.col).extractLsb' 0 8).extractLsb' 0 8 =
        (cursorPos s.row s.col).extractLsb' 0 8 := by
      apply BitVec.eq_of_getLsbD_eq
      intro i h
      simp only [BitVec.getLsbD_extractLsb', BitVec.getLsbD_append]
      simp [h]
    rw [e, halves_append]
  simp only [sync, State.portWrite, if_true, if_neg hp.symm, cursorData, State.log, State.setCrtcIdx, State.setHwcur,
    if_neg hi.symm, low]

theorem consoleStep_strOp (bs : List Byte) (s : State) : ConsoleStep s (strOp bs s) :=
  (cellStep_bytesOp bs s).toConsoleStep.trans (consoleStep_sync _)

end Sys2Proof.Machine
end

