-- ==== Sys2Proof/Laws/Decode.lean ====
section
/-! SUPPORT. The decoder opcode by opcode (spec/30_encoding.md R93, R94, R96), so that no later proof unfolds the chain of
tests. -/

namespace Sys2Proof

theorem decode_writeByte (t : List Byte) : decode (0x01#8 :: t) = decodeB .writeByte t := rfl

theorem decode_writeStr (t : List Byte) : decode (0x02#8 :: t) = decodeS .writeStr t := rfl

theorem decode_backspace (t : List Byte) : decode (0x03#8 :: t) = .ok .backspace t := rfl

theorem decode_newLine (t : List Byte) : decode (0x04#8 :: t) = .ok .newLine t := rfl

theorem decode_clearRow (t : List Byte) : decode (0x05#8 :: t) = decodeB .clearRow t := rfl

theorem decode_install (t : List Byte) : decode (0x81#8 :: t) = .ok .install t := rfl

theorem decode_remap (t : List Byte) : decode (0x82#8 :: t) = decodeP .remap t := rfl

theorem decode_enable (t : List Byte) : decode (0x83#8 :: t) = .ok .enable t := rfl

theorem decode_sectionBegin (t : List Byte) : decode (0x84#8 :: t) = .ok .sectionBegin t := rfl

theorem decode_sectionEnd (t : List Byte) : decode (0x85#8 :: t) = .ok .sectionEnd t := rfl

theorem decode_breakpoint (t : List Byte) : decode (0x86#8 :: t) = .ok .breakpoint t := rfl

/-- The legal opcodes (30_encoding R93, R94). -/
def legalOpcodes : List Byte :=
  [0x01#8, 0x02#8, 0x03#8, 0x04#8, 0x05#8, 0x81#8, 0x82#8, 0x83#8, 0x84#8, 0x85#8, 0x86#8]

/-- Every other opcode is illegal (30_encoding R96). -/
theorem decode_illegal {op : Byte} (h : op ∉ legalOpcodes) (t : List Byte) :
    decode (op :: t) = .reject .illegalOpcode := by
  simp only [legalOpcodes, List.mem_cons, List.not_mem_nil, or_false, not_or] at h
  obtain ⟨h1, h2, h3, h4, h5, h6, h7, h8, h9, h10, h11⟩ := h
  show decodeOpcode op t = _
  unfold decodeOpcode
  rw [if_neg h1, if_neg h2, if_neg h3, if_neg h4, if_neg h5, if_neg h6, if_neg h7, if_neg h8, if_neg h9, if_neg h10,
    if_neg h11]

end Sys2Proof
end

