-- ==== Sys2Proof/Laws/Lock.lean ====
section
/-! SUPPORT. Console operations neither read nor write what is outside the console, so the console lock taken around one
(spec/41_interrupt_control.md R186, R187) has no net effect. -/

namespace Sys2Proof.Machine

/-- The console of `s` in the rest of `o`. -/
def State.graft (s o : State) : State :=
  { o with
    par := s.par, row := s.row, col := s.col, color := s.color, buf := s.buf, hwcur := s.hwcur, crtcIdx := s.crtcIdx
    hist := s.hist }

/-- An operation that neither reads nor writes what is outside the console. -/
def Local (f : State → State) : Prop := ∀ s o, f (s.graft o) = (f s).graft o

theorem Local.comp {f g : State → State} (hf : Local f) (hg : Local g) : Local fun s => g (f s) := fun s o => by
  simp only [hf s o, hg (f s) o]

theorem Local.foldl {α : Type} {f : State → α → State} (hf : ∀ x, Local fun s => f s x) (xs : List α) :
    Local fun s => xs.foldl f s := by
  intro s o
  show xs.foldl f (s.graft o) = (xs.foldl f s).graft o
  induction xs generalizing s with
  | nil => rfl
  | cons x xs ih =>
    have h : f (s.graft o) x = (f s x).graft o := hf x s o
    rw [List.foldl_cons, List.foldl_cons, h]
    exact ih (f s x)

theorem local_clearRowOp (r : Row) : Local (clearRowOp r) :=
  Local.foldl (fun _ _ _ => rfl) allCols

theorem local_scrollRow (r : Row) : Local fun s => scrollRow s r :=
  Local.foldl (fun _ _ _ => rfl) allCols

theorem local_scroll : Local scroll := by
  intro s o
  unfold scroll
  have h : scrollRows.foldl scrollRow (s.graft o) = (scrollRows.foldl scrollRow s).graft o :=
    Local.foldl local_scrollRow scrollRows s o
  rw [h, local_clearRowOp 24 _ o]

theorem setCursor_graft (t s o : State) (c : CurCol) :
    (t.graft o).setCursor (s.graft o).row c = (t.setCursor s.row c).graft o := rfl

theorem local_newlineOp : Local newlineOp := by
  intro s o
  by_cases h : s.row.val < 24
  · rw [newlineOp_above h, newlineOp_above (s := s.graft o) h]; rfl
  · have := s.row.isLt
    have e : s.row.val = 24 := by omega
    rw [newlineOp_last e, newlineOp_last (s := s.graft o) e, local_scroll s o]
    exact setCursor_graft (scroll s) s o 0

theorem local_placeAt (g : Byte) (c : Col) : Local (placeAt g c) := fun _ _ => rfl

theorem local_place (g : Byte) : Local (place g) := by
  intro s o
  by_cases h : s.col.val < 80
  · rw [place_free g h, place_free g (s := s.graft o) h]; rfl
  · have := s.col.isLt
    have e : s.col.val = 80 := by omega
    rw [place_wrap g e, place_wrap g (s := s.graft o) e, local_newlineOp s o, local_placeAt g 0 _ o]

theorem local_backspaceOp : Local backspaceOp := by
  intro s o
  unfold backspaceOp
  by_cases h : s.row.val = 0
  · rw [if_pos h, if_pos (by exact h)]
  · rw [if_neg h, if_neg (by exact h)]
    by_cases k : 1 < s.col.val
    · rw [if_pos k, if_pos (by exact k)]; rfl
    · rw [if_neg k, if_neg (by exact k)]; rfl

theorem local_byteOp (b : Byte) : Local fun s => byteOp s b := by
  intro s o
  show byteOp (s.graft o) b = (byteOp s b).graft o
  unfold byteOp
  cases filterByte b
  · exact local_place b s o
  · exact local_newlineOp s o
  · exact local_backspaceOp s o
  · exact local_place _ s o

theorem local_bytesOp (bs : List Byte) : Local (bytesOp bs) := Local.foldl local_byteOp bs

theorem local_portWrite (p : Word) (v : Byte) : Local fun s => s.portWrite p v := by
  intro s o
  show (s.graft o).portWrite p v = (s.portWrite p v).graft o
  unfold State.portWrite
  by_cases h : p = s.par.cursorIndexPort
  · rw [if_pos h, if_pos (by exact h)]; rfl
  · rw [if_neg h, if_neg (by exact h)]
    by_cases k : p = s.par.cursorDataPort
    · rw [if_pos k, if_pos (by exact k)]; rfl
    · rw [if_neg k, if_neg (by exact k)]; rfl

theorem local_sync : Local sync := by
  intro s o
  unfold sync
  have h := fun p v t => local_portWrite p v t o
  simp only at h
  simp only [h]
  rfl

theorem local_strOp (bs : List Byte) : Local (strOp bs) := (local_bytesOp bs).comp local_sync

/-- A console step keeps what is outside the console. -/
theorem ConsoleStep.graft_eq {s t : State} (h : ConsoleStep s t) : t.graft s = t := by
  conv_rhs => rw [h.frame]
  unfold State.graft
  rw [h.par, h.color]

/-- `NORMAL_CONSOLE` has no net effect on `IF` and `LOCK` (41 R186). -/
theorem normalConsole_eq {f : State → State} (hf : Local f) {s : State} (hs : ConsoleStep s (f s)) (h : s.lock ≠ .irq)
    (n : Nat) : normalConsole (fun t => (f t).advance n) s = (f s).advance n := by
  unfold normalConsole
  split
  · rfl
  · rename_i hn
    have hl : s.lock = .free := by cases hk : s.lock <;> simp_all
    have key : ∀ u : State, u.graft s = u →
        ((((u.graft ((s.setIntEnable false).setLock .normal)).advance n).setLock .free).setIntEnable s.intEnable) =
          u.advance n := fun u hu => by
      conv_rhs => rw [← hu]
      simp only [State.graft, State.advance, State.setLock, State.setIntEnable, hl]
    show (((f (s.graft ((s.setIntEnable false).setLock .normal))).advance n).setLock .free).setIntEnable s.intEnable = _
    rw [hf s _]
    exact key (f s) hs.graft_eq

/-- `IRQ_CONSOLE` on a free lock has no net effect on `LOCK` (41 R187). -/
theorem irqConsole_eq {f : State → State} (hf : Local f) {s : State} (hs : ConsoleStep s (f s)) (h : s.lock = .free) :
    irqConsole f s = .done (f s) := by
  unfold irqConsole
  rw [if_neg (by rw [h]; decide)]
  have e : s.setLock .irq = s.graft (s.setLock .irq) := rfl
  have key : ∀ u : State, u.graft s = u → ((u.graft (s.setLock .irq)).setLock .free) = u := fun u hu => by
    conv_rhs => rw [← hu]
    simp only [State.graft, State.setLock, h]
  rw [e, hf s _]
  exact congrArg Ran.done (key (f s) hs.graft_eq)

/-- `IRQ_CONSOLE` with the lock held by normal mode is a deadlock and makes no console access (41 R187; 60_exceptions
R237). -/
theorem irqConsole_locked {f : State → State} {s : State} (h : s.lock = .normal) :
    irqConsole f s = .stopped (s.becomeStuck .irqDeadlock) := by
  unfold irqConsole; rw [if_pos h]

end Sys2Proof.Machine
end

