-- ==== Sys2Proof/Laws/Exec.lean ====
section
/-! SUPPORT. The meanings of the console commands without the lock around them (spec/40_console.md R130 to R134;
spec/41_interrupt_control.md R186). -/

namespace Sys2Proof.Machine

variable {s : State}

theorem execWriteByte_eq (b : Byte) (h : s.lock ≠ .irq) :
    exec (.writeByte b) s = .next ((byteOp s b).advance 2) :=
  congrArg _ (normalConsole_eq (local_byteOp b) (cellStep_byteOp s b).toConsoleStep h 2)

theorem execWriteStr_eq (bs : List Byte) (h : s.lock ≠ .irq) :
    exec (.writeStr bs) s = .next ((strOp bs s).advance (2 + bs.length)) :=
  congrArg _ (normalConsole_eq (local_strOp bs) (consoleStep_strOp bs s) h _)

theorem execBackspace_eq (h : s.lock ≠ .irq) : exec .backspace s = .next ((backspaceOp s).advance 1) :=
  congrArg _ (normalConsole_eq local_backspaceOp (cellStep_backspaceOp s).toConsoleStep h 1)

theorem execNewLine_eq (h : s.lock ≠ .irq) : exec .newLine s = .next ((newlineOp s).advance 1) :=
  congrArg _ (normalConsole_eq local_newlineOp (cellStep_newlineOp s).toConsoleStep h 1)

theorem rowOperand_row {r : Byte} {q : Row} (h : q.val = r.toNat) : rowOperand r = some q := by
  have := q.isLt
  unfold rowOperand
  rw [dif_pos (by omega)]
  exact congrArg some (Fin.ext h.symm)

theorem execClearRow_eq {r : Byte} {q : Row} (hq : q.val = r.toNat) (h : s.lock ≠ .irq) :
    exec (.clearRow r) s = .next ((clearRowOp q s).advance 2) := by
  show execClearRow r s = _
  unfold execClearRow
  rw [rowOperand_row hq]
  exact congrArg _ (normalConsole_eq (local_clearRowOp q) (cellStep_clearRowOp q s).toConsoleStep h 2)

/-- `CLEAR_ROW` of a row that does not exist (40_console R134). -/
theorem execClearRow_range {r : Byte} (h : 25 ≤ r.toNat) : exec (.clearRow r) s = .next (s.raiseFault .rowRange) := by
  show execClearRow r s = _
  unfold execClearRow rowOperand
  rw [dif_neg (by omega)]

/-- What a console step keeps: everything outside the console. -/
theorem ConsoleStep.kept {s t : State} (h : ConsoleStep s t) :
    t.par = s.par ∧ t.stream = s.stream ∧ t.cmdPc = s.cmdPc ∧ t.fault = s.fault ∧ t.intEnable = s.intEnable ∧
      t.vt = s.vt ∧ t.installed = s.installed ∧ t.pic = s.pic ∧ t.lock = s.lock ∧ t.savedIf = s.savedIf ∧
      t.dstate = s.dstate ∧ t.sys = s.sys ∧ t.ctx = s.ctx ∧ t.env = s.env ∧ t.kbdReads = s.kbdReads ∧
      t.ctxDraws = s.ctxDraws ∧ t.color = s.color := by
  rw [h.frame]
  exact ⟨rfl, rfl, rfl, rfl, rfl, rfl, rfl, rfl, rfl, rfl, rfl, rfl, rfl, rfl, rfl, rfl, rfl⟩

end Sys2Proof.Machine
end

