-- ==== Sys2Proof/Laws/PerInstr.lean ====
section
/-! SUPPORT. One lemma per command about its encoding: the first byte is an opcode of the map, and the encoding is as long
as the command says (spec/30_encoding.md R91, R93, R94). -/

namespace Sys2Proof.Laws.EncodedLength

/-- The encoding is a legal opcode followed by as many bytes as the command's length leaves. -/
def Statement (i : Instr) : Prop :=
  (encode i).length = i.length ∧
    ∃ op rest, encode i = op :: rest ∧ (1 ≤ op.toNat ∧ op.toNat ≤ 5 ∨ 0x81 ≤ op.toNat ∧ op.toNat ≤ 0x86)

theorem writeByte (b : Byte) : Statement (.writeByte b) := ⟨rfl, _, _, rfl, by decide⟩

theorem writeStr (s : List Byte) : Statement (.writeStr s) :=
  ⟨by simp [encode, Instr.length]; omega, _, _, rfl, by decide⟩

theorem backspace : Statement .backspace := ⟨rfl, _, _, rfl, by decide⟩

theorem newLine : Statement .newLine := ⟨rfl, _, _, rfl, by decide⟩

theorem clearRow (r : Byte) : Statement (.clearRow r) := ⟨rfl, _, _, rfl, by decide⟩

theorem install : Statement .install := ⟨rfl, _, _, rfl, by decide⟩

theorem remap (a b : Byte) : Statement (.remap a b) := ⟨rfl, _, _, rfl, by decide⟩

theorem enable : Statement .enable := ⟨rfl, _, _, rfl, by decide⟩

theorem sectionBegin : Statement .sectionBegin := ⟨rfl, _, _, rfl, by decide⟩

theorem sectionEnd : Statement .sectionEnd := ⟨rfl, _, _, rfl, by decide⟩

theorem breakpoint : Statement .breakpoint := ⟨rfl, _, _, rfl, by decide⟩

end Sys2Proof.Laws.EncodedLength
end

