-- ==== Sys2Proof/Laws/Trap.lean ====
section
/-! SUPPORT. What the acknowledgement, the handlers, a trap and a whole step can do (spec/41_interrupt_control.md R189 to
R195; spec/60_exceptions.md R225, R231, R233). -/

namespace Sys2Proof.Machine

/-- Everything a trap may do to the state: it leaves the parameters, the stream, `COLOR`, `cmd_pc`, the table,
`SAVED_IF`, the environment's moves, and of the controller pair everything but `ISR`; it appends to `EV`, keeps the
memory's canonical form and stays inside the window. -/
structure TrapStep (s t : State) : Prop where
  frame : t = { s with
    row := t.row, col := t.col, buf := t.buf, hwcur := t.hwcur, crtcIdx := t.crtcIdx, hist := t.hist
    fault := t.fault, intEnable := t.intEnable, lock := t.lock, dstate := t.dstate, sys := t.sys, ctx := t.ctx
    kbdReads := t.kbdReads, ctxDraws := t.ctxDraws, pic := { s.pic with isr := t.pic.isr } }
  history : s.hist <:+ t.hist
  wf : Memory.wf s.buf → Memory.wf t.buf
  window : Memory.inWindow s.par.consoleBase s.buf → Memory.inWindow s.par.consoleBase t.buf
  outside : ∀ a, a < s.par.consoleBase ∨ s.par.consoleBase + 4000 ≤ a → t.byteAt a = s.byteAt a

namespace TrapStep

variable {s t u : State}

theorem par (h : TrapStep s t) : t.par = s.par := by rw [h.frame]

theorem pic (h : TrapStep s t) : t.pic = { s.pic with isr := t.pic.isr } := by conv_lhs => rw [h.frame]

theorem refl (s : State) : TrapStep s s := ⟨rfl, List.suffix_refl _, id, id, fun _ _ => rfl⟩

theorem trans (h : TrapStep s t) (k : TrapStep t u) : TrapStep s u where
  frame := by rw [k.frame, h.frame]
  history := h.history.trans k.history
  wf := fun w => k.wf (h.wf w)
  window := fun w => by
    have := k.window; rw [h.par] at this; exact this (h.window w)
  outside := fun a ha => by
    have := k.outside a; rw [h.par] at this; rw [this ha, h.outside a ha]

end TrapStep

theorem ConsoleStep.trapStep {s t : State} (h : ConsoleStep s t) : TrapStep s t where
  frame := by rw [h.frame]
  history := h.history
  wf := h.wf
  window := h.window
  outside := h.outside

/-- An operation that ends, done or stopped, in a state a trap may reach. -/
def TrapRun (f : State → Ran) : Prop := ∀ s, TrapStep s (f s).state

theorem TrapRun.andThen {f g : State → Ran} (hf : TrapRun f) (hg : TrapRun g) :
    TrapRun fun s => (f s).andThen g := by
  intro s
  have h := hf s
  show TrapStep s ((f s).andThen g).state
  cases e : f s with
  | done t => rw [e] at h; exact h.trans (hg t)
  | stopped t => rw [e] at h; exact h

theorem trapStep_raiseFault (s : State) (code : FaultCode) : TrapStep s (s.raiseFault code) :=
  ⟨rfl, List.suffix_cons _ _, id, id, fun _ _ => rfl⟩

theorem trapStep_halt (s : State) (cause : HaltCause) : TrapStep s (s.halt cause) :=
  ⟨rfl, List.suffix_cons _ _, id, id, fun _ _ => rfl⟩

theorem trapStep_log (s : State) (e : Event) : TrapStep s (s.log e) := (cellStep_log s e).trapStep

theorem trapStep_becomeStuck (s : State) (r : StuckReason) : TrapStep s (s.becomeStuck r) :=
  ⟨rfl, List.suffix_refl _, id, id, fun _ _ => rfl⟩

theorem trapStep_setLock (s : State) (l : Lock) : TrapStep s (s.setLock l) :=
  ⟨rfl, List.suffix_refl _, id, id, fun _ _ => rfl⟩

theorem trapStep_endOfInterrupt (w : Controller) (l : Nat) (s : State) : TrapStep s (endOfInterrupt w l s) :=
  ⟨rfl, List.suffix_cons _ _, id, id, fun _ _ => rfl⟩

theorem trapRun_checkTop (lines : List Nat) (l : Nat) : TrapRun (checkTop lines l) := by
  intro s
  unfold checkTop
  split
  · exact trapStep_raiseFault s _
  · split
    · exact TrapStep.refl s
    · exact trapStep_raiseFault s _

theorem trapRun_ackLine (w : Controller) (lines : List Nat) (l : Nat) : TrapRun (ackLine w lines l) :=
  (trapRun_checkTop lines l).andThen fun s => trapStep_endOfInterrupt w l s

theorem trapRun_ack (v : Byte) : TrapRun (acknowledge v) := by
  intro s
  unfold acknowledge
  split
  · exact trapStep_raiseFault s _
  · split
    · exact (trapRun_ackLine _ _ _).andThen (trapRun_ackLine _ _ _) s
    · split
      · exact trapRun_ackLine _ _ _ s
      · exact trapStep_raiseFault s _

theorem trapRun_irqConsole {f : State → State} (hf : ∀ s, ConsoleStep s (f s)) : TrapRun (irqConsole f) := by
  intro s
  unfold irqConsole
  split
  · exact trapStep_becomeStuck s _
  · exact ((trapStep_setLock s .irq).trans (hf _).trapStep).trans (trapStep_setLock _ .free)

theorem trapRun_printContext : TrapRun printContext := fun s =>
  TrapStep.trans (s := s) (t := s.countCtxDraw) ⟨rfl, List.suffix_refl _, id, id, fun _ _ => rfl⟩
    (trapRun_irqConsole (consoleStep_strOp (Config.contextText s.ctxDraws)) _)

theorem trapRun_forwardKey (ev : Option KeyEvent) : TrapRun (forwardKey ev) := by
  intro s
  unfold forwardKey
  split
  · exact TrapStep.refl s
  · exact trapRun_irqConsole (consoleStep_strOp _) s

theorem trapRun_keyboardHandler (v : Byte) : TrapRun (keyboardHandler v) := fun s =>
  TrapStep.trans (s := s)
    (t := s.kbdRead.2.setDstate (.ready (Config.decode (decoderStateOf s.dstate) s.kbdRead.1).1))
    ⟨rfl, List.suffix_cons _ _, id, id, fun _ _ => rfl⟩ ((trapRun_forwardKey _).andThen (trapRun_ack v) _)

theorem trapRun_doubleFaultHandler : TrapRun doubleFaultHandler :=
  trapRun_printContext.andThen fun s => trapStep_halt s .doubleFault

theorem trapRun_runHandler (h : Handler) (v : Byte) : TrapRun (runHandler h v) := by
  intro s
  cases h
  · exact trapRun_printContext s
  · exact trapRun_doubleFaultHandler s
  · exact trapRun_ack v s
  · exact trapRun_keyboardHandler v s

theorem trapStep_trapEntry (v : Byte) (s : State) : TrapStep s (trapEntry v s) :=
  ⟨rfl, List.suffix_refl _, id, id, fun _ _ => rfl⟩

theorem trapStep_leaveHandler (s : State) : TrapStep s (leaveHandler s) :=
  ⟨rfl, List.suffix_refl _, id, id, fun _ _ => rfl⟩

theorem trapStep_trapReturn (b : Bool) (s : State) : TrapStep s (trapReturn b s) :=
  ⟨rfl, List.suffix_refl _, id, id, fun _ _ => rfl⟩

theorem trapStep_trapBody (v : Byte) (h : Handler) (s : State) : TrapStep s (trapBody v h s) := by
  have run := (trapStep_trapEntry v s).trans (trapRun_runHandler h v (trapEntry v s))
  unfold trapBody
  cases e : runHandler h v (trapEntry v s) with
  | done t => rw [e] at run; exact run.trans (trapStep_trapReturn _ t)
  | stopped t => rw [e] at run; exact run.trans (trapStep_leaveHandler t)

/-- The context after a trap's handler is `NORMAL`, however the handler ended (10_state R37). -/
theorem trapBody_ctx (v : Byte) (h : Handler) (s : State) : (trapBody v h s).ctx = .normal := by
  unfold trapBody; split <;> rfl

theorem trapStep_emptySlot (s : State) : TrapStep s (emptySlot s) := by
  unfold emptySlot
  split
  · exact trapStep_trapBody _ _ s
  · exact trapStep_raiseFault s _

/-- What a trap can do (60_exceptions R231). -/
theorem trapStep_trap (v : Byte) (s : State) : TrapStep s (trap v s) := by
  unfold trap
  split
  · exact (trapStep_log s _).trans (trapStep_emptySlot _)
  · exact (trapStep_log s _).trans (trapStep_trapBody _ _ _)

/-! ## Exact answers -/

/-- `IRQ_CONSOLE(STR_OP(ctx))` on a free lock (41 R194). -/
theorem printContext_free {s : State} (h : s.lock = .free) :
    printContext s = .done (strOp (Config.contextText s.ctxDraws) s.countCtxDraw) :=
  irqConsole_eq (local_strOp _) (consoleStep_strOp _ _) h

/-- `IRQ_CONSOLE` with the lock held by normal mode (41 R187). -/
theorem printContext_locked {s : State} (h : s.lock = .normal) :
    printContext s = .stopped (s.countCtxDraw.becomeStuck .irqDeadlock) := irqConsole_locked h

/-- `H_DOUBLE_FAULT` on a free lock (41 R195). -/
theorem doubleFaultHandler_free {s : State} (h : s.lock = .free) :
    doubleFaultHandler s =
      .stopped ((strOp (Config.contextText s.ctxDraws) s.countCtxDraw).halt .doubleFault) := by
  unfold doubleFaultHandler; rw [printContext_free h]; rfl

/-- The empty-slot path with a double-fault handler, on a free lock: the text is printed, then the system halts
(60_exceptions R225; 41 R195). -/
theorem emptySlot_doubleFault {s : State} (h : s.lock = .free)
    (hd : s.slotOf s.par.dfVector = .bound .doubleFault true) :
    emptySlot s = leaveHandler
      ((strOp (Config.contextText s.ctxDraws) (trapEntry s.par.dfVector s).countCtxDraw).halt .doubleFault) := by
  unfold emptySlot trapBody
  rw [if_pos hd]
  show (match doubleFaultHandler (trapEntry s.par.dfVector s) with | .done t => _ | .stopped t => _) = _
  rw [doubleFaultHandler_free (s := trapEntry s.par.dfVector s) h]
  rfl

theorem forwardKey_free {s : State} (h : s.lock = .free) (ev : Option KeyEvent) :
    forwardKey ev s = .done (match ev with | none => s | some e => strOp (keyText e) s) := by
  cases ev with
  | none => rfl
  | some e => exact irqConsole_eq (local_strOp _) (consoleStep_strOp _ _) h

/-- `CHECK_TOP` passes on the lowest line in service (41 R189). -/
theorem ackLine_top {w : Controller} {lines : List Nat} {l : Nat} {s : State}
    (h : lines.find? (fun j => s.pic.isr.getLsbD j) = some l) :
    ackLine w lines l s = .done (endOfInterrupt w l s) := by
  unfold ackLine checkTop; rw [h]; simp [Ran.andThen]

theorem ownsVector_iff (base v : Byte) :
    ownsVector base v = true ↔ base.toNat ≤ v.toNat ∧ v.toNat < base.toNat + 8 := by
  simp [ownsVector]

/-- `ACK` of a primary vector (41 R189). -/
theorem ack_primary {s : State} {v : Byte} {l : Nat} (hr : s.pic.remapped = true)
    (h2 : ¬(s.pic.off2.toNat ≤ v.toNat ∧ v.toNat < s.pic.off2.toNat + 8)) (hl : l < 8)
    (hv : v.toNat = s.pic.off1.toNat + l) (top : primaryLines.find? (fun j => s.pic.isr.getLsbD j) = some l) :
    acknowledge v s = .done (endOfInterrupt .primary l s) := by
  have o2 : ¬(ownsVector s.pic.off2 v = true) := fun e => h2 ((ownsVector_iff _ _).1 e)
  have o1 : ownsVector s.pic.off1 v = true := (ownsVector_iff _ _).2 ⟨by omega, by omega⟩
  have e : v.toNat - s.pic.off1.toNat = l := by omega
  unfold acknowledge
  rw [if_neg (by simp [hr]), if_neg o2, if_pos o1, e, ackLine_top top]

/-- `ACK` of a secondary vector: secondary, then the cascade line of the primary (41 R189). -/
theorem ack_secondary {s : State} {v : Byte} {l : Nat} (hr : s.pic.remapped = true) (h8 : 8 ≤ l) (hl : l < 16)
    (hv : v.toNat = s.pic.off2.toNat + (l - 8))
    (top : secondaryLines.find? (fun j => s.pic.isr.getLsbD j) = some l)
    (top' : primaryLines.find? (fun j => (clearBit s.pic.isr l).getLsbD j) = some cascadeLine) :
    acknowledge v s = .done (endOfInterrupt .primary cascadeLine (endOfInterrupt .secondary l s)) := by
  have o2 : ownsVector s.pic.off2 v = true := (ownsVector_iff _ _).2 ⟨by omega, by omega⟩
  have e : 8 + (v.toNat - s.pic.off2.toNat) = l := by omega
  unfold acknowledge
  rw [if_neg (by simp [hr]), if_pos o2, e, ackLine_top top]
  exact ackLine_top top'

theorem setBit_getLsbD (w : Word) (l j : Nat) (h : l < 16) :
    (setBit w l).getLsbD j = (w.getLsbD j || j == l) := by
  simp only [setBit, BitVec.getLsbD_or, BitVec.getLsbD_shiftLeft, BitVec.getLsbD_one]
  by_cases e : j = l
  · subst e; simp [h]
  · by_cases k : j < l
    · simp [k, e]
    · have : ¬(j - l = 0) := by omega
      simp [this, e]

theorem clearBit_getLsbD (w : Word) (l j : Nat) :
    (clearBit w l).getLsbD j = (w.getLsbD j && j != l) := by
  simp only [clearBit, BitVec.getLsbD_and, BitVec.getLsbD_not, BitVec.getLsbD_shiftLeft, BitVec.getLsbD_one]
  by_cases hj : j < 16
  · by_cases e : j = l
    · subst e; simp [hj]
    · by_cases k : j < l
      · simp [k, e, hj]
      · have : ¬(j - l = 0) := by omega
        simp [this, e, hj]
  · rw [BitVec.getLsbD_of_ge w j (by omega)]; simp

/-- `TRAP(v)` to an installed, bound slot (60_exceptions R231). -/
theorem trap_bound {s : State} {v : Byte} {h : Handler} {alt : Bool} (hs : s.slotOf v = .bound h alt) :
    trap v s = trapBody v h (s.log (.deliver v)) := by
  unfold trap; rw [show (s.log (.deliver v)).slotOf v = .bound h alt from hs]

/-- `TRAP(v)` to an empty slot (60_exceptions R225). -/
theorem trap_empty {s : State} {v : Byte} (hs : s.slotOf v = .empty) :
    trap v s = emptySlot (s.log (.deliver v)) := by
  unfold trap; rw [show (s.log (.deliver v)).slotOf v = .empty from hs]

/-- `TIMER_VECTOR` as a number (00_scope R6). -/
theorem timerVector_eq : Config.timerVector = 0x20#8 := rfl

/-- `KBD_VECTOR` as a number (00_scope R6). -/
theorem kbdVector_eq : Config.kbdVector = 0x21#8 := rfl

theorem setSlot_get (t : Vector Slot 256) (v w : Byte) (x : Slot) :
    (setSlot t v x)[w.toNat]'(by have := w.isLt; omega) =
      if v = w then x else t[w.toNat]'(by have := w.isLt; omega) := by
  unfold setSlot
  rw [Vector.getElem_set]
  simp [BitVec.toNat_inj]

/-- The slots of the table that `INSTALL` builds (41 R181). -/
theorem builtTable_slotOf {s : State} (hi : s.installed = true) (ht : s.vt = builtTable s.par) (v : Byte) :
    s.slotOf v =
      if Config.kbdVector = v then .bound .keyboard false
      else if Config.timerVector = v then .bound .timer false
      else if s.par.dfVector = v then .bound .doubleFault true
      else if s.par.bpVector = v then .bound .breakpoint false
      else .empty := by
  unfold State.slotOf
  rw [if_pos hi]
  simp only [ht, builtTable, setSlot_get, Vector.getElem_replicate]

end Sys2Proof.Machine
end

