-- ==== Sys2Proof/Laws/Step.lean ====
section
/-! SUPPORT. What one step can do (spec/41_interrupt_control.md R180). -/

namespace Sys2Proof.Machine

variable {s t : State}

/-- The state once the environment's move for this step is used up. -/
def State.moved (s : State) : State := s.setEnv s.env.tail

@[simp] theorem State.settle_par (s : State) : s.settle.par = s.par := by unfold State.settle; split <;> rfl
@[simp] theorem State.settle_row (s : State) : s.settle.row = s.row := by unfold State.settle; split <;> rfl
@[simp] theorem State.settle_col (s : State) : s.settle.col = s.col := by unfold State.settle; split <;> rfl
@[simp] theorem State.settle_color (s : State) : s.settle.color = s.color := by unfold State.settle; split <;> rfl
@[simp] theorem State.settle_buf (s : State) : s.settle.buf = s.buf := by unfold State.settle; split <;> rfl
@[simp] theorem State.settle_hwcur (s : State) : s.settle.hwcur = s.hwcur := by unfold State.settle; split <;> rfl
@[simp] theorem State.settle_crtcIdx (s : State) : s.settle.crtcIdx = s.crtcIdx := by unfold State.settle; split <;> rfl
@[simp] theorem State.settle_stream (s : State) : s.settle.stream = s.stream := by unfold State.settle; split <;> rfl
@[simp] theorem State.settle_cmdPc (s : State) : s.settle.cmdPc = s.cmdPc := by unfold State.settle; split <;> rfl
@[simp] theorem State.settle_fault (s : State) : s.settle.fault = s.fault := by unfold State.settle; split <;> rfl
@[simp] theorem State.settle_intEnable (s : State) : s.settle.intEnable = s.intEnable := by unfold State.settle; split <;> rfl
@[simp] theorem State.settle_vt (s : State) : s.settle.vt = s.vt := by unfold State.settle; split <;> rfl
@[simp] theorem State.settle_installed (s : State) : s.settle.installed = s.installed := by unfold State.settle; split <;> rfl
@[simp] theorem State.settle_pic (s : State) : s.settle.pic = s.pic := by unfold State.settle; split <;> rfl
@[simp] theorem State.settle_lock (s : State) : s.settle.lock = s.lock := by unfold State.settle; split <;> rfl
@[simp] theorem State.settle_savedIf (s : State) : s.settle.savedIf = s.savedIf := by unfold State.settle; split <;> rfl
@[simp] theorem State.settle_dstate (s : State) : s.settle.dstate = s.dstate := by unfold State.settle; split <;> rfl
@[simp] theorem State.settle_ctx (s : State) : s.settle.ctx = s.ctx := by unfold State.settle; split <;> rfl
@[simp] theorem State.settle_hist (s : State) : s.settle.hist = s.hist := by unfold State.settle; split <;> rfl
@[simp] theorem State.settle_env (s : State) : s.settle.env = s.env := by unfold State.settle; split <;> rfl
@[simp] theorem State.settle_kbdReads (s : State) : s.settle.kbdReads = s.kbdReads := by unfold State.settle; split <;> rfl
@[simp] theorem State.settle_ctxDraws (s : State) : s.settle.ctxDraws = s.ctxDraws := by unfold State.settle; split <;> rfl
@[simp] theorem State.settle_EV (s : State) : s.settle.EV = s.EV := by unfold State.settle; split <;> rfl

/-- Everything the end of the stream can do: make a running system idle (10_state R27). -/
theorem State.settle_cases (s : State) :
    (s.sys = .running ∧ s.stream.length ≤ s.cmdPc ∧ s.settle = s.setSys .idle) ∨
      ((s.sys = .running → s.cmdPc < s.stream.length) ∧ s.settle = s) := by
  unfold State.settle State.exhausted
  by_cases g : s.sys = .running ∧ s.stream.length ≤ s.cmdPc
  · exact .inl ⟨g.1, g.2, if_pos (by simpa using g)⟩
  · exact .inr ⟨fun h => Nat.lt_of_not_le fun x => g ⟨h, x⟩, if_neg (by simpa using g)⟩

theorem State.settle_of_ne {s : State} (h : s.sys ≠ .running) : s.settle = s := if_neg fun g => h g.1

/-- What a command step leaves (41 R180; 10_state R27). -/
inductive CommandStepTo (s m t : State) : Prop
  /-- The system is at the end of its stream: it is idle. -/
  | ended (h : s.sys = .running → s.stream.length ≤ s.cmdPc) (e : t = m.settle)
  /-- A command decodes and runs, and the system is idle if it was the last. -/
  | ran (h : s.sys = .running) (x : s.cmdPc < s.stream.length) (i : Instr) (rest : List Byte)
      (d : decode s.fetchBytes = .ok i rest) (u : State) (r : exec i m = .next u) (e : t = u.settle)
  /-- The bytes raise their model fault. -/
  | rejected (h : s.sys = .running) (x : s.cmdPc < s.stream.length) (code : FaultCode)
      (d : decode s.fetchBytes = .reject code) (e : t = m.raiseFault code)

/-- Every way a step can answer a next state. -/
inductive StepTo (s t : State) : Prop
  /-- A device raises its line in a live or halted system (41 R190). -/
  | raised (f : s.fault = none) (h : s.sys.live = true ∨ ∃ c, s.sys = .halted c) (l : DeviceLine)
      (e : t = raiseLine l s.moved)
  /-- A delivery, or its move passed over (41 R191). -/
  | delivered (f : s.fault = none) (h : s.sys.live = true) (e : t = deliver s.moved)
  /-- A command step. -/
  | command (f : s.fault = none) (h : s.sys.live = true) (c : CommandStepTo s s.moved t)

theorem commandStep_cases {m : State} (hs : m.sys = s.sys) (hp : m.cmdPc = s.cmdPc) (hst : m.stream = s.stream)
    (h : commandStep m = .next t) : CommandStepTo s m t := by
  have hf : m.fetchBytes = s.fetchBytes := by unfold State.fetchBytes; rw [hp, hst]
  simp only [commandStep, State.exhausted, hs, hp, hst] at h
  split at h
  · rename_i g
    have x : s.cmdPc < s.stream.length := by simpa using g.2
    unfold runCommand at h
    rw [hf] at h
    split at h
    · rename_i i rest d
      cases r : exec i m with
      | next u => rw [r] at h; exact .ran g.1 x i rest d u r (by cases h; rfl)
      | fault f => rw [r] at h; cases h
      | refused f => rw [r] at h; cases h
    · rename_i code d
      refine .rejected g.1 x code d ?_
      have e : (m.raiseFault code).settle = m.raiseFault code := State.settle_of_ne nofun
      simp only [settled, e] at h
      cases h; rfl
  · rename_i g
    exact .ended (fun r => by simpa [r] using g) (by cases h; rfl)

theorem liveStep_cases (f : s.fault = none) (live : s.sys.live = true) (h : liveStep s = .next t) : StepTo s t := by
  unfold liveStep at h
  split at h
  · rename_i e
    have hm : s.moved = s := by unfold State.moved State.setEnv; rw [e, List.tail_nil, ← e]
    have c := commandStep_cases (s := s) (m := s) rfl rfl rfl h
    exact .command f live (by rw [hm]; exact c)
  · rename_i moves e
    have hm : s.moved = s.setEnv moves := by unfold State.moved; rw [e, List.tail_cons]
    have c := commandStep_cases (s := s) (m := s.setEnv moves) rfl rfl rfl h
    exact .command f live (by rw [hm]; exact c)
  · rename_i l moves e
    have hm : s.moved = s.setEnv moves := by unfold State.moved; rw [e, List.tail_cons]
    exact .raised f (.inl live) l (by cases h; rw [hm])
  · rename_i moves e
    have hm : s.moved = s.setEnv moves := by unfold State.moved; rw [e, List.tail_cons]
    exact .delivered f live (by cases h; rw [hm])

/-- The inversion of `step`: later proofs take a step apart through this lemma alone. -/
theorem step_cases (h : step s = .next t) : StepTo s t := by
  unfold step systemStep at h
  split at h
  · cases h
  · rename_i nf
    have f : s.fault = none := by simpa using nf
    split at h
    · rename_i e; exact liveStep_cases f (by rw [e]; rfl) h
    · rename_i e; exact liveStep_cases f (by rw [e]; rfl) h
    · rename_i c e
      unfold haltedStep at h
      split at h
      · rename_i l moves em
        have hm : s.moved = s.setEnv moves := by unfold State.moved; rw [em, List.tail_cons]
        exact .raised f (.inr ⟨c, e⟩) l (by cases h; rw [hm])
      · cases h
    · cases h
    · cases h

/-- The inversion of `DELIVER`: passed over, or a deliverable line taken and its vector trapped to (41 R191). -/
theorem deliver_cases (s : State) :
    deliver s = s ∨ ∃ l, s.sys.live = true ∧ s.fault = none ∧ s.intEnable = true ∧ s.ctx = .normal ∧
      firstDeliverable s.pic = some l ∧ deliver s = trap (vectorOf s.pic l) (s.setPic (takeLine s.pic l)) := by
  unfold deliver deliverLine
  by_cases g : s.sys.live = true ∧ s.fault = none ∧ s.intEnable = true ∧ s.ctx = .normal
  · rw [if_pos g]
    cases e : firstDeliverable s.pic with
    | none => exact .inl rfl
    | some l => exact .inr ⟨l, g.1, g.2.1, g.2.2.1, g.2.2.2, rfl, rfl⟩
  · rw [if_neg g]; exact .inl rfl

end Sys2Proof.Machine
end

