-- ==== Sys2Proof/Tests/Slice0.lean ====
section
/-! SUPPORT. Tests of one step each, expected results from spec/95_test_vectors.md or the rule named; and, for every
statement with hypotheses, a state and operands that meet them together. -/

namespace Sys2Proof.Tests

open Machine

/-! ## Helpers -/

/-- Right after reset, the cursor at `(r, c)`, the stream `bytes`. -/
def start (r : Row) (c : CurCol) (bytes : List Byte) : State :=
  { State.resetWith Params.default ResetDraws.zero bytes [] with row := r, col := c }

/-- After the stream `82 20 28 81 83` has run (95_test_vectors, part L2, section 10), with `bytes` to come. -/
def booted (bytes : List Byte) (env : List EnvMove) : State :=
  { State.resetWith Params.default ResetDraws.zero bytes env with
    installed := true, vt := builtTable Params.default, intEnable := true
    pic := { remapped := true, off1 := 0x20#8, off2 := 0x28#8, mask := 0#16, irr := 0#16, isr := 0#16 } }

/-- `booted` with lines pending. -/
def pending (irr : Word) (env : List EnvMove) (bytes : List Byte := []) : State :=
  { booted bytes env with pic := { (booted bytes env).pic with irr := irr } }

/-- `booted` with an explicit section open. -/
def inSection (bytes : List Byte) : State :=
  { booted bytes [] with intEnable := false, savedIf := true, lock := .normal }

/-- A controller pair with the bases 0x20 and 0x28 and given lines in service. -/
def serving (isr : Word) : State := { pending 0#16 [] with pic := { (pending 0#16 []).pic with isr := isr } }

/-- Look at a step's next state. -/
def after {α : Type} (s : State) (look : State → α) : Option α :=
  match step s with
  | .next t => some (look t)
  | _ => none

/-! ## WellFormed: each check refuses a term that breaks it alone -/

theorem test_wellFormed_payload_255 : (Instr.writeStr (List.replicate 255 0x41#8)).wellFormed = true := by
  decide +kernel

theorem test_wellFormed_payload_256 : (Instr.writeStr (List.replicate 256 0x41#8)).wellFormed = false := by
  decide +kernel

theorem test_wellFormed_row : (Instr.clearRow 24#8).wellFormed = true ∧ (Instr.clearRow 25#8).wellFormed = false := by
  decide

/-! ## Decode: every constructor from a word written out from 30_encoding R93, R94 -/

theorem test_decode_writeByte : decode [0b00000001#8, 0b01000001#8] = .ok (.writeByte 0x41#8) [] := by decide

theorem test_decode_writeStr :
    decode [0b00000010#8, 2#8, 0x48#8, 0x69#8, 0x03#8] = .ok (.writeStr [0x48#8, 0x69#8]) [0x03#8] := by decide

theorem test_decode_backspace : decode [0b00000011#8] = .ok .backspace [] := by decide

theorem test_decode_newLine : decode [0b00000100#8] = .ok .newLine [] := by decide

theorem test_decode_clearRow : decode [0b00000101#8, 0b00011000#8] = .ok (.clearRow 24#8) [] := by decide

theorem test_decode_install : decode [0b10000001#8] = .ok .install [] := by decide

theorem test_decode_remap :
    decode [0b10000010#8, 0b00100000#8, 0b00101000#8] = .ok (.remap 0x20#8 0x28#8) [] := by decide

theorem test_decode_enable : decode [0b10000011#8] = .ok .enable [] := by decide

theorem test_decode_sectionBegin : decode [0b10000100#8] = .ok .sectionBegin [] := by decide

theorem test_decode_sectionEnd : decode [0b10000101#8] = .ok .sectionEnd [] := by decide

theorem test_decode_breakpoint : decode [0b10000110#8] = .ok .breakpoint [] := by decide

/-- DF1 to DF10: opcode legality before length, length before operand range (30_encoding R96 to R98). -/
theorem test_decode_rejects :
    ([0x00#8, 0x06#8, 0x80#8, 0x87#8, 0xFF#8].map fun op => decode [op, 0x01#8]) =
        List.replicate 5 (.reject .illegalOpcode) ∧
      ([[0x01#8], [0x02#8], [0x02#8, 0x05#8, 0x41#8], [0x05#8], [0x82#8, 0x20#8]].map decode) =
        List.replicate 5 (.reject .truncated) := by decide

theorem test_tableWord :
    decodeTableWord 16 0x4101 = some (.writeByte 0x41#8) ∧ decodeTableWord 16 0x0002 = some (.writeStr []) ∧
      decodeTableWord 24 0x282082 = some (.remap 0x20#8 0x28#8) ∧ decodeTableWord 8 0x06 = none := by decide +kernel

theorem test_withFetchWord :
    after (State.reset.withFetchWord 24 0x282082) (fun t => (t.pic.off1, t.pic.off2, t.cmdPc)) =
      some (0x20#8, 0x28#8, 3) := by decide +kernel

/-- The examples of 30_encoding R100. -/
theorem test_assemble :
    (assembleLine "WRITE_BYTE 'A'".toList).map (List.flatMap encode) = some [0x01#8, 0x41#8] ∧
      (assembleLine "WRITE_STR \"Hi\"".toList).map (List.flatMap encode) = some [0x02#8, 0x02#8, 0x48#8, 0x69#8] ∧
      (assembleLine "CLEAR_ROW 24".toList).map (List.flatMap encode) = some [0x05#8, 0x18#8] ∧
      (assembleLine "REMAP 0x20, 0x28".toList).map (List.flatMap encode) = some [0x82#8, 0x20#8, 0x28#8] := by
  decide +kernel

/-- The escapes of 30_encoding R100, and R101: the newline is part of the string. -/
theorem test_assemble_escapes :
    assembleLine "PRINTLN \"B\\n\\b\\xC3\"".toList =
      some [.writeStr [0x42#8, 0x0A#8, 0x08#8, 0xC3#8, 0x0A#8]] := by decide +kernel

/-! ## One step of each command -/

theorem test_WB3 : after (start 3 80 [0x01#8, 0x43#8]) (fun t => (t.row, t.col, t.EV)) =
    some (4, 1, [.cellW 4 0 0x43#8 0x0E#8]) := by decide +kernel

theorem test_WB7 : after (start 5 5 [0x01#8, 0x7F#8]) (fun t => (t.col, t.cellAt 5 5)) =
    some (6, ⟨0xFE#8, 0x0E#8⟩) := by decide +kernel

theorem test_WS6 : after (start 5 0 [0x02#8, 0x03#8, 0x41#8, 0x08#8, 0x42#8]) (fun t => (t.row, t.col, t.EV.take 3)) =
    some (4, 80, [.cellW 5 0 0x41#8 0x0E#8, .cellW 4 79 0x20#8 0x0E#8, .cellW 4 79 0x42#8 0x0E#8]) := by decide +kernel

theorem test_WS2 : after (start 10 5 [0x02#8, 0x00#8]) (fun t => (t.hwcur, t.crtcIdx, t.EV)) =
    some (0x325#16, 0x0E#8, [.portW 0x3D4#16 0x0F#8, .portW 0x3D5#16 0x25#8, .portW 0x3D4#16 0x0E#8,
      .portW 0x3D5#16 0x03#8]) := by decide +kernel

theorem test_BS5 : after (start 5 1 [0x03#8]) (fun t => (t.row, t.col, t.EV)) =
    some (4, 79, [.cellW 4 79 0x20#8 0x0E#8]) := by decide +kernel

theorem test_BS2 : after (start 0 80 [0x03#8]) (fun t => (t.row, t.col, t.EV)) = some (0, 80, []) := by decide +kernel

theorem test_NL3 : after (start 23 80 [0x04#8]) (fun t => (t.row, t.col, t.EV)) = some (24, 0, []) := by decide +kernel

/-- The first row of NL4's scroll (part L2, section 6): row 3 is copied to row 2, in 80 pairs of a read and a write. -/
theorem test_NL4_row :
    (fun t : State => (t.cellAt 1 0, t.cellAt 2 0, t.EV.take 2, t.EV.length))
      (scrollRow { start 24 0 [] with buf := [(0xB8000 + 160, 0x31#8), (0xB8000 + 480, 0x33#8)] } 3) =
    (⟨0x31#8, 0x00#8⟩, ⟨0x33#8, 0x00#8⟩, [.cellR 3 0, .cellW 2 0 0x33#8 0x00#8], 160) := by decide +kernel

theorem test_CR1 : after (start 10 4 [0x05#8, 0x18#8]) (fun t => (t.row, t.col, t.cellAt 24 79, t.EV.length)) =
    some (10, 4, ⟨0x20#8, 0x0E#8⟩, 80) := by decide +kernel

theorem test_CR4 : after (start 10 4 [0x05#8, 0x19#8]) (fun t => (t.fault, t.sys, t.EV)) =
    some (some (.rowRange, 0), .faulted, [.fault .rowRange]) := by decide +kernel

theorem test_IC1 :
    after (start 0 0 [0x81#8])
      (fun t => ([0x03#8, 0x08#8, 0x20#8, 0x21#8, 0x28#8].map t.slotOf, t.installed)) =
    some ([.bound .breakpoint false, .bound .doubleFault true, .bound .timer false, .bound .keyboard false, .empty],
      true) := by decide +kernel

theorem test_IC2 : after { start 0 0 [0x81#8, 0x81#8] with installed := true, cmdPc := 1 } (fun t => t.fault) =
    some (some (.reinstall, 1)) := by decide +kernel

theorem test_IC6 : after (start 0 0 [0x82#8, 0x21#8, 0x28#8]) (fun t => (t.sys, t.EV)) =
    some (.halted .malformedRemap, [.halt .malformedRemap]) := by decide +kernel

theorem test_IC4 : after (start 0 0 [0x82#8, 0x20#8, 0x20#8]) (fun t => t.sys) = some (.halted .malformedRemap) := by
  decide +kernel

theorem test_IC8 : after (start 0 0 [0x83#8]) (fun t => t.fault) = some (some (.enableOrder, 0)) := by decide +kernel

theorem test_IC13 : after (inSection [0x83#8]) (fun t => (t.fault, t.intEnable, t.lock)) =
    some (some (.enableInSection, 0), false, .normal) := by decide +kernel

theorem test_IC15_begin : after (booted [0x84#8] []) (fun t => (t.savedIf, t.intEnable, t.lock)) =
    some (true, false, .normal) := by decide +kernel

theorem test_IC17 : after (inSection [0x84#8]) (fun t => (t.sys, t.cmdPc, t.EV)) =
    some (.stuck .selfDeadlock, 0, []) := by decide +kernel

theorem test_IC15_end : after (inSection [0x85#8]) (fun t => (t.intEnable, t.lock)) = some (true, .free) := by
  decide +kernel

theorem test_IC16 : after (start 0 0 [0x85#8]) (fun t => t.fault) = some (some (.sectionUnbalanced, 0)) := by
  decide +kernel

theorem test_IC19 : after (start 0 0 [0x86#8]) (fun t => (t.cmdPc, t.fault, t.EV)) =
    some (1, some (.unmodelledTriple, 1), [.deliver 3#8, .fault .unmodelledTriple]) := by decide +kernel

/-- With 10_state R37: the context between steps is `NORMAL`, after a handler that sticks too. -/
theorem test_IC20 : after (inSection [0x86#8]) (fun t => (t.cmdPc, t.sys, t.EV, t.ctx, t.intEnable)) =
    some (1, .stuck .irqDeadlock, [.deliver 3#8], .normal, false) := by decide +kernel

/-- 00_scope R6. -/
theorem test_vectors :
    (Config.pic1Offset, Config.pic2Offset, Config.timerVector, Config.kbdVector) = (0x20#8, 0x28#8, 0x20#8, 0x21#8) := by
  decide

/-! ## Events and acknowledgement -/

theorem test_T1 : after (pending 1#16 [.deliver]) (fun t => (t.EV, t.pic.irr, t.pic.isr, t.intEnable)) =
    some ([.deliver 0x20#8, .eoi .primary], 0#16, 0#16, true) := by decide +kernel

theorem test_T3 : after (pending 3#16 [.deliver]) (fun t => (t.EV, t.pic.irr)) =
    some ([.deliver 0x20#8, .eoi .primary], 2#16) := by decide +kernel

theorem test_A1_A2_A3_A4 :
    (acknowledge 0x20#8 State.reset).state.fault = some (.ackBeforeRemap, 0) ∧
      (acknowledge 0x20#8 (serving 0#16)).state.fault = some (.ackDuplicate, 0) ∧
      (acknowledge 0x50#8 (serving 0#16)).state.fault = some (.ackUnowned, 0) ∧
      (acknowledge 0x21#8 (serving 1#16)).state.fault = some (.ackMismatch, 0) := by decide +kernel

theorem test_A5_A6 :
    (acknowledge 0x2A#8 (serving 0x404#16)).state.EV = [.eoi .secondary, .eoi .primary] ∧
      (acknowledge 0x2A#8 (serving 0x404#16)).state.pic.isr = 0#16 ∧
      (acknowledge 0x21#8 (serving 2#16)).state.EV = [.eoi .primary] ∧
      (acknowledge 0x21#8 (serving 2#16)).state.pic.isr = 0#16 := by decide +kernel

/-- 41 R189 for the secondary: nothing in service there, another line lowest, and a primary whose lowest line is 1. -/
theorem test_ack_secondary :
    (acknowledge 0x2A#8 (serving 4#16)).state.EV = [.fault .ackDuplicate] ∧
      (acknowledge 0x2A#8 (serving 0x604#16)).state.EV = [.fault .ackMismatch] ∧
      (acknowledge 0x2A#8 (serving 0x406#16)).state.EV = [.eoi .secondary, .fault .ackMismatch] ∧
      (acknowledge 0x2A#8 (serving 0x406#16)).state.pic.isr = 6#16 := by decide +kernel

/-- P5: after the fault the `B` is never written. -/
theorem test_P5 : step { start 0 1 [] with sys := .faulted, fault := some (.rowRange, 2) } = .fault .faulted := rfl

/-- DF13: idle with no step. -/
theorem test_DF13 : State.reset.sys = .idle ∧ State.reset.EV = [] := by decide

/-- IC14's stream: running after its first command, idle in the step of its last (10_state R27). -/
theorem test_IC14 :
    after (start 0 0 [0x84#8, 0x85#8]) (fun t => (t.sys, t.lock)) = some (.running, .normal) ∧
      after { start 0 0 [0x84#8, 0x85#8] with cmdPc := 1, lock := .normal } (fun t => (t.sys, t.lock, t.cmdPc)) =
        some (.idle, .free, 2) := by decide +kernel

/-! ## A witness for the hypotheses of each statement -/

theorem default_ok : Params.default.Ok where
  base_even := by decide
  ports_distinct := by decide
  indices_distinct := by decide
  vectors_distinct := by decide
  bp_reserved := by decide
  df_reserved := by decide

/-- Lines 0 and 1 pending at most, in any live booted state. -/
theorem pending_inv (irr : Word) (h : ∀ l, 2 ≤ l → irr.getLsbD l = false) (env : List EnvMove)
    (bytes : List Byte := []) : (pending irr env bytes).Inv where
  params := default_ok
  buf_wf := ⟨.nil, fun _ h => nomatch h⟩
  buf_window := fun _ h => nomatch h
  pc_in_stream := Nat.zero_le _
  fault_iff := ⟨fun h => (nomatch h), fun h => by cases bytes <;> cases h⟩
  running_pc := fun h => by cases bytes with
    | nil => cases h
    | cons b bs => exact Nat.succ_pos _
  idle_pc := fun h => by cases bytes with
    | nil => rfl
    | cons b bs => cases h
  ctx_normal := rfl
  lock_not_irq := fun h => nomatch h
  locked_masked := fun h => nomatch h
  enabled_booted := fun _ => ⟨rfl, rfl⟩
  table_built := fun _ => rfl
  table_empty := fun h => nomatch h
  offsets_valid := fun _ => by show remapValid 0x20#8 0x28#8 = true; decide
  none_in_service := fun _ => rfl
  device_lines := h

theorem three_lines (w : Word) (h : w = 0#16 ∨ w = 2#16 ∨ w = 3#16) : ∀ l, 2 ≤ l → w.getLsbD l = false := by
  intro l hl
  by_cases k : l < 16
  · have all : ∀ j : Fin 16, 2 ≤ j.val →
        (0#16).getLsbD j.val = false ∧ (2#16).getLsbD j.val = false ∧ (3#16).getLsbD j.val = false := by decide
    rcases h with rfl | rfl | rfl
    · exact (all ⟨l, k⟩ hl).1
    · exact (all ⟨l, k⟩ hl).2.1
    · exact (all ⟨l, k⟩ hl).2.2
  · exact BitVec.getLsbD_of_ge w l (by omega)

theorem witness_DecodeOfEncodeIsTheCommand :
    (Instr.writeStr (List.replicate 255 0x41#8)).payloadFits = true ∧ (Instr.clearRow 0xFF#8).payloadFits = true := by
  decide +kernel

theorem witness_EncodeOfDecodeIsTheBytes : decode [0x02#8, 0x01#8, 0x41#8, 0x03#8] = .ok (.writeStr [0x41#8]) [0x03#8] := by
  decide

theorem witness_StepRunsTheDecodedCommand :
    (booted [0x04#8] [.command]).RunsCommandNext ∧ decode (booted [0x04#8] [.command]).fetchBytes = .ok .newLine [] :=
  ⟨⟨rfl, rfl, .inr ⟨[], rfl⟩⟩, rfl⟩

/-- 0x05, 0x81 and 0x86 are legal; 0x06, 0x80 and 0x87 are not (test_decode_rejects). -/
theorem witness_IllegalOpcodeFaults :
    (start 0 0 [0x87#8]).RunsCommandNext ∧ (start 0 0 [0x87#8]).fetchBytes = [0x87#8] ∧
      decode [0x87#8] = .reject .illegalOpcode ∧ decode [0x05#8] ≠ .reject .illegalOpcode ∧
      decode [0x81#8] ≠ .reject .illegalOpcode ∧ decode [0x86#8] ≠ .reject .illegalOpcode :=
  ⟨⟨rfl, rfl, .inl rfl⟩, rfl, by decide, by decide, by decide, by decide⟩

/-- One byte short in each format. -/
theorem witness_TruncatedCommandFaults :
    (start 0 0 [0x02#8, 0x02#8, 0x41#8]).RunsCommandNext ∧
      (start 0 0 [0x02#8, 0x02#8, 0x41#8]).fetchBytes = 0x02#8 :: 0x02#8 :: [0x41#8] ∧ [0x41#8].length < (0x02#8).toNat ∧
      (start 0 0 [0x82#8, 0x20#8]).RunsCommandNext ∧ (start 0 0 [0x82#8, 0x20#8]).fetchBytes = 0x82#8 :: [0x20#8] ∧
      (start 0 0 [0x05#8]).RunsCommandNext ∧ (start 0 0 [0x05#8]).fetchBytes = [0x05#8] ∧
      (start 0 0 [0x01#8]).RunsCommandNext ∧ (start 0 0 [0x01#8]).fetchBytes = [0x01#8] ∧
      (start 0 0 [0x02#8]).RunsCommandNext ∧ (start 0 0 [0x02#8]).fetchBytes = [0x02#8] :=
  ⟨⟨rfl, rfl, .inl rfl⟩, rfl, by decide, ⟨rfl, rfl, .inl rfl⟩, rfl, ⟨rfl, rfl, .inl rfl⟩, rfl, ⟨rfl, rfl, .inl rfl⟩, rfl,
    ⟨rfl, rfl, .inl rfl⟩, rfl⟩

/-- The last command of a stream, one before the last, and a last one that faults. -/
theorem witness_ExhaustedStreamMakesIdle :
    ((start 3 3 [0x04#8]).RunsCommandNext ∧ decode (start 3 3 [0x04#8]).fetchBytes = .ok .newLine [] ∧
      ∃ u, exec .newLine (start 3 3 [0x04#8]).afterMove = .next u ∧ u.sys = .running ∧ u.cmdPc = u.stream.length ∧
        u.lock = .free) ∧
    ((start 3 3 [0x04#8, 0x04#8]).RunsCommandNext ∧
      decode (start 3 3 [0x04#8, 0x04#8]).fetchBytes = .ok .newLine [0x04#8] ∧
      ∃ u, exec .newLine (start 3 3 [0x04#8, 0x04#8]).afterMove = .next u ∧ u.cmdPc < u.stream.length) ∧
    ((start 3 3 [0x85#8]).RunsCommandNext ∧ decode (start 3 3 [0x85#8]).fetchBytes = .ok .sectionEnd [] ∧
      ∃ u, exec .sectionEnd (start 3 3 [0x85#8]).afterMove = .next u ∧ u.sys ≠ .running) :=
  ⟨⟨⟨rfl, rfl, .inl rfl⟩, rfl, _, rfl, rfl, rfl, rfl⟩, ⟨⟨rfl, rfl, .inl rfl⟩, rfl, _, rfl, by decide⟩,
    ⟨rfl, rfl, .inl rfl⟩, rfl, _, rfl, by decide⟩

theorem witness_StoppedSystemTakesNoStep :
    { start 0 0 [] with fault := some (.rowRange, 2) }.fault ≠ none ∧
      { start 0 0 [] with sys := .stuck .irqDeadlock }.sys = .stuck .irqDeadlock ∧
      { start 0 0 [] with sys := .stuck .irqDeadlock }.fault = none ∧
      { start 0 0 [] with sys := .halted .doubleFault, env := [.deliver] }.sys = .halted .doubleFault ∧
      ∀ l moves, { start 0 0 [] with sys := .halted .doubleFault, env := [.deliver] }.env ≠ .raise l :: moves :=
  ⟨by decide, rfl, rfl, rfl, fun _ _ h => nomatch h⟩

/-- The first and the last byte of the window hold a value. -/
theorem witness_ResetMeetsTheInvariant :
    Params.default.Ok ∧ Memory.wf [(0xB8000, 0x41#8), (0xB8F9F, 0x0E#8)] ∧
      Memory.inWindow Params.default.consoleBase [(0xB8000, 0x41#8), (0xB8F9F, 0x0E#8)] :=
  ⟨default_ok, by decide, by decide⟩

theorem witness_StepKeepsTheInvariant :
    (pending 3#16 [.deliver]).Inv ∧ ∃ t, step (pending 3#16 [.deliver]) = .next t :=
  ⟨pending_inv _ (three_lines _ (.inr (.inr rfl))) _, _, rfl⟩

theorem witness_StepKeepsTheConstants : ∃ t, step (start 0 0 [0x01#8, 0x41#8]) = .next t := ⟨_, rfl⟩

theorem witness_InstalledTableIsImmutable :
    (booted [0x83#8] []).installed = true ∧ ∃ t, step (booted [0x83#8] []) = .next t := ⟨rfl, _, rfl⟩

theorem witness_HistoryOnlyGrows : ∃ t, step (start 5 10 [0x03#8]) = .next t := ⟨_, rfl⟩

theorem witness_HistoryAccountsForEveryWrite : ∃ t, step (start 24 80 [0x02#8, 0x00#8]) = .next t := ⟨_, rfl⟩

/-- The last byte below the window and the first above it. -/
theorem witness_BytesOutsideTheWindowNeverChange :
    (∃ t, step (start 24 79 [0x01#8, 0x41#8]) = .next t) ∧ 0xB7FFF < (start 24 79 []).par.consoleBase ∧
      (start 24 79 []).par.consoleBase + 4000 ≤ 0xB8FA0 := ⟨⟨_, rfl⟩, by decide, by decide⟩

theorem witness_NoAcknowledgeFaultIsReachable :
    (pending 0#16 [] [0x00#8]).Inv ∧
      ∃ t, step (pending 0#16 [] [0x00#8]) = .next t ∧ t.fault = some (.illegalOpcode, 0) :=
  ⟨pending_inv _ (three_lines _ (.inl rfl)) _ _, _, rfl, rfl⟩

theorem witness_ConsoleIgnoresTheDispatchBlock :
    consoleCommand .newLine = true ∧ (start 0 0 []).SameConsole { booted [] [] with row := 0 } ∧
      ∃ t, exec .newLine (start 0 0 []) = .next t := ⟨rfl, ⟨rfl, rfl, rfl, rfl, rfl, rfl, rfl⟩, _, rfl⟩

/-- The first and the last free column. -/
theorem witness_WriteByteAtAFreeColumn :
    (start 24 79 []).lock ≠ .irq ∧ Memory.wf (start 24 79 []).buf ∧ (start 24 79 []).col.val = (79 : Col).val ∧
      (start 24 0 []).col.val = (0 : Col).val ∧ (0x7F#8 : Byte) ≠ 0x0A#8 ∧ (0x7F#8 : Byte) ≠ 0x08#8 := by decide

theorem witness_PendingWrapForcesANewLineFirst :
    (start 24 80 []).lock ≠ .irq ∧ (start 24 80 []).col = 80 ∧ (0xFF#8 : Byte) ≠ 0x0A#8 ∧ (0xFF#8 : Byte) ≠ 0x08#8 := by
  decide

theorem witness_WriteByteNewlineIsNewLine : (start 3 80 []).lock ≠ .irq := by decide

theorem witness_WriteByteBackspaceIsBackspace : (inSection []).lock ≠ .irq := by decide

/-- One state for each branch: row 0, column 2, column 1, column 80. -/
theorem witness_BackspaceErasesBackwards :
    ([start 0 80 [], start 5 2 [], start 5 1 [], start 1 80 []].all fun s =>
      decide (s.lock ≠ .irq) && decide (Memory.wf s.buf)) = true := by decide

theorem witness_BackspaceNeverWritesColumnZero :
    (start 1 1 []).lock ≠ .irq ∧ (start 1 1 []).col.val = 1 ∧ 1 ≤ (start 1 1 []).row.val := by decide

/-- The last row that only advances, and the row that scrolls. -/
theorem witness_NewLineAdvancesOrScrolls :
    (start 23 80 []).lock ≠ .irq ∧ Memory.wf (start 23 80 []).buf ∧ (start 23 80 []).row.val ≤ 23 ∧
      (start 24 0 []).lock ≠ .irq ∧ Memory.wf (start 24 0 []).buf ∧ ¬(start 24 0 []).row.val ≤ 23 := by decide

theorem witness_ScrollAccessesInOrder : Memory.wf [(0xB8000 + 480, 0x33#8)] := by decide

/-- The last row that exists and the first that does not. -/
theorem witness_ClearRowBlanksItsRow :
    (24 : Row).val = (0x18#8).toNat ∧ (start 0 0 []).lock ≠ .irq ∧ Memory.wf (start 0 0 []).buf ∧
      25 ≤ (0x19#8).toNat := by decide

theorem witness_WriteStrIsItsBytesThenOneSync : (start 24 79 []).lock ≠ .irq ∧ (start 24 79 []).par.Ok :=
  ⟨by decide, default_ok⟩

/-- Both ends of the printable range, up to the last column. -/
theorem witness_WriteStrWithinARow :
    (start 24 78 []).lock ≠ .irq ∧ Memory.wf (start 24 78 []).buf ∧ (start 24 78 []).par.Ok ∧
      (start 24 78 []).col.val + [0x20#8, 0x7E#8].length ≤ 80 ∧
      ∀ b ∈ [0x20#8, 0x7E#8], 0x20 ≤ b.toNat ∧ b.toNat ≤ 0x7E :=
  ⟨by decide, by decide, default_ok, by decide, by decide⟩

theorem witness_FullRowThenOneMoreWraps :
    (start 7 0 []).lock ≠ .irq ∧ Memory.wf (start 7 0 []).buf ∧ (start 7 0 []).par.Ok ∧ (start 7 0 []).col = 0 ∧
      (List.replicate 80 0x61#8).length = 80 ∧
      (∀ x ∈ List.replicate 80 0x61#8, 0x20 ≤ x.toNat ∧ x.toNat ≤ 0x7E) ∧ (0x61#8 : Byte) ≠ 0x0A#8 ∧
      (0x61#8 : Byte) ≠ 0x08#8 :=
  ⟨by decide, by decide, default_ok, rfl, by simp, fun x h => by rw [List.eq_of_mem_replicate h]; decide, by decide,
    by decide⟩

theorem witness_BannerRowsSurviveStrings :
    (start 2 0 []).lock ≠ .irq ∧ 2 ≤ (start 2 0 []).row.val ∧ ∀ b ∈ [0x41#8, 0x0A#8], b ≠ 0x08#8 := by decide

theorem witness_PutsMatchesOneLongString : (start 2 0 []).lock ≠ .irq ∧ (start 2 0 []).par.Ok :=
  ⟨by decide, default_ok⟩

theorem witness_InstallBuildsTheTable :
    (booted [] []).installed = true ∧ (start 0 0 []).installed = false ∧ (start 0 0 []).par.Ok :=
  ⟨rfl, rfl, default_ok⟩

/-- Both ends of the legal bases; one below, and one misaligned. -/
theorem witness_RemapSetsTheOffsetsOrStops :
    (booted [] []).pic.remapped = true ∧ (start 0 0 []).pic.remapped = false ∧ remapValid 0x20#8 0xF8#8 = true ∧
      remapValid 0x18#8 0xF8#8 = false ∧ remapValid 0x20#8 0x21#8 = false := by decide

theorem witness_EnableSetsTheInterruptFlag :
    (start 0 0 []).installed = false ∧
      ((inSection []).installed = true ∧ (inSection []).pic.remapped = true ∧ (inSection []).lock = .normal) ∧
      (booted [] []).installed = true ∧ (booted [] []).pic.remapped = true ∧ (booted [] []).lock ≠ .normal := by decide

theorem witness_SectionBeginTakesTheLock : (booted [] []).lock = .free ∧ (inSection []).lock = .normal := ⟨rfl, rfl⟩

theorem witness_SectionEndRestoresInterrupts : (inSection []).lock = .normal ∧ (booted [] []).lock ≠ .normal :=
  ⟨rfl, by decide⟩

theorem witness_BreakpointReturnsToTheNextCommand :
    (booted [] []).par.Ok ∧ (booted [] []).installed = true ∧ (booted [] []).vt = builtTable (booted [] []).par ∧
      (booted [] []).lock = .free ∧ (booted [] []).ctx = .normal := ⟨default_ok, rfl, rfl, rfl, rfl⟩

theorem witness_BreakpointInASectionDeadlocks :
    (inSection []).par.Ok ∧ (inSection []).installed = true ∧ (inSection []).vt = builtTable (inSection []).par ∧
      (inSection []).lock = .normal := ⟨default_ok, rfl, rfl, rfl⟩

theorem witness_BreakpointWithoutATableFaults : (start 0 0 []).installed = false := rfl

theorem witness_TimerDeliveryAcknowledgesOnce :
    (pending 0#16 [.raise .timer, .deliver]).Inv ∧
      (pending 0#16 [.raise .timer, .deliver]).TakesEventNext (.raise .timer) [.deliver] ∧
      (pending 0#16 []).intEnable = true ∧ (pending 0#16 []).pic.off1 = 0x20#8 ∧ (pending 0#16 []).pic.off2 = 0x28#8 ∧
      (pending 0#16 []).pic.mask.getLsbD 0 = false :=
  ⟨pending_inv _ (three_lines _ (.inl rfl)) _, ⟨rfl, rfl, rfl⟩, rfl, rfl, rfl, by decide⟩

/-- The timer is not pending; in `witness_KeyboardUnderAMaskedTimer` it is pending and masked. -/
theorem witness_KeyboardDeliveryForwardsTheKey :
    (pending 2#16 [.deliver]).Inv ∧ (pending 2#16 [.deliver]).TakesEventNext .deliver [] ∧
      (pending 2#16 []).intEnable = true ∧ (pending 2#16 []).pic.off1 = 0x20#8 ∧
      (pending 2#16 []).pic.irr.getLsbD 1 = true ∧ (pending 2#16 []).pic.mask.getLsbD 1 = false ∧
      (pending 2#16 []).pic.irr.getLsbD 0 = false :=
  ⟨pending_inv _ (three_lines _ (.inr (.inl rfl))) _, ⟨rfl, rfl, rfl⟩, rfl, rfl, by decide, by decide, by decide⟩

theorem witness_KeyboardUnderAMaskedTimer :
    { (pending 3#16 []).pic with mask := 1#16 }.irr.getLsbD 0 = true ∧
      { (pending 3#16 []).pic with mask := 1#16 }.mask.getLsbD 0 = true ∧
      firstDeliverable { (pending 3#16 []).pic with mask := 1#16 } = some 1 := by decide

/-- After the boot stream of T6: base 0x30, lines pending, a delivery next. -/
def unbound (irr : Word) : State :=
  { pending irr [.deliver] with pic := { (pending irr []).pic with off1 := 0x30#8, off2 := 0x38#8 } }

theorem witness_UnboundVectorDoubleFaults :
    ((unbound 3#16).Inv ∧ (unbound 3#16).DeliversNext .timer [] ∧ (unbound 3#16).pic.off1 ≠ 0x20#8) ∧
      (unbound 2#16).Inv ∧ (unbound 2#16).DeliversNext .keyboard [] ∧ (unbound 2#16).pic.off1 ≠ 0x20#8 :=
  ⟨⟨{ pending_inv 3#16 (three_lines _ (.inr (.inr rfl))) [.deliver] with offsets_valid := fun _ => by decide },
      ⟨⟨rfl, rfl, rfl⟩, rfl, by decide, by decide, nofun⟩, by decide⟩,
    { pending_inv 2#16 (three_lines _ (.inr (.inl rfl))) [.deliver] with offsets_valid := fun _ => by decide },
    ⟨⟨rfl, rfl, rfl⟩, rfl, by decide, by decide, fun _ => .inl (by decide)⟩, by decide⟩

theorem witness_MaskedDeliveryDoesNothing :
    { start 0 0 [] with env := [.deliver] }.TakesEventNext .deliver [] ∧ (start 0 0 []).intEnable = false :=
  ⟨⟨rfl, rfl, rfl⟩, rfl⟩

theorem witness_RaiseSetsOneRequest :
    { start 0 0 [] with sys := .idle, env := [.raise .keyboard] }.TakesEventNext (.raise .keyboard) [] :=
  ⟨rfl, rfl, rfl⟩

theorem witness_TimerBeatsKeyboard :
    (pending 3#16 [.deliver]).Inv ∧ (pending 3#16 [.deliver]).TakesEventNext .deliver [] ∧
      (pending 3#16 []).intEnable = true ∧ (pending 3#16 []).pic.irr.getLsbD 0 = true ∧
      (pending 3#16 []).pic.irr.getLsbD 1 = true ∧ (pending 3#16 []).pic.mask.getLsbD 0 = false :=
  ⟨pending_inv _ (three_lines _ (.inr (.inr rfl))) _, ⟨rfl, rfl, rfl⟩, rfl, by decide, by decide, by decide⟩

/-- Not remapped; unowned just past the secondary's range and just below the primary's; nothing in service; line 0 in
service where line 7 is acknowledged. -/
theorem witness_AckRefusesWhatIsNotInService :
    State.reset.pic.remapped = false ∧ (serving 1#16).pic.remapped = true ∧
      ownsVector 0x28#8 0x30#8 = false ∧ ownsVector 0x20#8 0x30#8 = false ∧ ownsVector 0x20#8 0x1F#8 = false ∧
      ownsVector 0x28#8 0x27#8 = false ∧ ownsVector 0x20#8 0x27#8 = true ∧
      (∀ j, j < 8 → (serving 0#16).pic.isr.getLsbD j = false) ∧
      (serving 1#16).pic.isr.getLsbD 0 = true ∧ 0 ≠ (0x27#8).toNat - (0x20#8).toNat := by decide

/-- For the secondary's first and last line: nothing in service there; line 15 in service where line 8 is acknowledged;
line 15 in service, with nothing and with line 7 in service at the primary. -/
theorem witness_AckRefusesTheSecondary :
    (serving 1#16).pic.remapped = true ∧ (0x28#8).toNat = 0x28 + (8 - 8) ∧ (0x2F#8).toNat = 0x28 + (15 - 8) ∧
      (∀ j, j < 16 → 8 ≤ j → (serving 0x80#16).pic.isr.getLsbD j = false) ∧
      (serving 0x8000#16).pic.isr.getLsbD 15 = true ∧ 15 ≠ 8 ∧
      (∀ j, j < 15 → 8 ≤ j → (serving 0x8000#16).pic.isr.getLsbD j = false) ∧
      (∀ j, j < 8 → (serving 0x8000#16).pic.isr.getLsbD j = false) ∧
      (serving 0x8080#16).pic.isr.getLsbD 15 = true ∧ (serving 0x8080#16).pic.isr.getLsbD 7 = true ∧
      (∀ j, j < 7 → (serving 0x8080#16).pic.isr.getLsbD j = false) := by decide

/-- The primary's last line, and the secondary's first and last. -/
theorem witness_AckEndsServiceInOrder :
    (serving 0x80#16).pic.remapped = true ∧ ownsVector 0x28#8 0x27#8 = false ∧ (0x27#8).toNat = (0x20#8).toNat + 7 ∧
      (serving 0x80#16).pic.isr.getLsbD 7 = true ∧ (∀ j, j < 7 → (serving 0x80#16).pic.isr.getLsbD j = false) ∧
      (0x28#8).toNat = (0x28#8).toNat + (8 - 8) ∧ (serving 0x104#16).pic.isr.getLsbD 8 = true ∧
      (0x2F#8).toNat = (0x28#8).toNat + (15 - 8) ∧ (serving 0x8004#16).pic.isr.getLsbD 15 = true ∧
      (∀ j, j < 15 → 8 ≤ j → (serving 0x8004#16).pic.isr.getLsbD j = false) ∧
      (serving 0x8004#16).pic.isr.getLsbD 0 = false ∧ (serving 0x8004#16).pic.isr.getLsbD 1 = false ∧
      (serving 0x8004#16).pic.isr.getLsbD 2 = true := by decide

theorem witness_BootOrderEnablesInterrupts : Params.default.Ok := default_ok

/-- A string that wraps and scrolls, and a row that does not exist. -/
theorem witness_ConsoleCommandsMakeExactlyTheirAccesses :
    consoleCommand (.writeStr [0x41#8, 0x08#8, 0x0A#8]) = true ∧ consoleCommand (.clearRow 25#8) = true ∧
      (start 24 80 []).lock ≠ .irq ∧ Memory.wf (start 24 80 []).buf ∧ (start 24 80 []).par.Ok :=
  ⟨rfl, rfl, by decide, by decide, default_ok⟩

theorem witness_EveryDeliveryIsAcknowledgedOnce :
    (pending 3#16 [.deliver]).Inv ∧ (pending 3#16 [.deliver]).DeliversNext .timer [] ∧
      (pending 2#16 [.deliver]).Inv ∧ (pending 2#16 [.deliver]).DeliversNext .keyboard [] ∧
      (pending 3#16 []).pic.off1 = 0x20#8 :=
  ⟨pending_inv _ (three_lines _ (.inr (.inr rfl))) _, ⟨⟨rfl, rfl, rfl⟩, rfl, by decide, by decide, nofun⟩,
    pending_inv _ (three_lines _ (.inr (.inl rfl))) _,
    ⟨⟨rfl, rfl, rfl⟩, rfl, by decide, by decide, fun _ => .inl (by decide)⟩, rfl⟩

end Sys2Proof.Tests
end

section
/-! PROOFS. The length of a decoded command (spec/30_encoding.md R91, R97): decoding consumes its own bytes. -/

namespace Sys2Proof

theorem decodeN_length {i j : Instr} (hi : i.length = 1) {t rest : List Byte} (h : decodeN i t = .ok j rest) :
    j.length + rest.length = t.length + 1 := by
  cases h; rw [hi]; omega

theorem decodeB_length {f : Byte → Instr} (hf : ∀ b, (f b).length = 2) {t rest : List Byte} {i : Instr}
    (h : decodeB f t = .ok i rest) : i.length + rest.length = t.length + 1 := by
  cases t with
  | nil => cases h
  | cons b t => cases h; rw [hf, List.length_cons]; omega

theorem decodeP_length {f : Byte → Byte → Instr} (hf : ∀ a b, (f a b).length = 3) {t rest : List Byte} {i : Instr}
    (h : decodeP f t = .ok i rest) : i.length + rest.length = t.length + 1 := by
  match t, h with
  | a :: b :: t, h => cases h; rw [hf, List.length_cons, List.length_cons]; omega

theorem decodeS_length {f : List Byte → Instr} (hf : ∀ bs, (f bs).length = 2 + bs.length) {t rest : List Byte}
    {i : Instr} (h : decodeS f t = .ok i rest) : i.length + rest.length = t.length + 1 := by
  cases t with
  | nil => cases h
  | cons n t =>
    simp only [decodeS] at h
    split at h
    · cases h; rw [hf, List.length_take, List.length_drop, List.length_cons]; omega
    · cases h

/-- A decoded command and the bytes after it are as long as the bytes decoded (30_encoding R91). -/
theorem decode_length {bs rest : List Byte} {i : Instr} (h : decode bs = .ok i rest) :
    i.length + rest.length = bs.length := by
  cases bs with
  | nil => cases h
  | cons op t =>
    rw [List.length_cons]
    by_cases legal : op ∈ legalOpcodes
    · simp only [legalOpcodes, List.mem_cons, List.not_mem_nil, or_false] at legal
      rcases legal with rfl | rfl | rfl | rfl | rfl | rfl | rfl | rfl | rfl | rfl | rfl
      · exact decodeB_length (fun _ => rfl) h
      · exact decodeS_length (fun _ => rfl) h
      · exact decodeN_length rfl h
      · exact decodeN_length rfl h
      · exact decodeB_length (fun _ => rfl) h
      · exact decodeN_length rfl h
      · exact decodeP_length (fun _ _ => rfl) h
      · exact decodeN_length rfl h
      · exact decodeN_length rfl h
      · exact decodeN_length rfl h
      · exact decodeN_length rfl h
    · rw [decode_illegal legal] at h; cases h

namespace Machine

/-- The command at `cmd_pc` lies within the stream (10_state R20, R27). -/
theorem fetched_within_stream {s : State} {i : Instr} {rest : List Byte} (h : decode s.fetchBytes = .ok i rest)
    (x : s.cmdPc ≤ s.stream.length) : s.cmdPc + i.length ≤ s.stream.length := by
  have len := decode_length h
  unfold State.fetchBytes at len
  rw [List.length_drop] at len
  omega

/-- Bytes that decode are there: the stream is not exhausted (10_state R27). -/
theorem fetched_not_exhausted {s : State} {i : Instr} {rest : List Byte} (h : decode s.fetchBytes = .ok i rest) :
    s.cmdPc < s.stream.length := by
  by_contra past
  unfold State.fetchBytes at h
  rw [List.drop_eq_nil_of_le (Nat.le_of_not_lt past)] at h
  cases h

end Machine
end Sys2Proof
end

section
/-! PROOFS. The inversion of `exec`: every way a command can answer a next state (spec/40_console.md R130 to R134;
spec/41_interrupt_control.md R181 to R188). -/

namespace Sys2Proof.Machine

/-- Every way the command `i` can answer the next state `u`. -/
inductive ExecTo (i : Instr) (s u : State) : Prop
  /-- A console operation under the console lock (41 R186). -/
  | console (f : State → State) (loc : Local f) (k : ∀ t, ConsoleStep t (f t))
      (e : u = normalConsole (fun t => (f t).advance i.length) s)
  /-- A model fault (60_exceptions R220). -/
  | faulted (code : FaultCode) (e : u = s.raiseFault code)
  /-- A malformed `REMAP` (41 R182). -/
  | halted (e : u = s.halt .malformedRemap)
  /-- `SECTION_BEGIN` on the held lock (41 R184). -/
  | stuck (e : u = s.becomeStuck .selfDeadlock)
  /-- `INSTALL` (41 R181). -/
  | installed (fresh : s.installed = false) (e : u = (s.setTable (builtTable s.par)).advance i.length)
  /-- `REMAP` (41 R182). -/
  | remapped (a b : Byte) (fresh : s.pic.remapped = false) (valid : remapValid a b = true)
      (e : u = (s.setPic { s.pic with off1 := a, off2 := b, remapped := true }).advance i.length)
  /-- `ENABLE` (41 R183). -/
  | enabled (table : s.installed = true) (offsets : s.pic.remapped = true) (unlocked : s.lock ≠ .normal)
      (e : u = (s.setIntEnable true).advance i.length)
  /-- `SECTION_BEGIN` (41 R184). -/
  | begun (unlocked : s.lock ≠ .normal)
      (e : u = (((s.setSavedIf s.intEnable).setIntEnable false).setLock .normal).advance i.length)
  /-- `SECTION_END` (41 R185). -/
  | ended (held : s.lock = .normal) (e : u = ((s.setLock .free).setIntEnable s.savedIf).advance i.length)
  /-- `BREAKPOINT` (41 R188). -/
  | trapped (e : u = trap s.par.bpVector (s.advance i.length))

variable {s u : State}

theorem execClearRow_cases {r : Byte} (h : exec (.clearRow r) s = .next u) : ExecTo (.clearRow r) s u := by
  change execClearRow r s = _ at h
  unfold execClearRow at h
  split at h
  · cases h; exact .faulted .rowRange rfl
  · rename_i q _
    cases h; exact .console _ (local_clearRowOp q) (fun t => (cellStep_clearRowOp q t).toConsoleStep) rfl

theorem execInstall_cases (h : exec .install s = .next u) : ExecTo .install s u := by
  change execInstall s = _ at h
  unfold execInstall at h
  split at h
  · cases h; exact .faulted .reinstall rfl
  · rename_i fresh
    cases h; exact .installed (Bool.eq_false_iff.2 fresh) rfl

theorem execRemap_cases {a b : Byte} (h : exec (.remap a b) s = .next u) : ExecTo (.remap a b) s u := by
  change execRemap a b s = _ at h
  unfold execRemap at h
  split at h
  · cases h; exact .faulted .remapTwice rfl
  · rename_i fresh
    split at h
    · cases h; exact .halted rfl
    · rename_i valid
      cases h; exact .remapped a b (Bool.eq_false_iff.2 fresh) (Bool.eq_true_of_not_eq_false valid) rfl

theorem execEnable_cases (h : exec .enable s = .next u) : ExecTo .enable s u := by
  change execEnable s = _ at h
  unfold execEnable at h
  split at h
  · cases h; exact .faulted .enableOrder rfl
  · rename_i ready
    split at h
    · cases h; exact .faulted .enableInSection rfl
    · rename_i free
      rw [not_or, Bool.not_eq_false, Bool.not_eq_false] at ready
      cases h; exact .enabled ready.1 ready.2 free rfl

theorem execSectionBegin_cases (h : exec .sectionBegin s = .next u) : ExecTo .sectionBegin s u := by
  change execSectionBegin s = _ at h
  unfold execSectionBegin at h
  split at h
  · cases h; exact .stuck rfl
  · rename_i free
    cases h; exact .begun free rfl

theorem execSectionEnd_cases (h : exec .sectionEnd s = .next u) : ExecTo .sectionEnd s u := by
  change execSectionEnd s = _ at h
  unfold execSectionEnd at h
  split at h
  · rename_i held
    cases h; exact .ended held rfl
  · cases h; exact .faulted .sectionUnbalanced rfl

/-- The inversion of `exec`: later proofs take a command apart through this lemma alone. -/
theorem exec_cases {i : Instr} (h : exec i s = .next u) : ExecTo i s u := by
  cases i with
  | writeByte b =>
    cases h; exact .console _ (local_byteOp b) (fun t => (cellStep_byteOp t b).toConsoleStep) rfl
  | writeStr bs => cases h; exact .console _ (local_strOp bs) (consoleStep_strOp bs) rfl
  | backspace => cases h; exact .console _ local_backspaceOp (fun t => (cellStep_backspaceOp t).toConsoleStep) rfl
  | newLine => cases h; exact .console _ local_newlineOp (fun t => (cellStep_newlineOp t).toConsoleStep) rfl
  | clearRow r => exact execClearRow_cases h
  | install => exact execInstall_cases h
  | remap a b => exact execRemap_cases h
  | enable => exact execEnable_cases h
  | sectionBegin => exact execSectionBegin_cases h
  | sectionEnd => exact execSectionEnd_cases h
  | breakpoint => cases h; exact .trapped rfl

/-- Under the console lock `cmd_pc` may as well advance last (41 R186). -/
theorem normalConsole_advance (f : State → State) (n : Nat) (s : State) :
    normalConsole (fun t => (f t).advance n) s = (normalConsole f s).advance n := by
  unfold normalConsole; split <;> rfl

theorem trapStep_setIntEnable (s : State) (b : Bool) : TrapStep s (s.setIntEnable b) :=
  ⟨rfl, List.suffix_refl _, id, id, fun _ _ => rfl⟩

/-- What a console operation under the console lock can do, whoever holds the lock (41 R186). -/
theorem trapStep_normalConsole {f : State → State} (hf : ∀ t, ConsoleStep t (f t)) (s : State) :
    TrapStep s (normalConsole f s) := by
  unfold normalConsole
  split
  · exact (hf s).trapStep
  · exact (((trapStep_setIntEnable s false).trans (trapStep_setLock _ .normal)).trans (hf _).trapStep).trans
      ((trapStep_setLock _ .free).trans (trapStep_setIntEnable _ s.intEnable))

end Sys2Proof.Machine
end

section
/-! PROOFS. What every step keeps: the parameters, the stream, `COLOR`, `PIC.MASK`, and the history so far
(spec/10_state.md R23, R39; spec/60_exceptions.md R227). -/

namespace Sys2Proof.Machine

/-- `t` has the constants of `s`, and its history continues that of `s`. -/
structure State.Continues (s t : State) : Prop where
  par : t.par = s.par
  stream : t.stream = s.stream
  color : t.color = s.color
  mask : t.pic.mask = s.pic.mask
  history : s.hist <:+ t.hist

variable {s t u : State}

theorem State.Continues.refl (s : State) : s.Continues s := ⟨rfl, rfl, rfl, rfl, List.suffix_refl _⟩

theorem State.Continues.trans (h : s.Continues t) (k : t.Continues u) : s.Continues u where
  par := k.par.trans h.par
  stream := k.stream.trans h.stream
  color := k.color.trans h.color
  mask := k.mask.trans h.mask
  history := h.history.trans k.history

theorem TrapStep.continues (h : TrapStep s t) : s.Continues t where
  par := h.par
  stream := by rw [h.frame]
  color := by rw [h.frame]
  mask := by rw [h.pic]
  history := h.history

theorem continues_advance (s : State) (n : Nat) : s.Continues (s.advance n) :=
  ⟨rfl, rfl, rfl, rfl, List.suffix_refl _⟩

theorem continues_moved (s : State) : s.Continues s.moved := ⟨rfl, rfl, rfl, rfl, List.suffix_refl _⟩

theorem continues_settle (s : State) : s.Continues s.settle where
  par := s.settle_par
  stream := s.settle_stream
  color := s.settle_color
  mask := by rw [s.settle_pic]
  history := by rw [s.settle_hist]

theorem continues_raiseLine (l : DeviceLine) (s : State) : s.Continues (raiseLine l s) :=
  ⟨rfl, rfl, rfl, rfl, List.suffix_refl _⟩

theorem continues_takeLine (l : Nat) (s : State) : s.Continues (s.setPic (takeLine s.pic l)) :=
  ⟨rfl, rfl, rfl, rfl, List.suffix_refl _⟩

theorem continues_deliver (s : State) : s.Continues (deliver s) := by
  rcases deliver_cases s with e | ⟨l, -, -, -, -, -, e⟩
  · rw [e]; exact .refl s
  · rw [e]; exact (continues_takeLine l s).trans (trapStep_trap _ _).continues

/-- No command changes a constant or drops an entry of `EV`. -/
theorem exec_continues {i : Instr} (h : exec i s = .next u) : s.Continues u := by
  cases exec_cases h with
  | console f loc k e =>
    rw [e, normalConsole_advance]
    exact (trapStep_normalConsole k s).continues.trans (continues_advance _ _)
  | faulted code e => rw [e]; exact (trapStep_raiseFault s code).continues
  | halted e => rw [e]; exact (trapStep_halt s _).continues
  | stuck e => rw [e]; exact (trapStep_becomeStuck s _).continues
  | trapped e => rw [e]; exact (continues_advance s _).trans (trapStep_trap _ _).continues
  | installed _ e | remapped _ _ _ _ e | enabled _ _ _ e | begun _ e | ended _ e =>
    rw [e]; exact ⟨rfl, rfl, rfl, rfl, List.suffix_refl _⟩

/-- No step changes a constant or drops an entry of `EV`. -/
theorem step_continues (h : step s = .next t) : s.Continues t := by
  have moved := continues_moved s
  cases step_cases h with
  | raised _ _ l e => rw [e]; exact moved.trans (continues_raiseLine l _)
  | delivered _ _ e => rw [e]; exact moved.trans (continues_deliver _)
  | command _ _ c =>
    cases c with
    | ended _ e => rw [e]; exact moved.trans (continues_settle _)
    | ran _ _ i _ _ u r e => rw [e]; exact moved.trans ((exec_continues r).trans (continues_settle u))
    | rejected _ _ code _ e => rw [e]; exact moved.trans (trapStep_raiseFault _ code).continues

/-- Settles O12: every step is one of the operations that keep the four constants. -/
theorem stepKeepsTheConstants : Obligations.StepKeepsTheConstants := by
  intro s t h
  obtain ⟨par, stream, color, mask, -⟩ := step_continues h
  exact ⟨par, stream, color, mask⟩

/-- Settles O14: the history is kept newest first, so entries added at its head are appended to `EV`. -/
theorem historyOnlyGrows : Obligations.HistoryOnlyGrows := by
  intro s t h
  obtain ⟨new, e⟩ := (step_continues h).history
  exact ⟨new.reverse, by rw [State.EV, State.EV, ← e, List.reverse_append]⟩

end Sys2Proof.Machine
end

section
/-! PROOFS. What an operation can do to `SYS` and `FAULT`, and what a trap does to `IF`, `LOCK` and `CTX`
(spec/60_exceptions.md R220, R231, R236, R237; spec/41_interrupt_control.md R187). -/

namespace Sys2Proof.Machine

/-- Everything an operation can do to `SYS` and `FAULT`: it keeps both, or it stops the system. -/
inductive SysStep (s t : State) : Prop
  /-- The system goes on. -/
  | kept (sys : t.sys = s.sys) (fault : t.fault = s.fault)
  /-- A model fault (60_exceptions R220). -/
  | faulted (sys : t.sys = .faulted) (fault : t.fault.isSome = true)
  /-- A halt or a deadlock (60_exceptions R236, R237). -/
  | stopped (dead : t.sys.live = false) (unfaulted : t.sys ≠ .faulted) (fault : t.fault = s.fault)

/-- What a handler's operation keeps of the registers it shares with normal mode. -/
structure HandlerKeeps (s t : State) : Prop where
  intEnable : t.intEnable = s.intEnable
  /-- A lock that no handler held is as it was (41 R187). -/
  lock : s.lock ≠ .irq → t.lock = s.lock

/-- An operation of a handler: done, the system goes on as it was; ended, the system has stopped. -/
inductive Ran.Orderly (s : State) : Ran → Prop
  | done {t : State} (k : HandlerKeeps s t) (sys : t.sys = s.sys) (fault : t.fault = s.fault) : Orderly s (.done t)
  | stopped {t : State} (k : HandlerKeeps s t) (run : SysStep s t) (dead : t.sys.live = false) : Orderly s (.stopped t)

variable {s t u : State}

/-- A system that is still live has not been stopped. -/
theorem SysStep.of_live (h : SysStep s t) (live : t.sys.live = true) : t.sys = s.sys ∧ t.fault = s.fault := by
  cases h with
  | kept sys fault => exact ⟨sys, fault⟩
  | faulted sys => rw [sys] at live; cases live
  | stopped dead => rw [dead] at live; cases live

theorem SysStep.of_running (h : SysStep s t) (run : t.sys = .running) : t.sys = s.sys ∧ t.fault = s.fault :=
  h.of_live (by rw [run]; rfl)

theorem SysStep.after_kept (h : SysStep t u) (sys : t.sys = s.sys) (fault : t.fault = s.fault) : SysStep s u := by
  cases h with
  | kept y f => exact .kept (y.trans sys) (f.trans fault)
  | faulted y f => exact .faulted y f
  | stopped d n f => exact .stopped d n (f.trans fault)

theorem SysStep.then_kept (h : SysStep s t) (sys : u.sys = t.sys) (fault : u.fault = t.fault) : SysStep s u := by
  cases h with
  | kept y f => exact .kept (sys.trans y) (fault.trans f)
  | faulted y f => exact .faulted (sys.trans y) (by rw [fault]; exact f)
  | stopped d n f => exact .stopped (by rw [sys]; exact d) (by rw [sys]; exact n) (fault.trans f)

theorem sysStep_raiseFault (s : State) (code : FaultCode) : SysStep s (s.raiseFault code) := .faulted rfl rfl

theorem sysStep_halt (s : State) (cause : HaltCause) : SysStep s (s.halt cause) := .stopped rfl nofun rfl

theorem sysStep_becomeStuck (s : State) (reason : StuckReason) : SysStep s (s.becomeStuck reason) :=
  .stopped rfl nofun rfl

theorem HandlerKeeps.refl (s : State) : HandlerKeeps s s := ⟨rfl, fun _ => rfl⟩

theorem HandlerKeeps.trans (h : HandlerKeeps s t) (k : HandlerKeeps t u) : HandlerKeeps s u where
  intEnable := k.intEnable.trans h.intEnable
  lock := fun free => (k.lock (by rw [h.lock free]; exact free)).trans (h.lock free)

/-! ## Handlers -/

theorem Ran.Orderly.after_kept {r : Ran} (h : r.Orderly t) (k : HandlerKeeps s t) (sys : t.sys = s.sys)
    (fault : t.fault = s.fault) : r.Orderly s := by
  cases h with
  | done k' y f => exact .done (k.trans k') (y.trans sys) (f.trans fault)
  | stopped k' run dead => exact .stopped (k.trans k') (run.after_kept sys fault) dead

theorem Ran.Orderly.andThen {r : Ran} {f : State → Ran} (h : r.Orderly s) (hf : ∀ t, (f t).Orderly t) :
    (r.andThen f).Orderly s := by
  cases h with
  | done k sys fault => exact (hf _).after_kept k sys fault
  | stopped k run dead => exact .stopped k run dead

theorem orderly_done (s : State) : (Ran.done s).Orderly s := .done (.refl s) rfl rfl

theorem orderly_raiseFault (s : State) (code : FaultCode) : (Ran.stopped (s.raiseFault code)).Orderly s :=
  .stopped ⟨rfl, fun _ => rfl⟩ (sysStep_raiseFault s code) rfl

theorem orderly_checkTop (lines : List Nat) (l : Nat) (s : State) : (checkTop lines l s).Orderly s := by
  unfold checkTop
  split
  · exact orderly_raiseFault s _
  · split
    · exact orderly_done s
    · exact orderly_raiseFault s _

theorem orderly_ackLine (w : Controller) (lines : List Nat) (l : Nat) (s : State) : (ackLine w lines l s).Orderly s :=
  (orderly_checkTop lines l s).andThen fun _ => .done ⟨rfl, fun _ => rfl⟩ rfl rfl

theorem orderly_acknowledge (v : Byte) (s : State) : (acknowledge v s).Orderly s := by
  unfold acknowledge
  split
  · exact orderly_raiseFault s _
  · split
    · exact (orderly_ackLine _ _ _ s).andThen (orderly_ackLine _ _ _)
    · split
      · exact orderly_ackLine _ _ _ s
      · exact orderly_raiseFault s _

theorem orderly_irqConsole {f : State → State} (hf : ∀ t, ConsoleStep t (f t)) (s : State) :
    (irqConsole f s).Orderly s := by
  unfold irqConsole
  split
  · exact .stopped ⟨rfl, fun _ => rfl⟩ (sysStep_becomeStuck s _) rfl
  · rename_i unlocked
    obtain ⟨-, -, -, fault, intEnable, -, -, -, -, -, -, sys, -⟩ := (hf (s.setLock .irq)).kept
    refine .done ⟨intEnable, fun free => ?_⟩ sys fault
    cases e : s.lock with
    | free => rfl
    | normal => exact absurd e unlocked
    | irq => exact absurd e free

theorem orderly_printContext (s : State) : (printContext s).Orderly s :=
  (orderly_irqConsole (consoleStep_strOp _) s.countCtxDraw).after_kept ⟨rfl, fun _ => rfl⟩ rfl rfl

theorem orderly_forwardKey (ev : Option KeyEvent) (s : State) : (forwardKey ev s).Orderly s := by
  cases ev with
  | none => exact orderly_done s
  | some e => exact orderly_irqConsole (consoleStep_strOp _) s

theorem orderly_keyboardHandler (v : Byte) (s : State) : (keyboardHandler v s).Orderly s :=
  ((orderly_forwardKey _ _).andThen (orderly_acknowledge v)).after_kept ⟨rfl, fun _ => rfl⟩ rfl rfl

theorem orderly_doubleFaultHandler (s : State) : (doubleFaultHandler s).Orderly s :=
  (orderly_printContext s).andThen fun t => .stopped ⟨rfl, fun _ => rfl⟩ (sysStep_halt t _) rfl

/-- What the four handlers can do to the run state (60_exceptions R231). -/
theorem orderly_runHandler (h : Handler) (v : Byte) (s : State) : (runHandler h v s).Orderly s := by
  cases h with
  | breakpoint => exact orderly_printContext s
  | doubleFault => exact orderly_doubleFaultHandler s
  | timer => exact orderly_acknowledge v s
  | keyboard => exact orderly_keyboardHandler v s

/-! ## Traps -/

/-- Everything a trap may do to the control registers. -/
structure TrapControl (s t : State) : Prop where
  /-- A trap that returns restores `IF`, one that does not leaves it 0 (60_exceptions R231, R233). -/
  intEnable : t.intEnable = true → s.intEnable = true
  /-- No trap keeps the lock, or takes it from normal mode (41 R187). -/
  lock : s.lock ≠ .irq → t.lock = s.lock
  /-- `CTX` is `HANDLER(v)` inside the trap only (10_state R37). -/
  ctx : s.ctx = .normal → t.ctx = .normal
  run : SysStep s t

theorem trapControl_raiseFault (s : State) (code : FaultCode) : TrapControl s (s.raiseFault code) :=
  ⟨id, fun _ => rfl, id, sysStep_raiseFault s code⟩

theorem trapControl_trapBody (v : Byte) (h : Handler) (s : State) : TrapControl s (trapBody v h s) := by
  have ordered := orderly_runHandler h v (trapEntry v s)
  unfold trapBody
  cases e : runHandler h v (trapEntry v s) with
  | done t =>
    rw [e] at ordered
    cases ordered with
    | done k sys fault => exact ⟨id, k.lock, fun _ => rfl, .kept sys fault⟩
  | stopped t =>
    rw [e] at ordered
    cases ordered with
    | stopped k run _ =>
      have masked : (leaveHandler t).intEnable = false := k.intEnable
      refine ⟨fun on => ?_, k.lock, fun _ => rfl, ?_⟩
      · rw [masked] at on; cases on
      · have stops : SysStep s t := run.after_kept rfl rfl
        exact stops.then_kept rfl rfl

theorem trapControl_emptySlot (s : State) : TrapControl s (emptySlot s) := by
  unfold emptySlot
  split
  · exact trapControl_trapBody _ _ s
  · exact trapControl_raiseFault s _

/-- What a trap can do to the control registers (60_exceptions R231). -/
theorem trapControl_trap (v : Byte) (s : State) : TrapControl s (trap v s) := by
  have logged : TrapControl (s.log (.deliver v)) (trap v s) := by
    unfold trap
    split
    · exact trapControl_emptySlot _
    · exact trapControl_trapBody _ _ _
  exact ⟨logged.intEnable, logged.lock, logged.ctx, logged.run.after_kept rfl rfl⟩

/-! ## Commands -/

/-- A console operation under the console lock goes on, whoever holds the lock (41 R186). -/
theorem normalConsole_kept {f : State → State} (hf : ∀ t, ConsoleStep t (f t)) (s : State) :
    (normalConsole f s).sys = s.sys ∧ (normalConsole f s).fault = s.fault := by
  unfold normalConsole
  split
  · obtain ⟨-, -, -, fault, -, -, -, -, -, -, -, sys, -⟩ := (hf s).kept
    exact ⟨sys, fault⟩
  · obtain ⟨-, -, -, fault, -, -, -, -, -, -, -, sys, -⟩ := (hf ((s.setIntEnable false).setLock .normal)).kept
    exact ⟨sys, fault⟩

/-- What a command can do to `SYS` and `FAULT`. -/
theorem exec_sysStep {i : Instr} (h : exec i s = .next u) : SysStep s u := by
  cases exec_cases h with
  | console f loc k e =>
    obtain ⟨sys, fault⟩ := normalConsole_kept k s
    rw [e, normalConsole_advance]
    exact .kept sys fault
  | faulted code e => rw [e]; exact sysStep_raiseFault s code
  | halted e => rw [e]; exact sysStep_halt s _
  | stuck e => rw [e]; exact sysStep_becomeStuck s _
  | trapped e => rw [e]; exact (trapControl_trap _ _).run.after_kept rfl rfl
  | installed _ e | remapped _ _ _ _ e | enabled _ _ _ e | begun _ e | ended _ e => rw [e]; exact .kept rfl rfl

end Sys2Proof.Machine
end

section
/-! PROOFS. Which step comes next (spec/41_interrupt_control.md R180, R191), and the end of the stream
(spec/10_state.md R27). -/

namespace Sys2Proof.Machine

variable {s u : State}

/-- A system that runs or is idle takes a live step (41 R180). -/
theorem step_of_live (live : s.sys.live = true) (fault : s.fault = none) : step s = liveStep s := by
  unfold step systemStep
  rw [if_neg (by rw [fault]; decide)]
  cases e : s.sys with
  | running | idle => rfl
  | halted | stuck | faulted => rw [e] at live; cases live

theorem step_of_deliver {moves : List EnvMove} (h : s.TakesEventNext .deliver moves) :
    step s = .next (deliver s.afterMove) := by
  obtain ⟨live, fault, env⟩ := h
  have moved : s.afterMove = s.setEnv moves := by unfold State.afterMove; rw [env]; rfl
  rw [step_of_live live fault, liveStep, env, moved]

theorem step_of_command (h : s.RunsCommandNext) : step s = commandStep s.afterMove := by
  obtain ⟨running, fault, planned⟩ := h
  rw [step_of_live (by rw [running]; rfl) fault, liveStep]
  rcases planned with env | ⟨moves, env⟩
  · have moved : s.afterMove = s := by unfold State.afterMove; rw [env, List.tail_nil, ← env]
    rw [env, moved]
  · have moved : s.afterMove = s.setEnv moves := by unfold State.afterMove; rw [env]; rfl
    rw [env, moved]

/-- The step of a command that decodes: its meaning, and the system idle if it was the last (10_state R27). -/
theorem step_of_decoded {i : Instr} {rest : List Byte} (h : s.RunsCommandNext)
    (d : decode s.fetchBytes = .ok i rest) (r : exec i s.afterMove = .next u) : step s = .next u.settle := by
  have running : s.afterMove.sys = .running := h.1
  have more : s.afterMove.exhausted = false := decide_eq_false (Nat.not_le_of_lt (fetched_not_exhausted d))
  have fetched : decode s.afterMove.fetchBytes = .ok i rest := d
  rw [step_of_command h, commandStep, if_pos ⟨running, more⟩, runCommand, fetched]
  change settled (exec i s.afterMove) = _
  rw [r, settled]

theorem settle_of_exhausted (run : s.sys = .running) (all : s.cmdPc = s.stream.length) :
    s.settle = s.setSys .idle := by
  rcases s.settle_cases with ⟨-, -, e⟩ | ⟨more, -⟩
  · exact e
  · exact absurd (more run) (by omega)

theorem settle_of_goes_on (h : s.sys ≠ .running ∨ s.cmdPc < s.stream.length) : s.settle = s := by
  rcases s.settle_cases with ⟨run, past, -⟩ | ⟨-, e⟩
  · rcases h with stopped | more
    · exact absurd run stopped
    · omega
  · exact e

/-- While `IF = 0` no delivery is enabled (41 R191). -/
theorem deliver_of_masked (masked : s.intEnable = false) : deliver s = s := by
  rcases deliver_cases s with e | ⟨l, -, -, on, -⟩
  · exact e
  · rw [masked] at on; cases on

/-- Settles O44: a delivery that is not enabled is passed over. -/
theorem maskedDeliveryDoesNothing : Obligations.MaskedDeliveryDoesNothing := by
  intro s moves next masked
  have stays : deliver s.afterMove = s.afterMove := deliver_of_masked masked
  rw [step_of_deliver next, stays]

/-- A run of the empty stream is complete at reset (70_reset R284; vector DF13). -/
theorem resetWith_empty_complete (p : Params) (d : ResetDraws) (env : List EnvMove) :
    (State.resetWith p d [] env).Complete := ⟨rfl, rfl, rfl, rfl⟩

/-- Settles O7: a command that leaves the system running has raised no fault, so that the end of the stream completes
the run. -/
theorem exhaustedStreamMakesIdle : Obligations.ExhaustedStreamMakesIdle := by
  refine ⟨fun s u i rest next d r => ?_, resetWith_empty_complete⟩
  have taken : step s = .next u.settle := step_of_decoded next d r
  refine ⟨fun run all => ?_, fun goesOn => by rw [taken, settle_of_goes_on goesOn]⟩
  have faultless : u.fault = none := by
    obtain ⟨-, fault, -⟩ := next
    exact ((exec_sysStep r).of_running run).2.trans fault
  exact ⟨by rw [taken, settle_of_exhausted run all]; rfl, fun free => ⟨all, rfl, faultless, free⟩⟩

end Sys2Proof.Machine
end

section
/-! PROOFS. Which lines an acknowledgement takes out of service, and which traps leave a system live
(spec/41_interrupt_control.md R189, R191; spec/60_exceptions.md R225). -/

namespace Sys2Proof.Machine

variable {s t : State}

theorem Ran.andThen_eq_done {r : Ran} {f : State → Ran} (h : r.andThen f = .done t) :
    ∃ u, r = .done u ∧ f u = .done t := by
  cases r with
  | done u => exact ⟨u, rfl, h⟩
  | stopped u => cases h

/-- `CHECK_TOP` passes on a line in service only (41 R189). -/
theorem checkTop_done {lines : List Nat} {l : Nat} (h : checkTop lines l s = .done t) :
    t = s ∧ s.pic.isr.getLsbD l = true := by
  unfold checkTop at h
  split at h
  · cases h
  · rename_i j top
    split at h
    · rename_i same
      cases h
      exact ⟨rfl, same ▸ List.find?_some top⟩
    · cases h

theorem ackLine_done {w : Controller} {lines : List Nat} {l : Nat} (h : ackLine w lines l s = .done t) :
    t = endOfInterrupt w l s ∧ s.pic.isr.getLsbD l = true := by
  obtain ⟨u, top, e⟩ := Ran.andThen_eq_done h
  obtain ⟨rfl, served⟩ := checkTop_done top
  cases e
  exact ⟨rfl, served⟩

/-- Clearing the one line in service leaves none. -/
theorem clearBit_setBit_zero (l : Nat) : clearBit (setBit 0#16 l) l = 0#16 := by
  simp [clearBit, setBit]

theorem setBit_zero_getLsbD {l j : Nat} (hl : l < 16) (h : (setBit 0#16 l).getLsbD j = true) : j = l := by
  rw [setBit_getLsbD _ _ _ hl] at h
  simpa using h

/-- With one primary line in service, an acknowledgement that is done has ended it: none is left (70_reset R279). -/
theorem acknowledge_done_isr {v : Byte} {l : Nat} (hl : l < 8) (only : s.pic.isr = setBit 0#16 l)
    (h : acknowledge v s = .done t) : t.pic.isr = 0#16 := by
  have served {j : Nat} (bit : s.pic.isr.getLsbD j = true) : j = l :=
    setBit_zero_getLsbD (by omega) (only ▸ bit)
  unfold acknowledge at h
  split at h
  · cases h
  · split at h
    · obtain ⟨u, secondary, -⟩ := Ran.andThen_eq_done h
      have := served (ackLine_done secondary).2
      omega
    · split at h
      · obtain ⟨rfl, bit⟩ := ackLine_done h
        rw [endOfInterrupt_pic, served bit, only]
        exact clearBit_setBit_zero l
      · cases h

theorem irqConsole_pic {f : State → State} (hf : ∀ t, ConsoleStep t (f t)) (s : State) :
    (irqConsole f s).state.pic = s.pic := by
  unfold irqConsole
  split
  · rfl
  · obtain ⟨-, -, -, -, -, -, -, pic, -⟩ := (hf (s.setLock .irq)).kept
    exact pic

theorem forwardKey_pic (ev : Option KeyEvent) (s : State) : (forwardKey ev s).state.pic = s.pic := by
  cases ev with
  | none => rfl
  | some e => exact irqConsole_pic (consoleStep_strOp _) s

/-- A device handler that is done has acknowledged last, with the controllers as at its entry (41 R192, R193). -/
theorem deviceHandler_done {h : Handler} {v : Byte} (device : h = .timer ∨ h = .keyboard)
    (r : runHandler h v s = .done t) : ∃ u, u.pic = s.pic ∧ acknowledge v u = .done t := by
  rcases device with rfl | rfl
  · exact ⟨s, rfl, r⟩
  · obtain ⟨u, forwarded, acked⟩ := Ran.andThen_eq_done r
    have pic := forwardKey_pic (Config.decode (decoderStateOf s.dstate) s.kbdRead.1).2
      (s.kbdRead.2.setDstate (.ready (Config.decode (decoderStateOf s.dstate) s.kbdRead.1).1))
    rw [forwarded] at pic
    exact ⟨u, pic, acked⟩

/-- A trap that leaves the system live has returned from its handler (60_exceptions R231, R233). -/
theorem trapBody_of_live {h : Handler} {v : Byte} (live : (trapBody v h s).sys.live = true) :
    ∃ t, runHandler h v (trapEntry v s) = .done t ∧ trapBody v h s = trapReturn s.intEnable t := by
  have ordered := orderly_runHandler h v (trapEntry v s)
  unfold trapBody at live ⊢
  cases e : runHandler h v (trapEntry v s) with
  | done t => exact ⟨t, rfl, rfl⟩
  | stopped t =>
    rw [e] at ordered live
    cases ordered with
    | stopped _ _ dead => change t.sys.live = true at live; rw [dead] at live; cases live

theorem doubleFaultHandler_not_done : doubleFaultHandler s ≠ .done t := by
  intro h
  obtain ⟨u, -, halted⟩ := Ran.andThen_eq_done h
  cases halted

/-- The empty-slot path stops the system (60_exceptions R225). -/
theorem emptySlot_dead (s : State) : (emptySlot s).sys.live = false := by
  unfold emptySlot
  split
  · by_contra live
    obtain ⟨t, done, -⟩ := trapBody_of_live (Bool.eq_true_of_not_eq_false live)
    exact doubleFaultHandler_not_done done
  · rfl

/-- A trap through an empty slot stops the system (60_exceptions R225). -/
theorem trap_empty_dead {v : Byte} (empty : s.slotOf v = .empty) : (trap v s).sys.live = false := by
  rw [trap_empty empty]; exact emptySlot_dead _

/-- A trap to a device's handler leaves a live system with no line in service (70_reset R279). -/
theorem trap_device_isr {v : Byte} {h : Handler} {alt : Bool} {l : Nat} (device : h = .timer ∨ h = .keyboard)
    (bound : s.slotOf v = .bound h alt) (hl : l < 8) (only : s.pic.isr = setBit 0#16 l)
    (live : (trap v s).sys.live = true) : (trap v s).pic.isr = 0#16 := by
  rw [trap_bound bound] at live ⊢
  obtain ⟨t, done, e⟩ := trapBody_of_live live
  obtain ⟨u, pic, acked⟩ := deviceHandler_done device done
  rw [e, trapReturn_pic]
  exact acknowledge_done_isr hl (by rw [pic]; exact only) acked

/-- A breakpoint changes nothing at the controllers (41 R194). -/
theorem trap_breakpoint_isr {v : Byte} {alt : Bool} (bound : s.slotOf v = .bound .breakpoint alt)
    (live : (trap v s).sys.live = true) : (trap v s).pic.isr = s.pic.isr := by
  rw [trap_bound bound] at live ⊢
  obtain ⟨t, done, e⟩ := trapBody_of_live live
  have pic : (printContext (trapEntry v (s.log (.deliver v)))).state.pic = s.pic :=
    irqConsole_pic (consoleStep_strOp _) _
  change printContext _ = _ at done
  rw [done] at pic
  change t.pic = s.pic at pic
  rw [e, trapReturn_pic, pic]

/-- A line that is delivered was pending (41 R191). -/
theorem firstDeliverable_pending {p : Pic} {l : Nat} (h : firstDeliverable p = some l) : p.irr.getLsbD l = true := by
  have ready : deliverable p l = true := List.find?_some h
  unfold deliverable at ready
  rw [Bool.and_eq_true, Bool.and_eq_true] at ready
  exact ready.1.1

/-- The vectors of the two devices are outside the reserved ones (41 R182; 60_exceptions R224). -/
theorem vectorOf_device {p : Pic} {l : Nat} (valid : remapValid p.off1 p.off2 = true) (hl : l < 2) :
    32 ≤ (vectorOf p l).toNat := by
  have low : p.off1.toNat % 8 = 0 ∧ 32 ≤ p.off1.toNat := by
    simp only [remapValid, Bool.and_eq_true, decide_eq_true_eq] at valid
    exact ⟨valid.1.1.1.1, valid.1.1.2⟩
  have fits := p.off1.isLt
  unfold vectorOf
  rw [if_neg (by omega), BitVec.toNat_add, BitVec.toNat_ofNat]
  omega

/-- What a device's vector finds in the table `INSTALL` builds: a device's handler or nothing (41 R181). -/
theorem builtTable_device {v : Byte} (ok : s.par.Ok) (hi : s.installed = true) (ht : s.vt = builtTable s.par)
    (hv : 32 ≤ v.toNat) :
    s.slotOf v = .empty ∨ ∃ h alt, (h = .timer ∨ h = .keyboard) ∧ s.slotOf v = .bound h alt := by
  have df : s.par.dfVector ≠ v := fun e => by have := ok.df_reserved; rw [e] at this; omega
  have bp : s.par.bpVector ≠ v := fun e => by have := ok.bp_reserved; rw [e] at this; omega
  rw [builtTable_slotOf hi ht v, if_neg df, if_neg bp]
  split
  · exact .inr ⟨.keyboard, false, .inr rfl, rfl⟩
  · split
    · exact .inr ⟨.timer, false, .inl rfl, rfl⟩
    · exact .inl rfl

/-- What `BP_VECTOR` finds in the table `INSTALL` builds (41 R181). -/
theorem builtTable_breakpoint (ok : s.par.Ok) (hi : s.installed = true) (ht : s.vt = builtTable s.par) :
    s.slotOf s.par.bpVector = .bound .breakpoint false := by
  have reserved := ok.bp_reserved
  have kbd : Config.kbdVector ≠ s.par.bpVector := fun e => by
    rw [← e] at reserved; exact absurd reserved (by decide)
  have timer : Config.timerVector ≠ s.par.bpVector := fun e => by
    rw [← e] at reserved; exact absurd reserved (by decide)
  rw [builtTable_slotOf hi ht, if_neg kbd, if_neg timer, if_neg ok.vectors_distinct.symm, if_pos rfl]

end Sys2Proof.Machine
end

section
/-! PROOFS. Every step keeps the system's invariant (spec/10_state.md R20 to R37; spec/41_interrupt_control.md R182 to
R191; spec/70_reset_and_hazards.md R279). -/

namespace Sys2Proof.Machine

/-- The invariant as it holds between a command and the check for the end of the stream: a running system may have
no command left (10_state R27). `State.Unsettled.settle` and `State.Unsettled.inv` tie it to `State.Inv`. -/
structure State.Unsettled (s : State) : Prop where
  params : s.par.Ok
  buf_wf : Memory.wf s.buf
  buf_window : Memory.inWindow s.par.consoleBase s.buf
  pc_in_stream : s.cmdPc ≤ s.stream.length
  fault_iff : s.fault.isSome = true ↔ s.sys = .faulted
  idle_pc : s.sys = .idle → s.cmdPc = s.stream.length
  ctx_normal : s.ctx = .normal
  lock_not_irq : s.lock ≠ .irq
  locked_masked : s.lock = .normal → s.intEnable = false
  enabled_booted : s.intEnable = true ∨ s.savedIf = true → s.installed = true ∧ s.pic.remapped = true
  table_built : s.installed = true → s.vt = builtTable s.par
  table_empty : s.installed = false → s.vt = Vector.replicate 256 .empty
  offsets_valid : s.pic.remapped = true → remapValid s.pic.off1 s.pic.off2 = true
  none_in_service : s.sys.live = true → s.pic.isr = 0#16
  device_lines : ∀ l, 2 ≤ l → s.pic.irr.getLsbD l = false

variable {s t u : State}

theorem State.Inv.unsettled (h : s.Inv) : s.Unsettled := { h with }

theorem State.Unsettled.inv (h : s.Unsettled) (more : s.sys = .running → s.cmdPc < s.stream.length) : s.Inv :=
  { h with running_pc := more }

/-- A live system has no fault recorded (60_exceptions R220). -/
theorem State.Unsettled.no_fault (h : s.Unsettled) (live : s.sys.live = true) : s.fault = none := by
  have unfaulted : ¬s.fault.isSome = true := fun f => by rw [h.fault_iff.1 f] at live; cases live
  simpa using unfaulted

/-- The check for the end of the stream restores the invariant (10_state R27). -/
theorem State.Unsettled.settle (h : s.Unsettled) : s.settle.Inv := by
  rcases s.settle_cases with ⟨run, past, e⟩ | ⟨more, e⟩
  · have live : s.sys.live = true := by rw [run]; rfl
    have fault : s.fault = none := h.no_fault live
    rw [e]
    exact { h with
      fault_iff := by simp [fault]
      running_pc := nofun
      idle_pc := fun _ => le_antisymm h.pc_in_stream past
      none_in_service := fun _ => h.none_in_service live }
  · rw [e]; exact h.inv more

/-! ## Operations that keep it -/

theorem State.Inv.moved (h : s.Inv) : s.moved.Inv := { h with }

theorem State.Unsettled.advance (h : s.Unsettled) (run : s.sys = .running) {n : Nat}
    (within : s.cmdPc + n ≤ s.stream.length) : (s.advance n).Unsettled :=
  { h with
    pc_in_stream := within
    idle_pc := fun idle => by rw [State.advance_sys, run] at idle; cases idle }

/-- `RAISE` sets a device's line only (41 R190). -/
theorem State.Inv.raiseLine (h : s.Inv) (l : DeviceLine) : (raiseLine l s).Inv :=
  { h with
    device_lines := fun j hj => by
      have device : l.number < 2 := by cases l <;> decide
      change (setBit s.pic.irr l.number).getLsbD j = false
      rw [setBit_getLsbD _ _ _ (by omega), h.device_lines j hj, Bool.false_or]
      exact beq_eq_false_iff_ne.2 (by omega) }

/-- What a trap, a console operation, a fault, a halt or a deadlock leaves in a live system meets the invariant, once no
line is left in service in a system still live. -/
theorem State.Unsettled.of_trapStep (h : s.Unsettled) (live : s.sys.live = true) (c : TrapStep s t)
    (k : TrapControl s t) (served : t.sys.live = true → t.pic.isr = 0#16) : t.Unsettled := by
  have pc : t.cmdPc = s.cmdPc := by rw [c.frame]
  have stream : t.stream = s.stream := by rw [c.frame]
  have installed : t.installed = s.installed := by rw [c.frame]
  have vt : t.vt = s.vt := by rw [c.frame]
  have savedIf : t.savedIf = s.savedIf := by rw [c.frame]
  have remapped : t.pic.remapped = s.pic.remapped := by rw [c.pic]
  have lock : t.lock = s.lock := k.lock h.lock_not_irq
  exact {
    params := by rw [c.par]; exact h.params
    buf_wf := c.wf h.buf_wf
    buf_window := by rw [c.par]; exact c.window h.buf_window
    pc_in_stream := by rw [pc, stream]; exact h.pc_in_stream
    fault_iff := by
      cases k.run with
      | kept sys fault => rw [sys, fault]; exact h.fault_iff
      | faulted sys fault => exact iff_of_true fault sys
      | stopped _ unfaulted fault => rw [fault, h.no_fault live]; exact iff_of_false nofun unfaulted
    idle_pc := fun idle => by
      have sys := (k.run.of_live (by rw [idle]; rfl)).1
      rw [pc, stream]; exact h.idle_pc (sys ▸ idle)
    ctx_normal := k.ctx h.ctx_normal
    lock_not_irq := by rw [lock]; exact h.lock_not_irq
    locked_masked := fun held => Bool.eq_false_iff.2 fun on =>
      Bool.eq_false_iff.1 (h.locked_masked (lock ▸ held)) (k.intEnable on)
    enabled_booted := fun on => by
      rw [installed, remapped]; exact h.enabled_booted (on.imp k.intEnable fun saved => savedIf ▸ saved)
    table_built := by rw [installed, vt, c.par]; exact h.table_built
    table_empty := by rw [installed, vt]; exact h.table_empty
    offsets_valid := by rw [c.pic]; exact h.offsets_valid
    none_in_service := served
    device_lines := by rw [c.pic]; exact h.device_lines }

theorem State.Unsettled.raiseFault (h : s.Unsettled) (live : s.sys.live = true) (code : FaultCode) :
    (s.raiseFault code).Unsettled :=
  h.of_trapStep live (trapStep_raiseFault s code) (trapControl_raiseFault s code) nofun

theorem State.Unsettled.halt (h : s.Unsettled) (live : s.sys.live = true) (cause : HaltCause) :
    (s.halt cause).Unsettled :=
  h.of_trapStep live (trapStep_halt s cause) ⟨id, fun _ => rfl, id, sysStep_halt s cause⟩ nofun

theorem State.Unsettled.becomeStuck (h : s.Unsettled) (live : s.sys.live = true) (reason : StuckReason) :
    (s.becomeStuck reason).Unsettled :=
  h.of_trapStep live (trapStep_becomeStuck s reason) ⟨id, fun _ => rfl, id, sysStep_becomeStuck s reason⟩ nofun

theorem ConsoleStep.trapControl (c : ConsoleStep s t) : TrapControl s t := by
  obtain ⟨-, -, -, fault, intEnable, -, -, -, lock, -, -, sys, ctx, -⟩ := c.kept
  exact ⟨fun on => intEnable ▸ on, fun _ => lock, fun normal => ctx.trans normal, .kept sys fault⟩

/-- A console command (41 R186). -/
theorem State.Unsettled.console (h : s.Unsettled) (run : s.sys = .running) (c : ConsoleStep s t) {n : Nat}
    (within : s.cmdPc + n ≤ s.stream.length) : (t.advance n).Unsettled := by
  have live : s.sys.live = true := by rw [run]; rfl
  obtain ⟨-, stream, pc, -, -, -, -, pic, -, -, -, sys, -⟩ := c.kept
  have written : t.Unsettled :=
    h.of_trapStep live c.trapStep c.trapControl fun _ => by rw [pic]; exact h.none_in_service live
  exact written.advance (sys.trans run) (by rw [pc, stream]; exact within)

/-- `INSTALL` (41 R181). -/
theorem State.Unsettled.install (h : s.Unsettled) : (s.setTable (builtTable s.par)).Unsettled :=
  { h with
    enabled_booted := fun on => ⟨rfl, (h.enabled_booted on).2⟩
    table_built := fun _ => rfl
    table_empty := nofun }

/-- `REMAP` with valid bases (41 R182). -/
theorem State.Unsettled.remap (h : s.Unsettled) {a b : Byte} (valid : remapValid a b = true) :
    (s.setPic { s.pic with off1 := a, off2 := b, remapped := true }).Unsettled :=
  { h with
    enabled_booted := fun on => ⟨(h.enabled_booted on).1, rfl⟩
    offsets_valid := fun _ => valid }

/-- `ENABLE` after `INSTALL` and `REMAP`, outside a section (41 R183). -/
theorem State.Unsettled.enable (h : s.Unsettled) (table : s.installed = true) (offsets : s.pic.remapped = true)
    (unlocked : s.lock ≠ .normal) : (s.setIntEnable true).Unsettled :=
  { h with
    locked_masked := fun held => absurd held unlocked
    enabled_booted := fun _ => ⟨table, offsets⟩ }

/-- `SECTION_BEGIN` on a free lock (41 R184). -/
theorem State.Unsettled.sectionBegin (h : s.Unsettled) :
    (((s.setSavedIf s.intEnable).setIntEnable false).setLock .normal).Unsettled :=
  { h with
    lock_not_irq := nofun
    locked_masked := fun _ => rfl
    enabled_booted := fun on => h.enabled_booted (.inl (on.resolve_left nofun)) }

/-- `SECTION_END` (41 R185). -/
theorem State.Unsettled.sectionEnd (h : s.Unsettled) : ((s.setLock .free).setIntEnable s.savedIf).Unsettled :=
  { h with
    lock_not_irq := nofun
    locked_masked := nofun
    enabled_booted := fun on => h.enabled_booted (.inr (on.elim id id)) }

/-! ## Traps -/

/-- A breakpoint's trap: to its handler, or before `INSTALL` to the empty slot (41 R188; 60_exceptions R225). -/
theorem State.Unsettled.breakpoint (h : s.Unsettled) (live : s.sys.live = true) :
    (trap s.par.bpVector s).Unsettled := by
  refine h.of_trapStep live (trapStep_trap _ s) (trapControl_trap _ s) fun returned => ?_
  by_cases table : s.installed = true
  · have bound := builtTable_breakpoint h.params table (h.table_built table)
    rw [trap_breakpoint_isr bound returned]
    exact h.none_in_service live
  · have empty : s.slotOf s.par.bpVector = .empty := if_neg table
    rw [trap_empty_dead empty] at returned
    cases returned

/-- Only device lines are pending, so only a device's line is delivered (41 R190, R191). -/
theorem State.Inv.delivers_device (h : s.Inv) {l : Nat} (first : firstDeliverable s.pic = some l) : l < 2 := by
  by_contra other
  have pending := firstDeliverable_pending first
  rw [h.device_lines l (by omega)] at pending
  cases pending

/-- A delivery whose handler returns has ended the service of its line (41 R191; 70_reset R279). -/
theorem State.Inv.delivery_served (h : s.Inv) {l : Nat} (device : l < 2) (live : s.sys.live = true)
    (on : s.intEnable = true) (returned : (trap (vectorOf s.pic l) (s.setPic (takeLine s.pic l))).sys.live = true) :
    (trap (vectorOf s.pic l) (s.setPic (takeLine s.pic l))).pic.isr = 0#16 := by
  obtain ⟨table, offsets⟩ := h.enabled_booted (.inl on)
  have only : (s.setPic (takeLine s.pic l)).pic.isr = setBit 0#16 l := by
    change (if 8 ≤ l then _ else setBit s.pic.isr l) = _
    rw [if_neg (by omega), h.none_in_service live]
  have vector := vectorOf_device (h.offsets_valid offsets) device
  rcases builtTable_device (s := s.setPic (takeLine s.pic l)) h.params table (h.table_built table) vector with
    empty | ⟨handler, alt, theirs, bound⟩
  · rw [trap_empty_dead empty] at returned; cases returned
  · exact trap_device_isr theirs bound (by omega) only returned

/-- With its request taken but not yet in service, the state still meets the invariant (41 R191). -/
theorem State.Inv.requestTaken (h : s.Inv) (l : Nat) : (s.setPic { s.pic with irr := clearBit s.pic.irr l }).Inv :=
  { h with
    device_lines := fun j hj => by
      change (clearBit s.pic.irr l).getLsbD j = false
      rw [clearBit_getLsbD, h.device_lines j hj, Bool.false_and] }

/-- `TrapStep` leaves `ISR` open, so that it does not see whether the line taken is in service already. -/
theorem TrapStep.of_takeLine {l : Nat} (c : TrapStep (s.setPic (takeLine s.pic l)) t) :
    TrapStep (s.setPic { s.pic with irr := clearBit s.pic.irr l }) t :=
  ⟨c.frame, c.history, c.wf, c.window, c.outside⟩

theorem TrapControl.of_takeLine {l : Nat} (k : TrapControl (s.setPic (takeLine s.pic l)) t) :
    TrapControl (s.setPic { s.pic with irr := clearBit s.pic.irr l }) t :=
  ⟨k.intEnable, k.lock, k.ctx, k.run.after_kept rfl rfl⟩

/-- `DELIVER`: the line taken is a device's, and its handler ends its service or the system stops (41 R191; 70_reset
R279). -/
theorem State.Inv.deliver (h : s.Inv) : (deliver s).Inv := by
  rcases deliver_cases s with e | ⟨l, live, -, on, -, first, e⟩
  · rw [e]; exact h
  · have served := h.delivery_served (h.delivers_device first) live on
    have kept := trapStep_trap (vectorOf s.pic l) (s.setPic (takeLine s.pic l))
    have control := trapControl_trap (vectorOf s.pic l) (s.setPic (takeLine s.pic l))
    rw [e]
    refine ((h.requestTaken l).unsettled.of_trapStep live kept.of_takeLine control.of_takeLine served).inv fun run => ?_
    have sys : s.sys = .running := (control.run.of_running run).1 ▸ run
    rw [kept.frame]
    exact h.running_pc sys

/-! ## Commands and steps -/

/-- A command that lies within the stream keeps the invariant up to the check for the end of the stream. -/
theorem exec_unsettled {i : Instr} (h : s.Inv) (run : s.sys = .running)
    (within : s.cmdPc + i.length ≤ s.stream.length) (r : exec i s = .next u) : u.Unsettled := by
  have live : s.sys.live = true := by rw [run]; rfl
  have k := h.unsettled
  cases exec_cases r with
  | console f loc c e =>
    rw [e, normalConsole_eq loc (c s) h.lock_not_irq]
    exact k.console run (c s) within
  | faulted code e => rw [e]; exact k.raiseFault live code
  | halted e => rw [e]; exact k.halt live _
  | stuck e => rw [e]; exact k.becomeStuck live _
  | installed _ e => rw [e]; exact k.install.advance run within
  | remapped a b _ valid e => rw [e]; exact (k.remap valid).advance run within
  | enabled table offsets unlocked e => rw [e]; exact (k.enable table offsets unlocked).advance run within
  | begun _ e => rw [e]; exact k.sectionBegin.advance run within
  | ended _ e => rw [e]; exact k.sectionEnd.advance run within
  | trapped e => rw [e]; exact (k.advance run within).breakpoint live

/-- Settles O11: a raise, a delivery and a command each keep the invariant, the command up to the check for the end of
the stream that its step ends with. -/
theorem stepKeepsTheInvariant : Obligations.StepKeepsTheInvariant := by
  intro s t h r
  have moved := h.moved
  cases step_cases r with
  | raised _ _ l e => rw [e]; exact moved.raiseLine l
  | delivered _ _ e => rw [e]; exact moved.deliver
  | command _ live c =>
    cases c with
    | ended _ e => rw [e]; exact moved.unsettled.settle
    | ran run x i rest d u r e =>
      rw [e]; exact (exec_unsettled moved run (fetched_within_stream d x.le) r).settle
    | rejected _ _ code _ e =>
      rw [e]; exact (moved.unsettled.raiseFault live code).inv nofun

end Sys2Proof.Machine
end

section
/-! PROOFS. The entries of `EV` replayed (spec/20_memory.md R65 to R71): what each operation adds to the history accounts
for what it does to the buffer and the display's cursor registers. -/

namespace Sys2Proof.Machine

/-- The entries that `t` adds to the history of `s`, replayed from what the display sees in `s`, give what it sees in
`t`. -/
structure Replays (s t : State) : Prop where
  par : t.par = s.par
  replay : ∃ es, t.EV = s.EV ++ es ∧ t.view = s.view.afterAll s.par es

/-- An operation that ends, done or stopped, in a state its entries of `EV` account for. -/
def ReplayRun (f : State → Ran) : Prop := ∀ s, Replays s (f s).state

variable {s t u : State}

/-- A port write as the display sees it (20_memory R71). -/
theorem View.after_portW (p : Params) (v : View) (port : Word) (x : Byte) :
    v.after p (.portW port x) =
      if port = p.cursorIndexPort then { v with crtcIdx := x }
      else if port = p.cursorDataPort then { v with hwcur := cursorData p v.crtcIdx v.hwcur x }
      else v := rfl

theorem View.afterAll_append (p : Params) (v : View) (es fs : List Event) :
    v.afterAll p (es ++ fs) = (v.afterAll p es).afterAll p fs := List.foldl_append

/-- An update of registers the display does not see. -/
theorem Replays.registers (par : t.par = s.par) (hist : t.hist = s.hist) (view : t.view = s.view) : Replays s t :=
  ⟨par, [], by rw [State.EV, hist, List.append_nil, State.EV], view⟩

/-- One access (20_memory R66). -/
theorem Replays.access (e : Event) (par : t.par = s.par) (hist : t.hist = e :: s.hist)
    (view : t.view = s.view.after s.par e) : Replays s t :=
  ⟨par, [e], by rw [State.EV, hist, List.reverse_cons, State.EV], view⟩

theorem Replays.refl (s : State) : Replays s s := .registers rfl rfl rfl

theorem Replays.trans (h : Replays s t) (k : Replays t u) : Replays s u := by
  obtain ⟨es, ev, view⟩ := h.replay
  obtain ⟨fs, ev', view'⟩ := k.replay
  refine ⟨k.par.trans h.par, es ++ fs, ?_, ?_⟩
  · rw [ev', ev, List.append_assoc]
  · rw [view', view, h.par, View.afterAll_append]

theorem Replays.foldl {α : Type} {f : State → α → State} (hf : ∀ s x, Replays s (f s x)) (xs : List α) (s : State) :
    Replays s (xs.foldl f s) := by
  induction xs generalizing s with
  | nil => exact .refl s
  | cons x xs ih => exact (hf s x).trans (ih (f s x))

theorem ReplayRun.andThen {f g : State → Ran} (hf : ReplayRun f) (hg : ReplayRun g) :
    ReplayRun fun s => (f s).andThen g := by
  intro s
  have first := hf s
  change Replays s ((f s).andThen g).state
  cases e : f s with
  | done t => rw [e] at first; exact first.trans (hg t)
  | stopped t => rw [e] at first; exact first

/-! ## The console -/

theorem replays_cellWrite (s : State) (r : Row) (c : Col) (x : GlyphCell) : Replays s (s.cellWrite r c x) :=
  .access (.cellW r c x.glyph x.attr) rfl rfl rfl

/-- A write to a cursor port changes the display's registers as R71 says, a write to any other port changes nothing. -/
theorem replays_portWrite (s : State) (port : Word) (v : Byte) : Replays s (s.portWrite port v) := by
  have par : (s.portWrite port v).par = s.par := (consoleStep_portWrite s port v).par
  refine .access (.portW port v) par (portWrite_hist s port v) ?_
  rw [View.after_portW]
  unfold State.portWrite
  split
  · rfl
  · split <;> rfl

theorem replays_setCursor (s : State) (r : Row) (c : CurCol) : Replays s (s.setCursor r c) := .registers rfl rfl rfl

theorem replays_clearRowOp (r : Row) (s : State) : Replays s (clearRowOp r s) :=
  .foldl (fun t c => replays_cellWrite t r c t.blank) allCols s

theorem replays_scrollCell (r : Row) (s : State) (c : Col) : Replays s (scrollCell r s c) := by
  have readLogged : Replays s (s.log (.cellR r c)) := .access (.cellR r c) rfl rfl rfl
  exact readLogged.trans (replays_cellWrite _ _ _ _)

theorem replays_scrollRow (s : State) (r : Row) : Replays s (scrollRow s r) := .foldl (replays_scrollCell r) allCols s

theorem replays_scroll (s : State) : Replays s (scroll s) :=
  (Replays.foldl replays_scrollRow scrollRows s).trans (replays_clearRowOp 24 _)

theorem replays_newlineOp (s : State) : Replays s (newlineOp s) := by
  unfold newlineOp
  split
  · exact replays_setCursor s _ _
  · exact (replays_scroll s).trans (replays_setCursor _ _ _)

theorem replays_placeAt (g : Byte) (c : Col) (s : State) : Replays s (placeAt g c s) :=
  (replays_cellWrite s _ _ _).trans (replays_setCursor _ _ _)

theorem replays_place (g : Byte) (s : State) : Replays s (place g s) := by
  unfold place
  split
  · exact replays_placeAt g _ s
  · exact (replays_newlineOp s).trans (replays_placeAt g _ _)

theorem replays_backspaceOp (s : State) : Replays s (backspaceOp s) := by
  unfold backspaceOp
  split
  · exact .refl s
  · split <;> exact (replays_setCursor s _ _).trans (replays_cellWrite _ _ _ _)

theorem replays_byteOp (s : State) (b : Byte) : Replays s (byteOp s b) := by
  unfold byteOp
  split
  · exact replays_place b s
  · exact replays_newlineOp s
  · exact replays_backspaceOp s
  · exact replays_place _ s

theorem replays_sync (s : State) : Replays s (sync s) :=
  (((replays_portWrite s _ _).trans (replays_portWrite _ _ _)).trans (replays_portWrite _ _ _)).trans
    (replays_portWrite _ _ _)

theorem replays_strOp (bs : List Byte) (s : State) : Replays s (strOp bs s) :=
  (Replays.foldl replays_byteOp bs s).trans (replays_sync _)

theorem Replays.advance (h : Replays s t) (n : Nat) : Replays s (t.advance n) := h.trans (.registers rfl rfl rfl)

/-- The console lock is no register of the display's (41 R186). -/
theorem replays_normalConsole {f : State → State} (hf : ∀ t, Replays t (f t)) (s : State) :
    Replays s (normalConsole f s) := by
  unfold normalConsole
  split
  · exact hf s
  · have locked : Replays s ((s.setIntEnable false).setLock .normal) := .registers rfl rfl rfl
    exact (locked.trans (hf _)).trans (.registers rfl rfl rfl)

/-! ## Handlers and traps -/

theorem replays_raiseFault (s : State) (code : FaultCode) : Replays s (s.raiseFault code) :=
  .access (.fault code) rfl rfl rfl

theorem replays_halt (s : State) (cause : HaltCause) : Replays s (s.halt cause) := .access (.halt cause) rfl rfl rfl

theorem replays_becomeStuck (s : State) (reason : StuckReason) : Replays s (s.becomeStuck reason) :=
  .registers rfl rfl rfl

theorem replayRun_irqConsole {f : State → State} (hf : ∀ t, Replays t (f t)) : ReplayRun (irqConsole f) := by
  intro s
  unfold irqConsole
  split
  · exact replays_becomeStuck s _
  · have locked : Replays s (s.setLock .irq) := .registers rfl rfl rfl
    exact (locked.trans (hf _)).trans (.registers rfl rfl rfl)

theorem replayRun_checkTop (lines : List Nat) (l : Nat) : ReplayRun (checkTop lines l) := by
  intro s
  unfold checkTop
  split
  · exact replays_raiseFault s _
  · split
    · exact .refl s
    · exact replays_raiseFault s _

theorem replayRun_ackLine (w : Controller) (lines : List Nat) (l : Nat) : ReplayRun (ackLine w lines l) :=
  (replayRun_checkTop lines l).andThen fun _ => .access (.eoi w) rfl rfl rfl

theorem replayRun_acknowledge (v : Byte) : ReplayRun (acknowledge v) := by
  intro s
  unfold acknowledge
  split
  · exact replays_raiseFault s _
  · split
    · exact (replayRun_ackLine _ _ _).andThen (replayRun_ackLine _ _ _) s
    · split
      · exact replayRun_ackLine _ _ _ s
      · exact replays_raiseFault s _

theorem replayRun_printContext : ReplayRun printContext := fun s =>
  Replays.trans (t := s.countCtxDraw) (.registers rfl rfl rfl) (replayRun_irqConsole (replays_strOp _) _)

theorem replayRun_forwardKey (ev : Option KeyEvent) : ReplayRun (forwardKey ev) := by
  intro s
  cases ev with
  | none => exact .refl s
  | some e => exact replayRun_irqConsole (replays_strOp _) s

theorem replayRun_keyboardHandler (v : Byte) : ReplayRun (keyboardHandler v) := by
  intro s
  have decoded : Replays s (s.kbdRead.2.setDstate (.ready (Config.decode (decoderStateOf s.dstate) s.kbdRead.1).1)) :=
    .access (.portR s.par.kbdDataPort s.kbdRead.1) rfl rfl rfl
  exact decoded.trans ((replayRun_forwardKey _).andThen (replayRun_acknowledge v) _)

theorem replayRun_doubleFaultHandler : ReplayRun doubleFaultHandler :=
  replayRun_printContext.andThen fun s => replays_halt s .doubleFault

/-- What the four handlers write is in `EV` (41 R192 to R195). -/
theorem replayRun_runHandler (h : Handler) (v : Byte) : ReplayRun (runHandler h v) := by
  intro s
  cases h with
  | breakpoint => exact replayRun_printContext s
  | doubleFault => exact replayRun_doubleFaultHandler s
  | timer => exact replayRun_acknowledge v s
  | keyboard => exact replayRun_keyboardHandler v s

theorem replays_trapBody (v : Byte) (h : Handler) (s : State) : Replays s (trapBody v h s) := by
  have entered : Replays s (trapEntry v s) := .registers rfl rfl rfl
  have run := entered.trans (replayRun_runHandler h v (trapEntry v s))
  unfold trapBody
  cases e : runHandler h v (trapEntry v s) with
  | done t => rw [e] at run; exact run.trans (.registers rfl rfl rfl)
  | stopped t => rw [e] at run; exact run.trans (.registers rfl rfl rfl)

theorem replays_emptySlot (s : State) : Replays s (emptySlot s) := by
  unfold emptySlot
  split
  · exact replays_trapBody _ _ s
  · exact replays_raiseFault s _

theorem replays_trap (v : Byte) (s : State) : Replays s (trap v s) := by
  have logged : Replays s (s.log (.deliver v)) := .access (.deliver v) rfl rfl rfl
  unfold trap
  split
  · exact logged.trans (replays_emptySlot _)
  · exact logged.trans (replays_trapBody _ _ _)

theorem replays_deliver (s : State) : Replays s (deliver s) := by
  rcases deliver_cases s with e | ⟨l, -, -, -, -, -, e⟩
  · rw [e]; exact .refl s
  · have taken : Replays s (s.setPic (takeLine s.pic l)) := .registers rfl rfl rfl
    rw [e]; exact taken.trans (replays_trap _ _)

/-! ## Commands and steps -/

theorem replays_execClearRow {r : Byte} (h : exec (.clearRow r) s = .next u) : Replays s u := by
  change execClearRow r s = _ at h
  unfold execClearRow at h
  split at h
  · cases h; exact replays_raiseFault s _
  · rename_i q _
    cases h; exact replays_normalConsole (fun t => (replays_clearRowOp q t).advance _) s

theorem replays_execInstall (h : exec .install s = .next u) : Replays s u := by
  change execInstall s = _ at h
  unfold execInstall at h
  split at h
  · cases h; exact replays_raiseFault s _
  · cases h; exact .registers rfl rfl rfl

theorem replays_execRemap {a b : Byte} (h : exec (.remap a b) s = .next u) : Replays s u := by
  change execRemap a b s = _ at h
  unfold execRemap at h
  split at h
  · cases h; exact replays_raiseFault s _
  · split at h
    · cases h; exact replays_halt s _
    · cases h; exact .registers rfl rfl rfl

theorem replays_execEnable (h : exec .enable s = .next u) : Replays s u := by
  change execEnable s = _ at h
  unfold execEnable at h
  split at h
  · cases h; exact replays_raiseFault s _
  · split at h
    · cases h; exact replays_raiseFault s _
    · cases h; exact .registers rfl rfl rfl

theorem replays_execSectionBegin (h : exec .sectionBegin s = .next u) : Replays s u := by
  change execSectionBegin s = _ at h
  unfold execSectionBegin at h
  split at h
  · cases h; exact replays_becomeStuck s _
  · cases h; exact .registers rfl rfl rfl

theorem replays_execSectionEnd (h : exec .sectionEnd s = .next u) : Replays s u := by
  change execSectionEnd s = _ at h
  unfold execSectionEnd at h
  split at h
  · cases h; exact .registers rfl rfl rfl
  · cases h; exact replays_raiseFault s _

/-- What a command writes is in `EV`. `ExecTo` leaves open which console operation ran, so this goes by command. -/
theorem replays_exec {i : Instr} (h : exec i s = .next u) : Replays s u := by
  cases i with
  | writeByte b => cases h; exact replays_normalConsole (fun t => (replays_byteOp t b).advance _) s
  | writeStr bs => cases h; exact replays_normalConsole (fun t => (replays_strOp bs t).advance _) s
  | backspace => cases h; exact replays_normalConsole (fun t => (replays_backspaceOp t).advance _) s
  | newLine => cases h; exact replays_normalConsole (fun t => (replays_newlineOp t).advance _) s
  | clearRow r => exact replays_execClearRow h
  | install => exact replays_execInstall h
  | remap a b => exact replays_execRemap h
  | enable => exact replays_execEnable h
  | sectionBegin => exact replays_execSectionBegin h
  | sectionEnd => exact replays_execSectionEnd h
  | breakpoint => cases h; exact ((Replays.refl s).advance _).trans (replays_trap _ _)

theorem Replays.settle (h : Replays s t) : Replays s t.settle := by
  rcases t.settle_cases with ⟨-, -, e⟩ | ⟨-, e⟩
  · rw [e]; exact h.trans (.registers rfl rfl rfl)
  · rw [e]; exact h

/-- What a step writes is in `EV`. -/
theorem replays_step (h : step s = .next t) : Replays s t := by
  have moved : Replays s s.moved := .registers rfl rfl rfl
  cases step_cases h with
  | raised _ _ l e => rw [e]; exact moved.trans (.registers rfl rfl rfl)
  | delivered _ _ e => rw [e]; exact moved.trans (replays_deliver _)
  | command _ _ c =>
    cases c with
    | ended _ e => rw [e]; exact moved.settle
    | ran _ _ i _ _ u r e => rw [e]; exact (moved.trans (replays_exec r)).settle
    | rejected _ _ code _ e => rw [e]; exact moved.trans (replays_raiseFault _ code)

/-- Settles O15: each operation of the model replays, and a step is made of them. -/
theorem historyAccountsForEveryWrite : Obligations.HistoryAccountsForEveryWrite := by
  intro s t h
  exact (replays_step h).replay

/-! ## Outside the window -/

/-- No entry of `EV` is a write outside the window: a cell's two bytes are inside it (20_memory R61). -/
theorem View.after_read_outside (p : Params) (v : View) (e : Event) {a : Nat}
    (out : a < p.consoleBase ∨ p.consoleBase + 4000 ≤ a) : Memory.read (v.after p e).buf a = Memory.read v.buf a := by
  cases e with
  | cellW r c g x =>
    have lower := cellAddr_lower p.consoleBase r c
    have upper := cellAddr_upper p.consoleBase r c
    exact Memory.read_writeCell_of_ne _ _ (by omega) (by omega)
  | portW port x =>
    rw [View.after_portW]
    split
    · rfl
    · split <;> rfl
  | cellR | portR | deliver | eoi | halt | fault => rfl

theorem View.afterAll_read_outside (p : Params) (v : View) (es : List Event) {a : Nat}
    (out : a < p.consoleBase ∨ p.consoleBase + 4000 ≤ a) :
    Memory.read (v.afterAll p es).buf a = Memory.read v.buf a := by
  induction es generalizing v with
  | nil => rfl
  | cons e es ih => exact (ih (v.after p e)).trans (v.after_read_outside p e out)

/-- Settles O16: the bytes after a step are those its entries of `EV` leave, and none of these is outside the window. -/
theorem bytesOutsideTheWindowNeverChange : Obligations.BytesOutsideTheWindowNeverChange := by
  intro s t a h out
  obtain ⟨es, -, view⟩ := historyAccountsForEveryWrite s t h
  calc Memory.read t.view.buf a
    _ = Memory.read (s.view.afterAll s.par es).buf a := by rw [view]
    _ = Memory.read s.view.buf a := s.view.afterAll_read_outside s.par es out

end Sys2Proof.Machine
end

section
/-! PROOFS. The exact accesses of the console commands (spec/20_memory.md R66; spec/40_console.md R121 to R134). -/

namespace Sys2Proof.Machine

variable {s : State}

theorem State.cellWrite_EV (s : State) (r : Row) (c : Col) (x : GlyphCell) :
    (s.cellWrite r c x).EV = s.EV ++ [.cellW r c x.glyph x.attr] := State.log_EV _ _

/-! ## CLEAR and SCROLL -/

/-- The accesses of `CLEAR(r)` from `s` (40_console R126). -/
def clearTrace (r : Row) (s : State) : List Event := (List.finRange 80).map fun c => .cellW r c 0x20#8 s.color

/-- The accesses of one copy of a scroll from `s` (40_console R125). -/
def copyTrace (r : Row) (s : State) (c : Col) : List Event :=
  [.cellR r c, .cellW (rowAbove r) c (s.cellAt r c).glyph (s.cellAt r c).attr]

theorem clearCols_EV (r : Row) (cs : List Col) (s : State) :
    (cs.foldl (fun t c => t.cellWrite r c t.blank) s).EV = s.EV ++ cs.map fun c => .cellW r c 0x20#8 s.color := by
  induction cs generalizing s with
  | nil => exact (List.append_nil _).symm
  | cons c cs ih =>
    rw [List.foldl_cons, ih, State.cellWrite_EV, List.append_assoc]
    rfl

theorem clearRowOp_EV (r : Row) (s : State) : (clearRowOp r s).EV = s.EV ++ clearTrace r s := clearCols_EV r allCols s

theorem scrollCell_EV (r : Row) (s : State) (c : Col) : (scrollCell r s c).EV = s.EV ++ copyTrace r s c := by
  change ((s.log (.cellR r c)).cellWrite (rowAbove r) c (s.cellAt r c)).EV = _
  rw [State.cellWrite_EV, State.log_EV, List.append_assoc]
  rfl

/-- The row a scroll reads is not the row it writes, so each read still finds the cell of before (40_console R125). -/
theorem scrollCols_EV {r : Row} (hr : 3 ≤ r.val) (cs : List Col) (h : Memory.wf s.buf) :
    (cs.foldl (scrollCell r) s).EV = s.EV ++ cs.flatMap (copyTrace r s) := by
  induction cs generalizing s with
  | nil => exact (List.append_nil _).symm
  | cons c cs ih =>
    have unread : ∀ c', copyTrace r (scrollCell r s c) c' = copyTrace r s c' := fun c' => by
      unfold copyTrace
      rw [scrollCell_cellAt h, if_neg fun e => rowAbove_ne hr e.1.symm]
    rw [List.foldl_cons, ih ((cellStep_scrollCell r s c).wf h), scrollCell_EV, List.flatMap_cons, funext unread,
      List.append_assoc]

theorem scrollRow_EV {r : Row} (hr : 3 ≤ r.val) (h : Memory.wf s.buf) :
    (scrollRow s r).EV = s.EV ++ allCols.flatMap (copyTrace r s) := scrollCols_EV hr allCols h

/-- Rows scrolled in increasing order: none of the rows still to read has been written (40_console R125). -/
theorem scrollRows_EV (rs : List Row) (low : ∀ r ∈ rs, 3 ≤ r.val) (rising : rs.Pairwise (· < ·))
    (h : Memory.wf s.buf) :
    (rs.foldl scrollRow s).EV = s.EV ++ rs.flatMap fun r => allCols.flatMap (copyTrace r s) := by
  induction rs generalizing s with
  | nil => exact (List.append_nil _).symm
  | cons r rs ih =>
    obtain ⟨above, rising⟩ := List.pairwise_cons.1 rising
    have hr : 3 ≤ r.val := low r List.mem_cons_self
    have unread : ∀ q ∈ rs, allCols.flatMap (copyTrace q (scrollRow s r)) = allCols.flatMap (copyTrace q s) := by
      intro q hq
      have below : r.val < q.val := above q hq
      have apart : q ≠ rowAbove r := fun e => by rw [e] at below; simp only [rowAbove] at below; omega
      refine List.flatMap_congr fun c _ => ?_
      unfold copyTrace
      rw [scrollRow_cellAt hr h, if_neg apart]
    rw [List.foldl_cons, ih (fun q hq => low q (List.mem_cons_of_mem _ hq)) rising ((cellStep_scrollRow s r).wf h),
      scrollRow_EV hr h, List.flatMap_cons, List.flatMap_congr unread, List.append_assoc]

/-- `SCROLL()`: the copies of rows 3 to 24, then the clearing of row 24 (40_console R125). -/
theorem scroll_EV (h : Memory.wf s.buf) : (scroll s).EV = s.EV ++ scrollTrace s := by
  have copied := scrollRows_EV scrollRows (by decide) (by decide) h
  have color : (scrollRows.foldl scrollRow s).color = s.color := (CellStep.foldl cellStep_scrollRow scrollRows s).color
  unfold scroll
  rw [clearRowOp_EV, copied, clearTrace, color, List.append_assoc]
  rfl

/-! ## Cursor operations and bytes -/

theorem newlineOp_EV (h : Memory.wf s.buf) : (newlineOp s).EV = s.EV ++ lineTrace s := by
  unfold lineTrace
  by_cases above : s.row.val < 24
  · rw [newlineOp_above above, State.setCursor_EV, if_neg (by omega), List.append_nil]
  · have last : s.row.val = 24 := by have := s.row.isLt; omega
    rw [newlineOp_last last, State.setCursor_EV, scroll_EV h, if_pos last]

theorem backspaceOp_EV (s : State) : (backspaceOp s).EV = s.EV ++ eraseTrace s := by
  unfold backspaceOp eraseTrace
  split
  · exact (List.append_nil _).symm
  · split <;> exact State.cellWrite_EV _ _ _ _

theorem placeAt_EV (g : Byte) (c : Col) (s : State) :
    (placeAt g c s).EV = s.EV ++ [.cellW s.row c g s.color] := State.cellWrite_EV s s.row c ⟨g, s.color⟩

/-- The cell after a pending wrap: column 0 of the row the line advance leaves (40_console R123). -/
theorem nextCell_wrap (wrap : s.col.val = 80) : nextCell s = ((newlineOp s).row, 0) := by
  unfold nextCell
  rw [dif_neg (by omega)]
  by_cases above : s.row.val < 24
  · rw [dif_pos above, newlineOp_above above, State.setCursor_row]
  · have last : s.row.val = 24 := by have := s.row.isLt; omega
    rw [dif_neg above, newlineOp_last last, State.setCursor_row]

theorem nextCell_free (free : s.col.val < 80) : nextCell s = (s.row, ⟨s.col.val, free⟩) := dif_pos free

/-- `PLACE`: a line advance where one is due, then the cell (40_console R123). -/
theorem place_EV (g : Byte) (h : Memory.wf s.buf) :
    (place g s).EV =
      s.EV ++ ((if s.col.val = 80 then lineTrace s else []) ++ [.cellW (nextCell s).1 (nextCell s).2 g s.color]) := by
  by_cases free : s.col.val < 80
  · rw [place_free g free, placeAt_EV, nextCell_free free, if_neg (by omega), List.nil_append]
  · have wrap : s.col.val = 80 := by have := s.col.isLt; omega
    rw [place_wrap g wrap, placeAt_EV, newlineOp_EV h, nextCell_wrap wrap, if_pos wrap, List.append_assoc,
      (cellStep_newlineOp s).color]

/-- A byte that is neither control byte places its glyph (40_console R121, R129). -/
theorem byteOp_glyph {b : Byte} (hn : b ≠ 0x0A#8) (hb : b ≠ 0x08#8) : byteOp s b = place (glyphOf b) s := by
  unfold byteOp glyphOf
  by_cases print : 0x20 ≤ b.toNat ∧ b.toNat ≤ 0x7E
  · rw [filterByte_print print.1 print.2, if_pos print]
  · rw [filterByte_other print hn hb, if_neg print]
    rfl

/-- `BYTE_OP(b)` makes exactly its accesses (40_console R129). -/
theorem byteOp_EV (b : Byte) (h : Memory.wf s.buf) : (byteOp s b).EV = s.EV ++ byteTrace s b := by
  unfold byteTrace
  split
  · rename_i newline
    rw [newline]
    exact newlineOp_EV h
  · rename_i hn
    split
    · rename_i backspace
      rw [backspace]
      exact backspaceOp_EV s
    · rename_i hb
      rw [byteOp_glyph hn hb]
      exact place_EV _ h

/-- The bytes of a string, each from the state the bytes before it leave (40_console R131). -/
theorem bytesOp_EV (bs : List Byte) (h : Memory.wf s.buf) : (bytesOp bs s).EV = s.EV ++ bytesTrace bs s := by
  induction bs generalizing s with
  | nil => exact (List.append_nil _).symm
  | cons b bs ih =>
    change (bytesOp bs (byteOp s b)).EV = _
    rw [ih ((cellStep_byteOp s b).wf h), byteOp_EV b h, List.append_assoc]
    rfl

/-- `SYNC()`: the four port writes, low half first (40_console R128). -/
theorem sync_EV (ok : s.par.Ok) : (sync s).EV = s.EV ++ syncTrace s.par (cursorPos s.row s.col) := by
  rw [sync_eq ok.ports_distinct ok.indices_distinct]
  simp [State.EV, syncTrace]

theorem strOp_EV (bs : List Byte) (h : Memory.wf s.buf) (ok : s.par.Ok) :
    (strOp bs s).EV = s.EV ++ consoleTrace (.writeStr bs) s := by
  have par : (bytesOp bs s).par = s.par := (cellStep_bytesOp bs s).par
  unfold strOp
  rw [sync_EV (by rw [par]; exact ok), bytesOp_EV bs h, par, List.append_assoc]
  rfl

/-! ## Commands -/

theorem consoleTrace_clearRow {r : Byte} (legal : r.toNat < 25) :
    consoleTrace (.clearRow r) s = clearTrace ⟨r.toNat, legal⟩ s := dif_pos legal

theorem consoleTrace_clearRow_range {r : Byte} (range : 25 ≤ r.toNat) :
    consoleTrace (.clearRow r) s = [.fault .rowRange] := dif_neg (Nat.not_lt_of_le range)

/-- `CLEAR_ROW`: the row cleared, or the fault alone (40_console R134). -/
theorem execClearRow_EV (r : Byte) (unlocked : s.lock ≠ .irq) :
    ∃ t, exec (.clearRow r) s = .next t ∧ t.EV = s.EV ++ consoleTrace (.clearRow r) s := by
  by_cases legal : r.toNat < 25
  · refine ⟨_, execClearRow_eq (q := ⟨r.toNat, legal⟩) rfl unlocked, ?_⟩
    rw [State.advance_EV, clearRowOp_EV, consoleTrace_clearRow legal]
  · have range : 25 ≤ r.toNat := Nat.le_of_not_lt legal
    refine ⟨_, execClearRow_range range, ?_⟩
    rw [consoleTrace_clearRow_range range]
    exact State.log_EV _ _

/-- Settles O50: the lock has no net effect, so that a command's accesses are those of its console operation. -/
theorem consoleCommandsMakeExactlyTheirAccesses : Obligations.ConsoleCommandsMakeExactlyTheirAccesses := by
  intro i s console unlocked wf ok
  cases i with
  | writeByte b => exact ⟨_, execWriteByte_eq b unlocked, byteOp_EV b wf⟩
  | writeStr bs => exact ⟨_, execWriteStr_eq bs unlocked, strOp_EV bs wf ok⟩
  | backspace => exact ⟨_, execBackspace_eq unlocked, backspaceOp_EV s⟩
  | newLine => exact ⟨_, execNewLine_eq unlocked, newlineOp_EV wf⟩
  | clearRow r => exact execClearRow_EV r unlocked
  | install | remap | enable | sectionBegin | sectionEnd | breakpoint => cases console

end Sys2Proof.Machine
end

section
/-! PROOFS. The decoder and the encoder are inverse to each other (spec/30_encoding.md R90 to R94, R99). -/

namespace Sys2Proof

/-- One byte holds the length of a payload of at most 255 bytes (30_encoding R91). -/
theorem lengthByte_toNat {n : Nat} (h : n ≤ Config.maxStr) : (BitVec.ofNat 8 n).toNat = n := by
  rw [BitVec.toNat_ofNat]
  exact Nat.mod_eq_of_lt (Nat.lt_succ_of_le h)

/-- Format `S` reads back the payload that was written, whatever follows it (30_encoding R91, R99). -/
theorem decodeS_payload (f : List Byte → Instr) {payload : List Byte} (h : payload.length ≤ Config.maxStr)
    (rest : List Byte) :
    decodeS f (BitVec.ofNat 8 payload.length :: (payload ++ rest)) = .ok (f payload) rest := by
  have enough : payload.length ≤ (payload ++ rest).length := by rw [List.length_append]; omega
  rw [decodeS, lengthByte_toNat h, if_pos enough, List.take_left, List.drop_left]

theorem decode_encode {i : Instr} (fits : i.payloadFits = true) (rest : List Byte) :
    decode (encode i ++ rest) = .ok i rest := by
  cases i with
  | writeStr payload => exact decodeS_payload .writeStr (of_decide_eq_true fits) rest
  | writeByte | backspace | newLine | clearRow => rfl
  | install | remap | enable | sectionBegin | sectionEnd | breakpoint => rfl

theorem encode_length (i : Instr) : (encode i).length = i.length := by
  cases i with
  | writeStr payload => exact (Laws.EncodedLength.writeStr payload).1
  | writeByte | backspace | newLine | clearRow => rfl
  | install | remap | enable | sectionBegin | sectionEnd | breakpoint => rfl

/-- Settles O1: the only operand whose end the bytes themselves must tell is the payload of `WRITE_STR`. -/
theorem decodeOfEncodeIsTheCommand : Obligations.DecodeOfEncodeIsTheCommand :=
  fun i rest fits => ⟨decode_encode fits rest, encode_length i⟩

/-! ## The bytes a format has read -/

variable {i : Instr} {t rest : List Byte}

theorem decodeN_bytes {j : Instr} (h : decodeN j t = .ok i rest) : i = j ∧ t = rest := by
  cases h; exact ⟨rfl, rfl⟩

theorem decodeB_bytes {f : Byte → Instr} (h : decodeB f t = .ok i rest) : ∃ b, i = f b ∧ t = b :: rest := by
  cases t with
  | nil => cases h
  | cons b t => cases h; exact ⟨b, rfl, rfl⟩

theorem decodeP_bytes {f : Byte → Byte → Instr} (h : decodeP f t = .ok i rest) :
    ∃ a b, i = f a b ∧ t = a :: b :: rest := by
  match t, h with
  | a :: b :: t, h => cases h; exact ⟨a, b, rfl, rfl⟩

theorem decodeS_bytes {f : List Byte → Instr} (h : decodeS f t = .ok i rest) :
    ∃ payload, i = f payload ∧ payload.length ≤ Config.maxStr ∧
      t = BitVec.ofNat 8 payload.length :: (payload ++ rest) := by
  cases t with
  | nil => cases h
  | cons n t =>
    simp only [decodeS] at h
    split at h
    · rename_i enough
      cases h
      have len : (t.take n.toNat).length = n.toNat := List.length_take_of_le enough
      refine ⟨t.take n.toNat, rfl, ?_, ?_⟩
      · rw [len]; exact Nat.le_of_lt_succ n.isLt
      · rw [len, BitVec.ofNat_toNat, BitVec.setWidth_eq, List.take_append_drop]
    · cases h

/-- How a command with the opcode `op` is decoded and encoded, by the format of its operands (30_encoding R91). -/
inductive OpcodeFormat (op : Byte) : Prop
  /-- No operand. -/
  | N (i : Instr) (decoded : ∀ t, decode (op :: t) = decodeN i t) (encoded : encode i = [op])
      (fits : i.payloadFits = true)
  /-- One operand byte. -/
  | B (f : Byte → Instr) (decoded : ∀ t, decode (op :: t) = decodeB f t) (encoded : ∀ b, encode (f b) = [op, b])
      (fits : ∀ b, (f b).payloadFits = true)
  /-- Two operand bytes. -/
  | P (f : Byte → Byte → Instr) (decoded : ∀ t, decode (op :: t) = decodeP f t)
      (encoded : ∀ a b, encode (f a b) = [op, a, b]) (fits : ∀ a b, (f a b).payloadFits = true)
  /-- A length byte and the payload. -/
  | S (f : List Byte → Instr) (decoded : ∀ t, decode (op :: t) = decodeS f t)
      (encoded : ∀ payload, encode (f payload) = op :: BitVec.ofNat 8 payload.length :: payload)
      (fits : ∀ payload, payload.length ≤ Config.maxStr → (f payload).payloadFits = true)

/-- The opcode map (30_encoding R93, R94). -/
theorem opcodeFormat_of_legal {op : Byte} (legal : op ∈ legalOpcodes) : OpcodeFormat op := by
  simp only [legalOpcodes, List.mem_cons, List.not_mem_nil, or_false] at legal
  rcases legal with rfl | rfl | rfl | rfl | rfl | rfl | rfl | rfl | rfl | rfl | rfl
  · exact .B .writeByte decode_writeByte (fun _ => rfl) (fun _ => rfl)
  · exact .S .writeStr decode_writeStr (fun _ => rfl) (fun _ h => decide_eq_true h)
  · exact .N .backspace decode_backspace rfl rfl
  · exact .N .newLine decode_newLine rfl rfl
  · exact .B .clearRow decode_clearRow (fun _ => rfl) (fun _ => rfl)
  · exact .N .install decode_install rfl rfl
  · exact .P .remap decode_remap (fun _ _ => rfl) (fun _ _ => rfl)
  · exact .N .enable decode_enable rfl rfl
  · exact .N .sectionBegin decode_sectionBegin rfl rfl
  · exact .N .sectionEnd decode_sectionEnd rfl rfl
  · exact .N .breakpoint decode_breakpoint rfl rfl

/-- What a legal opcode's operands decode to is encoded as the opcode and these operands (30_encoding R90 to R94). -/
theorem encode_decode {bs : List Byte} (h : decode bs = .ok i rest) :
    encode i ++ rest = bs ∧ i.payloadFits = true := by
  cases bs with
  | nil => cases h
  | cons op t =>
    by_cases legal : op ∈ legalOpcodes
    · cases opcodeFormat_of_legal legal with
      | N j decoded encoded fits =>
        obtain ⟨rfl, rfl⟩ := decodeN_bytes (decoded t ▸ h)
        exact ⟨by rw [encoded]; rfl, fits⟩
      | B f decoded encoded fits =>
        obtain ⟨b, rfl, rfl⟩ := decodeB_bytes (decoded t ▸ h)
        exact ⟨by rw [encoded]; rfl, fits b⟩
      | P f decoded encoded fits =>
        obtain ⟨a, b, rfl, rfl⟩ := decodeP_bytes (decoded t ▸ h)
        exact ⟨by rw [encoded]; rfl, fits a b⟩
      | S f decoded encoded fits =>
        obtain ⟨payload, rfl, short, rfl⟩ := decodeS_bytes (decoded t ▸ h)
        exact ⟨by rw [encoded]; rfl, fits payload short⟩
    · rw [decode_illegal legal] at h; cases h

/-- Settles O2: each format gives back the very bytes it has read. -/
theorem encodeOfDecodeIsTheBytes : Obligations.EncodeOfDecodeIsTheBytes := fun _ _ _ h => encode_decode h

/-- Settles O3: each word is the encoding of its command, with the bytes left over after it. -/
theorem writtenOutWordsDecode : Obligations.WrittenOutWordsDecode :=
  ⟨decode_encode (i := .writeByte 0x41#8) rfl [], decode_encode (i := .writeStr [0x48#8, 0x69#8]) rfl [],
    decode_encode (i := .clearRow 24#8) rfl [], decode_encode (i := .remap 0x20#8 0x28#8) rfl [0x81#8],
    decode_encode (i := .breakpoint) rfl []⟩

end Sys2Proof
end

section
/-! PROOFS. The bytes that do not decode and the faults they raise (spec/30_encoding.md R96 to R98;
spec/60_exceptions.md R220). -/

namespace Sys2Proof

variable {t : List Byte}

theorem decodeB_reject {f : Byte → Instr} {code : FaultCode} (h : decodeB f t = .reject code) : code = .truncated := by
  cases t with
  | nil => cases h; rfl
  | cons b t => cases h

theorem decodeP_reject {f : Byte → Byte → Instr} {code : FaultCode} (h : decodeP f t = .reject code) :
    code = .truncated := by
  match t, h with
  | [], h | [_], h => cases h; rfl

theorem decodeS_reject {f : List Byte → Instr} {code : FaultCode} (h : decodeS f t = .reject code) :
    code = .truncated := by
  cases t with
  | nil => cases h; rfl
  | cons n t =>
    simp only [decodeS] at h
    split at h
    · cases h
    · cases h; rfl

/-- After a legal opcode nothing but a missing operand is rejected (30_encoding R97). -/
theorem decode_reject_of_legal {op : Byte} (legal : op ∈ legalOpcodes) {code : FaultCode}
    (h : decode (op :: t) = .reject code) : code = .truncated := by
  cases opcodeFormat_of_legal legal with
  | N i decoded => rw [decoded] at h; cases h
  | B f decoded => exact decodeB_reject (decoded t ▸ h)
  | P f decoded => exact decodeP_reject (decoded t ▸ h)
  | S f decoded => exact decodeS_reject (decoded t ▸ h)

theorem decode_illegal_iff (op : Byte) (t : List Byte) :
    decode (op :: t) = .reject .illegalOpcode ↔ op ∉ legalOpcodes :=
  ⟨fun h legal => absurd (decode_reject_of_legal legal h) nofun, fun h => decode_illegal h t⟩

/-- The opcodes outside the map, as ranges (30_encoding R96). -/
theorem not_mem_legalOpcodes_iff (op : Byte) :
    op ∉ legalOpcodes ↔ op.toNat = 0 ∨ (0x06 ≤ op.toNat ∧ op.toNat ≤ 0x80) ∨ 0x87 ≤ op.toNat := by
  simp only [legalOpcodes, List.mem_cons, List.not_mem_nil, or_false, ← BitVec.toNat_inj, BitVec.toNat_ofNat]
  omega

/-! ## Operands past the end of the stream -/

theorem decodeP_short (f : Byte → Byte → Instr) (few : t.length < 2) : decodeP f t = .reject .truncated := by
  match t with
  | [] | [_] => rfl
  | _ :: _ :: _ => rw [List.length_cons, List.length_cons] at few; omega

theorem decodeS_short (f : List Byte → Instr) {n : Byte} (few : t.length < n.toNat) :
    decodeS f (n :: t) = .reject .truncated := by
  rw [decodeS, if_neg (Nat.not_le_of_lt few)]

namespace Machine

variable {s : State}

theorem raiseFault_eq_faultedWith (s : State) (code : FaultCode) : s.raiseFault code = s.faultedWith code := rfl

/-- Bytes to fetch are within the stream: it is not exhausted (10_state R27). -/
theorem not_exhausted_of_fetch {op : Byte} {rest : List Byte} (h : s.fetchBytes = op :: rest) :
    s.exhausted = false := by
  have more : 0 < s.fetchBytes.length := by rw [h]; exact Nat.succ_pos _
  unfold State.fetchBytes at more
  rw [List.length_drop] at more
  exact decide_eq_false (by omega)

/-- The step at bytes that do not decode: their model fault and no other effect (60_exceptions R220). -/
theorem step_of_rejected {op : Byte} {rest : List Byte} {code : FaultCode} (next : s.RunsCommandNext)
    (fetched : s.fetchBytes = op :: rest) (d : decode (op :: rest) = .reject code) :
    step s = .next (s.afterMove.faultedWith code) := by
  have running : s.afterMove.sys = .running := next.1
  have more : s.afterMove.exhausted = false := not_exhausted_of_fetch (s := s.afterMove) fetched
  have rejected : decode s.afterMove.fetchBytes = .reject code := (congrArg decode fetched).trans d
  have stays : (s.afterMove.raiseFault code).settle = s.afterMove.raiseFault code := State.settle_of_ne nofun
  rw [step_of_command next, commandStep, if_pos ⟨running, more⟩, runCommand, rejected]
  change settled (.next (s.afterMove.raiseFault code)) = _
  rw [settled, stays, raiseFault_eq_faultedWith]

/-- Settles O5: an opcode is rejected as illegal exactly when it is outside the map. -/
theorem illegalOpcodeFaults : Obligations.IllegalOpcodeFaults := fun op rest =>
  ⟨(decode_illegal_iff op rest).trans (not_mem_legalOpcodes_iff op),
    fun _ next fetched illegal => step_of_rejected next fetched illegal⟩

/-- Settles O6: in each format the operand bytes that are missing are what is rejected. -/
theorem truncatedCommandFaults : Obligations.TruncatedCommandFaults := by
  intro s op rest next fetched short
  refine step_of_rejected next fetched ?_
  rcases short with ⟨rfl | rfl, rfl⟩ | ⟨rfl, few⟩ | ⟨rfl, rfl⟩ | ⟨rfl, n, payload, rfl, few⟩
  · rfl
  · rfl
  · exact decodeP_short .remap few
  · rfl
  · exact decodeS_short .writeStr few

end Machine
end Sys2Proof
end

section
/-! PROOFS. `PUTS` and one long string (spec/30_encoding.md R101): the shape of the expansion, and what a string's bytes
depend on (spec/40_console.md R121 to R131). -/

namespace Sys2Proof.Machine

/-! ## The shape of the expansion -/

theorem putsChunks_short (k : Nat) {bs : List Byte} (h : bs.length ≤ Config.maxStr) :
    putsChunks k bs = [.writeStr bs] := by
  cases k with
  | zero => rfl
  | succ k => exact if_pos h

theorem putsChunks_long (k : Nat) {bs : List Byte} (h : Config.maxStr < bs.length) :
    putsChunks (k + 1) bs = .writeStr (bs.take Config.maxStr) :: putsChunks k (bs.drop Config.maxStr) :=
  if_neg (Nat.not_le_of_lt h)

theorem writeStr_wellFormed {bs : List Byte} (h : bs.length ≤ Config.maxStr) :
    (Instr.writeStr bs).wellFormed = true := by
  simp [Instr.wellFormed, Instr.payloadFits, Instr.rowLegal, h]

/-- With chunks enough for all the bytes, every chunk fits its length byte. -/
theorem putsChunks_wellFormed (k : Nat) {bs : List Byte} (enough : bs.length ≤ Config.maxStr * (k + 1)) :
    ∀ i ∈ putsChunks k bs, i.wellFormed = true := by
  induction k generalizing bs with
  | zero =>
    rw [putsChunks, List.forall_mem_singleton]
    exact writeStr_wellFormed (by omega)
  | succ k ih =>
    by_cases short : bs.length ≤ Config.maxStr
    · rw [putsChunks_short _ short, List.forall_mem_singleton]
      exact writeStr_wellFormed short
    · rw [putsChunks_long k (Nat.lt_of_not_le short), List.forall_mem_cons]
      refine ⟨writeStr_wellFormed (List.length_take_le _ _), ih ?_⟩
      rw [List.length_drop]
      rw [Nat.mul_succ] at enough
      omega

/-- With chunks enough for all the bytes there are as many as the length takes, at least one. -/
theorem putsChunks_length (k : Nat) {bs : List Byte} (enough : bs.length ≤ Config.maxStr * (k + 1)) :
    (putsChunks k bs).length = max 1 ((bs.length + 254) / 255) := by
  unfold Config.maxStr at enough
  induction k generalizing bs with
  | zero =>
    rw [putsChunks, List.length_singleton]
    omega
  | succ k ih =>
    by_cases short : bs.length ≤ Config.maxStr
    · rw [putsChunks_short _ short, List.length_singleton]
      unfold Config.maxStr at short
      omega
    · rw [putsChunks_long k (Nat.lt_of_not_le short), List.length_cons]
      unfold Config.maxStr at short ⊢
      rw [ih (by rw [List.length_drop]; omega), List.length_drop]
      omega

/-- `PUTS` allows itself chunks enough for all the bytes. -/
theorem puts_enough (bs : List Byte) : bs.length ≤ Config.maxStr * (bs.length / Config.maxStr + 1) := by
  unfold Config.maxStr; omega

/-! ## What the bytes of a string depend on -/

/-- `s` without `HWCUR`, `CRTC_IDX`, `EV` and `cmd_pc`, on which the bytes of a string do not depend. -/
def State.screen (s : State) : State := { s with hwcur := 0#16, crtcIdx := 0#8, hist := [], cmdPc := 0 }

/-- An operation that leaves the same screen from the same screen. -/
def ScreenOnly (f : State → State) : Prop := ∀ s, (f s).screen = (f s.screen).screen

theorem ScreenOnly.congr {f : State → State} (hf : ScreenOnly f) {s t : State} (h : s.screen = t.screen) :
    (f s).screen = (f t).screen := by
  rw [hf s, h, ← hf t]

theorem ScreenOnly.foldl {α : Type} {f : State → α → State} (hf : ∀ x, ScreenOnly fun s => f s x) (xs : List α) :
    ScreenOnly fun s => xs.foldl f s := by
  induction xs with
  | nil => exact fun _ => rfl
  | cons x xs ih => exact fun s => ih.congr (hf x s)

theorem screenOnly_setCursor (r : Row) (c : CurCol) : ScreenOnly fun s => s.setCursor r c := fun _ => rfl

theorem screenOnly_clearRowOp (r : Row) : ScreenOnly (clearRowOp r) := ScreenOnly.foldl (fun _ _ => rfl) allCols

theorem screenOnly_scrollRow (r : Row) : ScreenOnly fun s => scrollRow s r :=
  ScreenOnly.foldl (fun _ _ => rfl) allCols

theorem screenOnly_scroll : ScreenOnly scroll := fun s =>
  (screenOnly_clearRowOp 24).congr (ScreenOnly.foldl screenOnly_scrollRow scrollRows s)

theorem screenOnly_newlineOp : ScreenOnly newlineOp := by
  intro s
  by_cases above : s.row.val < 24
  · rw [newlineOp_above above, newlineOp_above (s := s.screen) above]
    rfl
  · have last : s.row.val = 24 := by have := s.row.isLt; omega
    rw [newlineOp_last last, newlineOp_last (s := s.screen) last]
    exact (screenOnly_setCursor s.row 0).congr (screenOnly_scroll s)

theorem screenOnly_placeAt (g : Byte) (c : Col) : ScreenOnly (placeAt g c) := fun _ => rfl

theorem screenOnly_place (g : Byte) : ScreenOnly (place g) := by
  intro s
  by_cases free : s.col.val < 80
  · rw [place_free g free, place_free g (s := s.screen) free]
    rfl
  · have wrap : s.col.val = 80 := by have := s.col.isLt; omega
    rw [place_wrap g wrap, place_wrap g (s := s.screen) wrap]
    exact (screenOnly_placeAt g 0).congr (screenOnly_newlineOp s)

theorem screenOnly_backspaceOp : ScreenOnly backspaceOp := by
  intro s
  have same : s.screen.row = s.row ∧ s.screen.col = s.col := ⟨rfl, rfl⟩
  unfold backspaceOp
  simp only [same.1, same.2]
  split
  · rfl
  · split <;> rfl

theorem screenOnly_byteOp (b : Byte) : ScreenOnly fun s => byteOp s b := by
  intro s
  simp only [byteOp]
  cases filterByte b with
  | print => exact screenOnly_place b s
  | newline => exact screenOnly_newlineOp s
  | bs => exact screenOnly_backspaceOp s
  | other => exact screenOnly_place _ s

theorem screenOnly_bytesOp (bs : List Byte) : ScreenOnly (bytesOp bs) := ScreenOnly.foldl screenOnly_byteOp bs

/-! ## Strings one after another -/

/-- `t` shows what `STR_OP(bs)` from `s` shows: the screen of the bytes, and `HWCUR` at the cursor (40_console R131). -/
structure State.ShowsString (s : State) (bs : List Byte) (t : State) : Prop where
  screen : t.screen = (bytesOp bs s).screen
  hwcur : t.hwcur = cursorPos t.row t.col

variable {s t u : State} {xs ys : List Byte}

theorem State.ShowsString.lock (h : s.ShowsString xs t) : t.lock = s.lock := by
  obtain ⟨-, -, -, -, -, -, -, -, lock, -⟩ := (cellStep_bytesOp xs s).toConsoleStep.kept
  exact (congrArg State.lock h.screen).trans lock

theorem State.ShowsString.par (h : s.ShowsString xs t) : t.par = s.par :=
  (congrArg State.par h.screen).trans (cellStep_bytesOp xs s).par

/-- A string after a string shows what the two as one show: the `SYNC` between them leaves the screen alone. -/
theorem State.ShowsString.append (h : s.ShowsString xs t) (k : t.ShowsString ys u) : s.ShowsString (xs ++ ys) u where
  screen := by rw [bytesOp_append, k.screen, (screenOnly_bytesOp ys).congr h.screen]
  hwcur := k.hwcur

/-- A string shows one thing: the same cursor, buffer and `HWCUR`. -/
theorem State.ShowsString.unique (h : s.ShowsString xs t) (k : s.ShowsString xs u) :
    t.row = u.row ∧ t.col = u.col ∧ t.buf = u.buf ∧ t.hwcur = u.hwcur := by
  have same : t.screen = u.screen := h.screen.trans k.screen.symm
  have row : t.row = u.row := (congrArg State.row same :)
  have col : t.col = u.col := (congrArg State.col same :)
  exact ⟨row, col, (congrArg State.buf same :), by rw [h.hwcur, k.hwcur, row, col]⟩

/-- The position of a cursor is no larger than 2000, so that 16 bits hold it (40_console R128). -/
theorem cursorPos_toNat (r : Row) (c : CurCol) : (cursorPos r c).toNat = 80 * r.val + c.val := by
  have := r.isLt
  have := c.isLt
  rw [cursorPos, BitVec.toNat_ofNat]
  exact Nat.mod_eq_of_lt (by omega)

theorem showsString_strOp (bs : List Byte) (ok : s.par.Ok) (n : Nat) :
    s.ShowsString bs ((strOp bs s).advance n) := by
  have par : (bytesOp bs s).par = s.par := (cellStep_bytesOp bs s).par
  rw [strOp, sync_eq (par ▸ ok.ports_distinct) (par ▸ ok.indices_distinct)]
  exact ⟨rfl, rfl⟩

/-- `WRITE_STR` shows its string, of any length as a term (40_console R131: log 18). -/
theorem exec_writeStr_shows (bs : List Byte) (unlocked : s.lock ≠ .irq) (ok : s.par.Ok) :
    ∃ t, exec (.writeStr bs) s = .next t ∧ s.ShowsString bs t :=
  ⟨_, execWriteStr_eq bs unlocked, showsString_strOp bs ok _⟩

theorem runCommands_cons {i : Instr} (is : List Instr) (h : exec i s = .next t) :
    runCommands (i :: is) s = runCommands is t := by
  rw [runCommands, h]

theorem runCommands_singleton {i : Instr} (h : exec i s = .next t) : runCommands [i] s = .next t := by
  rw [runCommands_cons [] h, runCommands]

/-- The chunks run one after another show the string they are cut from. -/
theorem runCommands_putsChunks_shows (k : Nat) (bs : List Byte) (unlocked : s.lock ≠ .irq) (ok : s.par.Ok) :
    ∃ t, runCommands (putsChunks k bs) s = .next t ∧ s.ShowsString bs t := by
  induction k generalizing s bs with
  | zero =>
    obtain ⟨t, ran, shows⟩ := exec_writeStr_shows bs unlocked ok
    exact ⟨t, runCommands_singleton ran, shows⟩
  | succ k ih =>
    by_cases short : bs.length ≤ Config.maxStr
    · obtain ⟨t, ran, shows⟩ := exec_writeStr_shows bs unlocked ok
      exact ⟨t, by rw [putsChunks_short _ short, runCommands_singleton ran], shows⟩
    · obtain ⟨m, first, chunk⟩ := exec_writeStr_shows (bs.take Config.maxStr) unlocked ok
      obtain ⟨t, others, rest⟩ :=
        ih (bs.drop Config.maxStr) (by rw [chunk.lock]; exact unlocked) (by rw [chunk.par]; exact ok)
      refine ⟨t, by rw [putsChunks_long k (Nat.lt_of_not_le short), runCommands_cons _ first, others], ?_⟩
      have whole := chunk.append rest
      rwa [List.take_append_drop] at whole

theorem puts_length (bs : List Byte) :
    (puts bs).length = if bs = [] then 1 else (bs.length + 254) / 255 := by
  rw [puts, putsChunks_length _ (puts_enough bs)]
  cases bs with
  | nil => rfl
  | cons b bs => rw [if_neg (List.cons_ne_nil b bs), List.length_cons]; omega

/-- Settles O32: the chunks and the one string show the same, which fixes the cursor, the buffer and `HWCUR`. -/
theorem putsMatchesOneLongString : Obligations.PutsMatchesOneLongString := by
  intro s bs unlocked ok
  obtain ⟨u, one, string⟩ := exec_writeStr_shows bs unlocked ok
  obtain ⟨t, many, chunks⟩ := runCommands_putsChunks_shows (bs.length / Config.maxStr) bs unlocked ok
  obtain ⟨row, col, buf, hwcur⟩ := chunks.unique string
  have atCursor : t.hwcur.toNat = 80 * t.row.val + t.col.val := by rw [chunks.hwcur, cursorPos_toNat]
  exact ⟨rfl, puts_length bs, putsChunks_wellFormed _ (puts_enough bs), u, t, one, many, row, col, buf, hwcur, atCursor⟩

end Sys2Proof.Machine
end

section
/-! PROOFS. Which rows the cell operations write (spec/40_console.md R121 to R131), and what a console command leaves
alone. -/

namespace Sys2Proof.Machine

variable {s t u : State}

/-! ## A console operation followed by the advance of `cmd_pc` -/

theorem ConsoleStep.keepsAllButConsole (h : ConsoleStep s t) (n : Nat) : s.KeepsAllButConsole (t.advance n) n := by
  unfold State.KeepsAllButConsole
  conv_lhs => rw [h.frame]
  rfl

theorem CellStep.keepsAllButCells (h : CellStep s t) (n : Nat) : s.KeepsAllButCells (t.advance n) n := by
  unfold State.KeepsAllButCells
  conv_lhs => rw [h.frame, h.hwcur, h.crtcIdx]
  rfl

/-- Two commands that run the same console operation differ in `cmd_pc` alone. -/
theorem ConsoleStep.advance_setPc (h : ConsoleStep s t) (m n : Nat) :
    { t.advance m with cmdPc := s.cmdPc + n } = t.advance n := by
  have pc : t.cmdPc = s.cmdPc := by rw [h.frame]
  rw [← pc]
  rfl

theorem ConsoleStep.lock (h : ConsoleStep s t) : t.lock = s.lock := by rw [h.frame]

theorem State.advance_advance (s : State) (m n : Nat) : (s.advance m).advance n = s.advance (m + n) := by
  simp only [State.advance, Nat.add_assoc]

/-- A console operation may as well run before `cmd_pc` advances as after it. -/
theorem Local.apply_advance {f : State → State} (hf : Local f) (hs : ConsoleStep s (f s)) (n : Nat) :
    f (s.advance n) = (f s).advance n := by
  change f (s.graft (s.advance n)) = _
  rw [hf s]
  conv_rhs => rw [← hs.graft_eq]
  rfl

/-! ## The bytes of a cell and of a row -/

theorem State.inCell.inRow {r : Row} {c : Col} {a : Nat} (h : s.inCell r c a) : s.inRow r a := by
  have := c.isLt
  unfold State.inCell at h
  rw [cellAddr_even_offset] at h
  unfold State.inRow
  omega

/-- Rows have no byte in common. -/
theorem State.inRow.unique {r q : Row} {a : Nat} (h : s.inRow r a) (k : s.inRow q a) : r = q := by
  obtain ⟨hl, hu⟩ := h
  obtain ⟨kl, ku⟩ := k
  exact Fin.ext (by omega)

theorem State.inRow_congr (par : t.par = s.par) (r : Row) (a : Nat) : t.inRow r a ↔ s.inRow r a := by
  unfold State.inRow
  rw [par]

theorem cellWrite_byteAt_outside (s : State) (r : Row) (c : Col) (x : GlyphCell) {a : Nat} (h : ¬s.inCell r c a) :
    (s.cellWrite r c x).byteAt a = s.byteAt a :=
  have ⟨low, high⟩ := not_or.1 h
  cellWrite_byteAt s r c x low high

theorem wroteCell_cellWrite (h : Memory.wf s.buf) (r : Row) (c : Col) (x : GlyphCell) :
    s.WroteCell (s.cellWrite r c x) r c x :=
  ⟨cellWrite_cellAt_self h r c x, s.cellWrite_EV r c x, fun _ => cellWrite_byteAt_outside s r c x⟩

/-! ## The rows an operation writes -/

/-- A cell access that, if it writes, writes a row of `rows`. -/
def Event.CellAccess (rows : Row → Prop) : Event → Prop
  | .cellW r _ _ _ => rows r
  | .cellR _ _ => True
  | _ => False

/-- What lies between `s` and `t` is cell accesses, the writes among them in rows of `rows`; every byte outside these rows
is as before. -/
structure RowsStep (rows : Row → Prop) (s t : State) : Prop where
  par : t.par = s.par
  accesses : ∃ es, t.EV = s.EV ++ es ∧ ∀ e ∈ es, e.CellAccess rows
  outside : ∀ a, (∀ r, rows r → ¬s.inRow r a) → t.byteAt a = s.byteAt a

theorem Event.CellAccess.not_portW {rows : Row → Prop} {e : Event} (h : e.CellAccess rows) (p : Word) (v : Byte) :
    e ≠ .portW p v := by
  rintro rfl
  exact h

namespace RowsStep

variable {rows more : Row → Prop}

theorem refl (rows : Row → Prop) (s : State) : RowsStep rows s s :=
  ⟨rfl, ⟨[], (List.append_nil _).symm, nofun⟩, fun _ _ => rfl⟩

theorem trans (h : RowsStep rows s t) (k : RowsStep rows t u) : RowsStep rows s u where
  par := k.par.trans h.par
  accesses := by
    obtain ⟨es, hes, cells⟩ := h.accesses
    obtain ⟨fs, hfs, cells'⟩ := k.accesses
    exact ⟨es ++ fs, by rw [hfs, hes, List.append_assoc], List.forall_mem_append.2 ⟨cells, cells'⟩⟩
  outside := fun a out => by
    rw [k.outside a fun r hr => mt (State.inRow_congr h.par r a).1 (out r hr), h.outside a out]

theorem mono (h : RowsStep rows s t) (le : ∀ r, rows r → more r) : RowsStep more s t where
  par := h.par
  accesses := by
    obtain ⟨es, hes, cells⟩ := h.accesses
    refine ⟨es, hes, fun e he => ?_⟩
    cases e with
    | cellW r c g a => exact le r (cells _ he)
    | cellR r c => trivial
    | portW | portR | deliver | eoi | halt | fault => exact cells _ he
  outside := fun a out => h.outside a fun r hr => out r (le r hr)

theorem foldl {α : Type} {f : State → α → State} (xs : List α) (hf : ∀ s, ∀ x ∈ xs, RowsStep rows s (f s x))
    (s : State) : RowsStep rows s (xs.foldl f s) := by
  induction xs generalizing s with
  | nil => exact refl rows s
  | cons x xs ih =>
    exact (hf s x List.mem_cons_self).trans (ih (fun t y hy => hf t y (List.mem_cons_of_mem _ hy)) (f s x))

end RowsStep

theorem rowsStep_setCursor (rows : Row → Prop) (s : State) (r : Row) (c : CurCol) : RowsStep rows s (s.setCursor r c) :=
  ⟨rfl, ⟨[], (List.append_nil _).symm, nofun⟩, fun _ _ => rfl⟩

theorem rowsStep_cellWrite (s : State) (r : Row) (c : Col) (x : GlyphCell) :
    RowsStep (· = r) s (s.cellWrite r c x) where
  par := rfl
  accesses := ⟨_, s.cellWrite_EV r c x, List.forall_mem_singleton.2 rfl⟩
  outside := fun _ out => cellWrite_byteAt_outside s r c x fun h => out r rfl h.inRow

theorem rowsStep_cellRead (rows : Row → Prop) (s : State) (r : Row) (c : Col) :
    RowsStep rows s (s.log (.cellR r c)) :=
  ⟨rfl, ⟨_, s.log_EV _, List.forall_mem_singleton.2 trivial⟩, fun _ _ => rfl⟩

theorem rowsStep_clearRowOp (r : Row) (s : State) : RowsStep (· = r) s (clearRowOp r s) :=
  .foldl allCols (fun t c _ => rowsStep_cellWrite t r c t.blank) s

theorem rowsStep_scrollRow (s : State) (r : Row) : RowsStep (· = rowAbove r) s (scrollRow s r) :=
  .foldl allCols (fun t c _ => (rowsStep_cellRead _ t r c).trans (rowsStep_cellWrite _ _ c _)) s

theorem two_le_rowAbove {r : Row} (h : r ∈ scrollRows) : 2 ≤ (rowAbove r).val := by
  have all : ∀ q ∈ scrollRows, 2 ≤ (rowAbove q).val := by decide
  exact all r h

/-- `SCROLL` leaves the banner rows alone (40_console R125, R137). -/
theorem rowsStep_scroll (s : State) : RowsStep (2 ≤ ·.val) s (scroll s) :=
  have copies : RowsStep (2 ≤ ·.val) s (scrollRows.foldl scrollRow s) :=
    .foldl scrollRows (fun t r hr => (rowsStep_scrollRow t r).mono fun _ e => e ▸ two_le_rowAbove hr) s
  copies.trans ((rowsStep_clearRowOp 24 _).mono fun _ e => by rw [e]; decide)

theorem rowsStep_newlineOp (s : State) : RowsStep (2 ≤ ·.val) s (newlineOp s) := by
  by_cases above : s.row.val < 24
  · rw [newlineOp_above above]
    exact rowsStep_setCursor _ s _ _
  · have last : s.row.val = 24 := by have := s.row.isLt; omega
    rw [newlineOp_last last]
    exact (rowsStep_scroll s).trans (rowsStep_setCursor _ _ _ _)

theorem rowsStep_placeAt (g : Byte) (c : Col) (s : State) : RowsStep (· = s.row) s (placeAt g c s) :=
  (rowsStep_cellWrite s s.row c ⟨g, s.color⟩).trans (rowsStep_setCursor _ _ _ _)

/-- `PLACE` writes the cursor's row, or what a line advance writes and the row it leaves (40_console R123). -/
theorem rowsStep_place (g : Byte) (s : State) : RowsStep (fun r => 2 ≤ r.val ∨ s.row ≤ r) s (place g s) := by
  by_cases free : s.col.val < 80
  · rw [place_free g free]
    exact (rowsStep_placeAt g _ s).mono fun r e => .inr e.ge
  · have wrap : s.col.val = 80 := by have := s.col.isLt; omega
    have ⟨_, down⟩ := newlineOp_cursor s
    rw [place_wrap g wrap]
    exact ((rowsStep_newlineOp s).mono fun r => .inl).trans
      ((rowsStep_placeAt g 0 _).mono fun r e => .inr (down.trans e.ge))

theorem rowsStep_backspaceOp (s : State) : RowsStep (fun _ => True) s (backspaceOp s) := by
  unfold backspaceOp
  split
  · exact .refl _ s
  · split <;> exact (rowsStep_setCursor _ s _ _).trans ((rowsStep_cellWrite _ _ _ _).mono fun _ _ => trivial)

/-- A byte makes cell accesses alone (40_console R129). -/
theorem rowsStep_byteOp (s : State) (b : Byte) : RowsStep (fun _ => True) s (byteOp s b) := by
  unfold byteOp
  cases filterByte b with
  | print => exact (rowsStep_place b s).mono fun _ _ => trivial
  | newline => exact (rowsStep_newlineOp s).mono fun _ _ => trivial
  | bs => exact rowsStep_backspaceOp s
  | other => exact (rowsStep_place _ s).mono fun _ _ => trivial

theorem rowsStep_bytesOp (bs : List Byte) (s : State) : RowsStep (fun _ => True) s (bytesOp bs s) :=
  .foldl bs (fun t b _ => rowsStep_byteOp t b) s

end Sys2Proof.Machine
end

section
/-! PROOFS. `WRITE_BYTE`, `BACKSPACE`, `NEW_LINE` and `CLEAR_ROW` (spec/40_console.md R121 to R138). -/

namespace Sys2Proof.Machine

variable {s : State}

/-! ## `WRITE_BYTE` -/

theorem placeAt_advance (g : Byte) (c : Col) (s : State) (n : Nat) :
    placeAt g c (s.advance n) = (placeAt g c s).advance n := rfl

/-- Settles O19: the byte's glyph is placed where the cursor stands. -/
theorem writeByteAtAFreeColumn : Obligations.WriteByteAtAFreeColumn := by
  intro s b c unlocked wf col hn hb
  have free : s.col.val < 80 := by have := c.isLt; omega
  have here : (⟨s.col.val, free⟩ : Col) = c := Fin.ext col
  have placed : byteOp s b = placeAt (glyphOf b) c s := by rw [byteOp_glyph hn hb, place_free _ free, here]
  refine ⟨_, execWriteByte_eq b unlocked, ?_⟩
  rw [placed]
  exact ⟨rfl, rfl, wroteCell_cellWrite wf s.row c ⟨glyphOf b, s.color⟩, (cellStep_placeAt _ c s).keepsAllButCells 2⟩

/-- Settles O20: after the line advance `COL` is 0, so that the byte is placed there with or without a command between. -/
theorem pendingWrapForcesANewLineFirst : Obligations.PendingWrapForcesANewLineFirst := by
  intro s b unlocked pending hn hb
  have wrap : s.col.val = 80 := by rw [pending]; rfl
  have line := cellStep_newlineOp s
  have col : ((newlineOp s).advance 1).col = 0 := by
    rw [State.advance_col]
    exact (newlineOp_cursor s).1
  have start : ((newlineOp s).advance 1).col.val = 0 := by rw [col]; rfl
  have first : byteOp ((newlineOp s).advance 1) b = (placeAt (glyphOf b) 0 (newlineOp s)).advance 1 := by
    rw [byteOp_glyph hn hb, place_free _ (by omega)]
    simp only [start]
    exact placeAt_advance _ 0 _ 1
  have whole : byteOp s b = placeAt (glyphOf b) 0 (newlineOp s) := by rw [byteOp_glyph hn hb, place_wrap _ wrap]
  refine ⟨_, _, execNewLine_eq unlocked, col, execWriteByte_eq b (line.lock ▸ unlocked), ?_⟩
  rw [execWriteByte_eq b unlocked, first, whole, State.advance_advance,
    (line.trans (cellStep_placeAt (glyphOf b) 0 _)).advance_setPc]

/-- Settles O21: the filter sends 0x0A to the line advance. -/
theorem writeByteNewlineIsNewLine : Obligations.WriteByteNewlineIsNewLine := fun s unlocked =>
  ⟨_, execNewLine_eq unlocked, by rw [(cellStep_newlineOp s).advance_setPc]; exact execWriteByte_eq _ unlocked⟩

/-- Settles O22: the filter sends 0x08 to the backspace. -/
theorem writeByteBackspaceIsBackspace : Obligations.WriteByteBackspaceIsBackspace := fun s unlocked =>
  ⟨_, execBackspace_eq unlocked, by rw [(cellStep_backspaceOp s).advance_setPc]; exact execWriteByte_eq _ unlocked⟩

/-! ## `BACKSPACE` -/

/-- `BACKSPACE_OP` in row 0 (40_console R127). -/
theorem backspaceOp_top (top : s.row.val = 0) : backspaceOp s = s := if_pos top

/-- `BACKSPACE_OP` within a row (40_console R127). -/
theorem backspaceOp_within (lower : s.row.val ≠ 0) {c : Col} (left : c.val + 1 = s.col.val) (inside : 1 < s.col.val) :
    backspaceOp s = (s.setCursor s.row c.castSucc).cellWrite s.row c ⟨0x20#8, s.color⟩ := by
  have same : c = ⟨s.col.val - 1, by omega⟩ := Fin.ext (by simp only; omega)
  rw [same]
  exact (if_neg lower).trans (if_pos inside)

/-- `BACKSPACE_OP` to the row above (40_console R127). -/
theorem backspaceOp_up (lower : s.row.val ≠ 0) (start : ¬1 < s.col.val) :
    backspaceOp s = (s.setCursor (rowAbove s.row) 79).cellWrite (rowAbove s.row) 79 ⟨0x20#8, s.color⟩ :=
  (if_neg lower).trans (if_neg start)

theorem rowAbove_val (r : Row) : (rowAbove r).val = r.val - 1 := rfl

/-- Past column 1 there is a column left of the cursor, and it is not column 0. -/
theorem exists_col_left (inside : 1 < s.col.val) : ∃ c : Col, c.val + 1 = s.col.val ∧ c ≠ 0 :=
  ⟨⟨s.col.val - 1, by have := s.col.isLt; omega⟩, Nat.sub_add_cancel inside.le,
    fun e => absurd (congrArg Fin.val e) (Nat.sub_ne_zero_of_lt inside)⟩

/-- Settles O23: the three places the cursor can stand. -/
theorem backspaceErasesBackwards : Obligations.BackspaceErasesBackwards := by
  refine ⟨rfl, fun s unlocked wf => ⟨_, execBackspace_eq unlocked, (cellStep_backspaceOp s).keepsAllButCells 1, ?_⟩⟩
  by_cases top : s.row.val = 0
  · rw [if_pos top, backspaceOp_top top]
    exact ⟨rfl, rfl, rfl, rfl⟩
  · rw [if_neg top]
    by_cases inside : 1 < s.col.val
    · obtain ⟨c, left, -⟩ := exists_col_left inside
      rw [if_pos inside, backspaceOp_within top left inside]
      exact ⟨c, Nat.eq_sub_of_add_eq left, rfl, rfl, wroteCell_cellWrite wf s.row c _⟩
    · rw [if_neg inside, backspaceOp_up top inside]
      exact ⟨rowAbove s.row, by rw [rowAbove_val]; omega, rfl, rfl, wroteCell_cellWrite wf (rowAbove s.row) 79 _⟩

/-- Writing a cell of another column leaves a column alone. -/
theorem cellWrite_cellAt_of_col_ne (s : State) (r q : Row) {c k : Col} (x : GlyphCell) (h : k ≠ c) :
    (s.cellWrite r c x).cellAt q k = s.cellAt q k := cellWrite_cellAt_of_ne s x fun e => h e.2

/-- `BACKSPACE_OP` leaves every cell of column 0 alone (40_console R138). -/
theorem backspaceOp_cellAt_zero (s : State) (r : Row) : (backspaceOp s).cellAt r 0 = s.cellAt r 0 := by
  by_cases top : s.row.val = 0
  · rw [backspaceOp_top top]
  · by_cases inside : 1 < s.col.val
    · obtain ⟨c, left, positive⟩ := exists_col_left inside
      rw [backspaceOp_within top left inside]
      exact cellWrite_cellAt_of_col_ne _ _ _ _ positive.symm
    · rw [backspaceOp_up top inside]
      exact cellWrite_cellAt_of_col_ne _ _ _ _ (by decide)

/-- The access of a backspace, if there is one, is of a column past 0 (40_console R127). -/
theorem eraseTrace_column {r : Row} {c : Col} {g a : Byte} (h : .cellW r c g a ∈ eraseTrace s) : 0 < c.val := by
  unfold eraseTrace at h
  split at h
  · exact absurd h List.not_mem_nil
  · split at h
    all_goals
      obtain ⟨-, column, -⟩ := Event.cellW.inj (List.mem_singleton.1 h)
      rw [column]
    · rename_i inside
      exact Nat.sub_pos_of_lt inside
    · decide

/-- Settles O24: the accesses of a backspace are of column 79, or of a column left of one past 1. -/
theorem backspaceNeverWritesColumnZero : Obligations.BackspaceNeverWritesColumnZero := fun s unlocked =>
  ⟨_, eraseTrace s, execBackspace_eq unlocked, backspaceOp_EV s, fun _ _ _ h => (eraseTrace_column h).ne rfl,
    backspaceOp_cellAt_zero s, fun column lower => by
      rw [backspaceOp_up (by omega) (by omega)]
      change (rowAbove s.row).val + 1 = _
      rw [rowAbove_val]
      omega⟩

/-! ## `SCROLL` and `NEW_LINE` -/

/-- Rows 2 to 23 take the row below (40_console R125). -/
theorem scroll_cellAt_below (h : Memory.wf s.buf) {r q : Row} (c : Col) (low : 2 ≤ r.val) (below : q.val = r.val + 1) :
    (scroll s).cellAt r c = s.cellAt q c := by
  have := q.isLt
  have next : (⟨r.val + 1, by omega⟩ : Row) = q := Fin.ext below.symm
  rw [scroll_cellAt h, if_neg (by omega), dif_pos ⟨low, by omega⟩, next]

/-- The last row is blank (40_console R125). -/
theorem scroll_cellAt_last (h : Memory.wf s.buf) (c : Col) : (scroll s).cellAt 24 c = ⟨0x20#8, s.color⟩ := by
  rw [scroll_cellAt h]
  exact if_pos rfl

/-- Settles O26: the trace, the three row ranges, and the frame of rows and of registers. -/
theorem scrollAccessesInOrder : Obligations.ScrollAccessesInOrder := by
  intro s wf
  refine ⟨scroll_EV wf, fun _ _ c => scroll_cellAt_below wf c, scroll_cellAt_last wf, fun r c banner => ?_,
    (rowsStep_scroll s).outside, ?_⟩
  · rw [scroll_cellAt wf, if_neg (by omega), dif_neg (by omega)]
  · have step := cellStep_scroll s
    obtain ⟨row, col⟩ := scroll_cursor s
    conv_lhs => rw [step.frame, row, col, step.hwcur, step.crtcIdx]

/-- Settles O25: on the last row the line advance is a scroll. -/
theorem newLineAdvancesOrScrolls : Obligations.NewLineAdvancesOrScrolls := by
  refine ⟨rfl, fun s unlocked wf => ⟨_, execNewLine_eq unlocked, ?_, (cellStep_newlineOp s).keepsAllButCells 1, ?_⟩⟩
  · rw [State.advance_col]
    exact (newlineOp_cursor s).1
  by_cases above : s.row.val ≤ 23
  · rw [if_pos above, newlineOp_above (by omega)]
    exact ⟨rfl, rfl, rfl⟩
  · have last : s.row.val = 24 := by have := s.row.isLt; omega
    rw [if_neg above, newlineOp_last last]
    refine ⟨?_, ?_, fun r q c low below => ?_, fun c => ?_, fun a out => ?_⟩
    · rw [State.advance_row, State.setCursor_row]
    · rw [State.advance_EV, State.setCursor_EV, scroll_EV wf]
    · rw [State.advance_cellAt, State.setCursor_cellAt, scroll_cellAt_below wf c low below]
    · rw [State.advance_cellAt, State.setCursor_cellAt, scroll_cellAt_last wf]
    · rw [State.advance_byteAt, State.setCursor_byteAt, (rowsStep_scroll s).outside a out]

/-! ## `CLEAR_ROW` -/

/-- Settles O27: the row named is the one row `CLEAR` writes. -/
theorem clearRowBlanksItsRow : Obligations.ClearRowBlanksItsRow := by
  refine ⟨fun _ => rfl, rfl, fun s r => ⟨fun q hq unlocked wf => ?_, execClearRow_range⟩⟩
  obtain ⟨row, col⟩ := clearRowOp_cursor q s
  refine ⟨_, execClearRow_eq hq unlocked, ?_, ?_, (cellStep_clearRowOp q s).keepsAllButCells 2, fun c => ?_,
    fun a out => ?_, ?_⟩
  · rw [State.advance_row, row]
  · rw [State.advance_col, col]
  · rw [State.advance_cellAt, clearRowOp_cellAt q wf]
    exact if_pos rfl
  · rw [State.advance_byteAt]
    exact (rowsStep_clearRowOp q s).outside a fun _ e => e ▸ out
  · rw [State.advance_EV, clearRowOp_EV]
    rfl

end Sys2Proof.Machine
end

section
/-! PROOFS. `WRITE_STR` (spec/40_console.md R128, R131, R136, R137, R141): a string is its bytes and one `SYNC`, and what
strings leave in the buffer. -/

namespace Sys2Proof.Machine

variable {s : State}

/-! ## `SYNC` after the bytes -/

/-- A port write touches neither the cursor nor the buffer (20_memory R70). -/
theorem portWrite_screen (s : State) (p : Word) (v : Byte) :
    (s.portWrite p v).row = s.row ∧ (s.portWrite p v).col = s.col ∧ (s.portWrite p v).buf = s.buf := by
  unfold State.portWrite
  split
  · exact ⟨rfl, rfl, rfl⟩
  · split <;> exact ⟨rfl, rfl, rfl⟩

/-- `SYNC` touches neither the cursor nor the buffer (40_console R128). -/
theorem sync_screen (s : State) : (sync s).row = s.row ∧ (sync s).col = s.col ∧ (sync s).buf = s.buf := by
  simp only [sync, portWrite_screen, and_self]

theorem strOp_row (bs : List Byte) (s : State) : (strOp bs s).row = (bytesOp bs s).row := (sync_screen _).1

theorem strOp_col (bs : List Byte) (s : State) : (strOp bs s).col = (bytesOp bs s).col := (sync_screen _).2.1

theorem strOp_buf (bs : List Byte) (s : State) : (strOp bs s).buf = (bytesOp bs s).buf := (sync_screen _).2.2

theorem strOp_cellAt (bs : List Byte) (s : State) (r : Row) (c : Col) :
    (strOp bs s).cellAt r c = (bytesOp bs s).cellAt r c := by
  unfold State.cellAt
  rw [strOp_buf, (consoleStep_strOp bs s).par, (cellStep_bytesOp bs s).par]

theorem strOp_byteAt (bs : List Byte) (s : State) (a : Nat) : (strOp bs s).byteAt a = (bytesOp bs s).byteAt a := by
  unfold State.byteAt
  rw [strOp_buf]

/-- The display registers a string leaves (40_console R128). -/
theorem strOp_display (bs : List Byte) (ok : s.par.Ok) :
    (strOp bs s).hwcur = cursorPos (bytesOp bs s).row (bytesOp bs s).col ∧
      (strOp bs s).crtcIdx = s.par.cursorHighIndex := by
  have par : (bytesOp bs s).par = s.par := (cellStep_bytesOp bs s).par
  unfold strOp
  rw [sync_eq (par ▸ ok.ports_distinct) (par ▸ ok.indices_distinct), par]
  exact ⟨rfl, rfl⟩

/-- The entries of a string: those of its bytes, then those of the `SYNC` (40_console R128, R131). -/
theorem strOp_EV_sync (bs : List Byte) (ok : s.par.Ok) :
    (strOp bs s).EV =
      (bytesOp bs s).EV ++ syncTrace s.par (cursorPos (bytesOp bs s).row (bytesOp bs s).col) := by
  have par : (bytesOp bs s).par = s.par := (cellStep_bytesOp bs s).par
  unfold strOp
  rw [sync_EV (par ▸ ok), par]

/-- `WRITE_BYTE` of each byte in turn is the bytes of the string without the `SYNC` (40_console R130, R131). -/
theorem runCommands_writeBytes (bs : List Byte) (unlocked : s.lock ≠ .irq) :
    runCommands (bs.map .writeByte) s = .next ((bytesOp bs s).advance (2 * bs.length)) := by
  induction bs generalizing s with
  | nil => rfl
  | cons b bs ih =>
    have lock : ((byteOp s b).advance 2).lock = s.lock := (cellStep_byteOp s b).toConsoleStep.lock
    rw [List.map_cons, runCommands_cons _ (execWriteByte_eq b unlocked), ih (lock ▸ unlocked),
      (local_bytesOp bs).apply_advance (cellStep_bytesOp bs _).toConsoleStep, State.advance_advance, List.length_cons,
      Nat.mul_succ, Nat.add_comm]
    rfl

/-- The bytes of a string write no port (40_console R131). -/
theorem bytesOp_no_portW (bs : List Byte) (s : State) :
    ∀ e ∈ (bytesOp bs s).EV.drop s.EV.length, ∀ p v, e ≠ .portW p v := by
  obtain ⟨es, appended, cells⟩ := (rowsStep_bytesOp bs s).accesses
  rw [appended, List.drop_left]
  exact fun e he => (cells e he).not_portW

/-- Settles O28: both sides run the same bytes, and `SYNC` adds the four port writes alone. -/
theorem writeStrIsItsBytesThenOneSync : Obligations.WriteStrIsItsBytesThenOneSync := by
  intro s bs unlocked ok
  obtain ⟨hwcur, crtcIdx⟩ := strOp_display bs ok
  refine ⟨_, _, _, runCommands_writeBytes bs unlocked, execWriteStr_eq bs unlocked, ?_, ?_, ?_, rfl, ?_, ?_, ?_, ?_, ?_,
    (consoleStep_strOp bs s).keepsAllButConsole _⟩
  · rw [State.advance_row, State.advance_row, strOp_row]
  · rw [State.advance_col, State.advance_col, strOp_col]
  · rw [State.advance_buf, State.advance_buf, strOp_buf]
  · rw [State.advance_hwcur, State.advance_row, State.advance_col, strOp_row, strOp_col, hwcur, cursorPos]
  · rw [State.advance_hwcur, State.advance_row, State.advance_col, strOp_row, strOp_col, hwcur, cursorPos_toNat]
  · rw [State.advance_crtcIdx, crtcIdx]
  · rw [State.advance_EV, State.advance_EV, State.advance_row, State.advance_col, strOp_row, strOp_col,
      strOp_EV_sync bs ok]
    rfl
  · rw [State.advance_EV]
    exact bytesOp_no_portW bs s

/-! ## A string within a row -/

/-- `t` is `s` once the glyphs `bs` stand in the cells from the cursor on, and the cursor behind them. -/
structure RowFilled (s : State) (bs : List Byte) (t : State) : Prop where
  row : t.row = s.row
  col : t.col.val = s.col.val + bs.length
  glyphs : ∀ (k : Nat) (b : Byte) (c : Col), bs[k]? = some b → c.val = s.col.val + k →
    t.cellAt s.row c = ⟨b, s.color⟩
  outside : ∀ a, (∀ c : Col, s.col.val ≤ c.val → c.val < s.col.val + bs.length → ¬s.inCell s.row c a) →
    t.byteAt a = s.byteAt a

/-- A PRINT byte is placed as it is (40_console R121, R129). -/
theorem byteOp_print {b : Byte} (print : 0x20 ≤ b.toNat ∧ b.toNat ≤ 0x7E) : byteOp s b = place b s := by
  unfold byteOp
  rw [filterByte_print print.1 print.2]

/-- One more glyph behind those that stand. -/
theorem RowFilled.place {t : State} {bs : List Byte} (h : RowFilled s bs t) (step : CellStep s t)
    (wf : Memory.wf s.buf) (room : t.col.val < 80) (b : Byte) : RowFilled s (bs ++ [b]) (place b t) := by
  have width : (bs ++ [b]).length = bs.length + 1 := List.length_append
  have color : t.color = s.color := step.color
  have par : t.par = s.par := step.par
  rw [place_free b room]
  refine ⟨h.row, ?_, fun k x c hx hc => ?_, fun a out => ?_⟩
  · change t.col.val + 1 = _
    rw [h.col, width]
    rfl
  · change (t.cellWrite t.row _ _).cellAt s.row c = _
    rw [h.row, color]
    by_cases new : k = bs.length
    · have here : c = ⟨t.col.val, room⟩ := Fin.ext (by rw [hc, new, h.col])
      rw [new, List.getElem?_concat_length] at hx
      rw [here, cellWrite_cellAt_self (step.wf wf), Option.some.inj hx]
    · have old : k < bs.length := by
        have := (List.getElem?_eq_some_iff.1 hx).1
        omega
      have col := h.col
      have apart : c ≠ ⟨t.col.val, room⟩ := Fin.ne_of_val_ne (by simp only; omega)
      rw [List.getElem?_append_left old] at hx
      rw [cellWrite_cellAt_of_ne t _ fun e => apart e.2, h.glyphs k x c hx hc]
  · have col := h.col
    change (t.cellWrite t.row _ _).byteAt a = _
    rw [cellWrite_byteAt_outside, h.outside a fun c low high => out c low (by omega)]
    unfold State.inCell
    rw [par, h.row]
    exact out ⟨t.col.val, room⟩ (by simp only; omega) (by simp only; omega)

/-- PRINT bytes that fit the rest of the row fill it from the cursor on (40_console R123, R131). -/
theorem bytesOp_rowFilled (wf : Memory.wf s.buf) (bs : List Byte) (fits : s.col.val + bs.length ≤ 80)
    (print : ∀ b ∈ bs, 0x20 ≤ b.toNat ∧ b.toNat ≤ 0x7E) : RowFilled s bs (bytesOp bs s) := by
  induction bs using List.reverseRecOn with
  | nil => exact ⟨rfl, rfl, nofun, fun _ _ => rfl⟩
  | append_singleton bs b ih =>
    rw [List.length_append, List.length_singleton] at fits
    have before := ih (by omega) fun x hx => print x (List.mem_append_left _ hx)
    have last : bytesOp (bs ++ [b]) s = place b (bytesOp bs s) := by
      rw [bytesOp_append]
      exact byteOp_print (print b (by simp))
    rw [last]
    exact before.place (cellStep_bytesOp bs s) wf (by rw [before.col]; omega) b

/-- Settles O29: `SYNC` leaves the filled row as it is. -/
theorem writeStrWithinARow : Obligations.WriteStrWithinARow := by
  intro s bs unlocked wf _ fits print
  have filled := bytesOp_rowFilled wf bs fits print
  refine ⟨_, execWriteStr_eq bs unlocked, ?_, ?_, (consoleStep_strOp bs s).keepsAllButConsole _,
    fun k b c hb hc => ?_, fun a out => ?_⟩
  · rw [State.advance_row, strOp_row, filled.row]
  · rw [State.advance_col, strOp_col, filled.col]
  · rw [State.advance_cellAt, strOp_cellAt, filled.glyphs k b c hb hc]
  · rw [State.advance_byteAt, strOp_byteAt, filled.outside a out]

/-! ## A full row and one more byte -/

/-- A line advance leaves the cursor's line in the row above the cursor (40_console R124). -/
theorem newlineOp_cellAt_above (wf : Memory.wf s.buf) {r : Row} (above : r.val + 1 = (newlineOp s).row.val) (c : Col) :
    (newlineOp s).cellAt r c = s.cellAt s.row c := by
  by_cases upper : s.row.val < 24
  · rw [newlineOp_above upper, State.setCursor_row] at above
    have same : r = s.row := Fin.ext (Nat.succ.inj above)
    rw [newlineOp_above upper, State.setCursor_cellAt, same]
  · have last : s.row.val = 24 := by have := s.row.isLt; omega
    rw [newlineOp_last last, State.setCursor_row] at above
    rw [newlineOp_last last, State.setCursor_cellAt, scroll_cellAt_below wf c (by omega) above.symm]

theorem newlineOp_row_val (s : State) :
    (newlineOp s).row.val = if s.row.val ≤ 23 then s.row.val + 1 else 24 := by
  by_cases upper : s.row.val < 24
  · rw [newlineOp_above upper, State.setCursor_row, if_pos (by omega)]
  · have last : s.row.val = 24 := by have := s.row.isLt; omega
    rw [newlineOp_last last, State.setCursor_row, if_neg (by omega), last]

/-- Settles O30: the full row leaves a pending wrap, and the line advance moves the row to the one above. -/
theorem fullRowThenOneMoreWraps : Obligations.FullRowThenOneMoreWraps := by
  intro s bs b unlocked wf _ col full print hn hb
  have start : s.col.val = 0 := by rw [col]; rfl
  have filled := bytesOp_rowFilled wf bs (by omega) print
  have step := cellStep_bytesOp bs s
  generalize hu : bytesOp bs s = u at filled step
  have wrap : u.col.val = 80 := by rw [filled.col]; omega
  have line := step.trans (cellStep_newlineOp u)
  have placed : bytesOp (bs ++ [b]) s = placeAt (glyphOf b) 0 (newlineOp u) := by
    rw [bytesOp_append, hu]
    exact (byteOp_glyph hn hb).trans (place_wrap _ wrap)
  have row : (newlineOp u).row.val = if s.row.val ≤ 23 then s.row.val + 1 else 24 := by
    rw [newlineOp_row_val, filled.row]
  have above := fun (r : Row) => newlineOp_cellAt_above (step.wf wf) (r := r)
  refine ⟨_, execWriteStr_eq (bs ++ [b]) unlocked, ?_⟩
  simp only [State.advance_col, State.advance_row, State.advance_cellAt, strOp_col, strOp_row, strOp_cellAt, placed]
  generalize newlineOp u = w at line row above
  refine ⟨rfl, row, ?_, fun r c x hr hx => ?_⟩
  · change (w.cellWrite w.row 0 _).cellAt w.row 0 = _
    rw [cellWrite_cellAt_self (line.wf wf), line.color]
  · have apart : r ≠ w.row := fun e => by
      have : r.val + 1 = w.row.val := hr
      rw [e] at this
      omega
    change (w.cellWrite w.row 0 _).cellAt r c = _
    rw [cellWrite_cellAt_of_ne w _ fun e => apart e.1, above r hr, filled.row,
      filled.glyphs c.val x c hx (by omega)]

/-! ## The banner rows -/

/-- A byte other than 0x08 never moves the cursor up (40_console R137). -/
theorem row_le_byteOp (s : State) {b : Byte} (hb : b ≠ 0x08#8) : s.row ≤ (byteOp s b).row := by
  by_cases hn : b = 0x0A#8
  · rw [hn]
    exact (newlineOp_cursor s).2
  · rw [byteOp_glyph hn hb]
    by_cases free : s.col.val < 80
    · rw [place_free _ free]
      exact le_refl s.row
    · have wrap : s.col.val = 80 := by have := s.col.isLt; omega
      rw [place_wrap _ wrap]
      exact (newlineOp_cursor s).2

/-- From row 2 down, a byte other than 0x08 writes no row above row 2 (40_console R137). -/
theorem rowsStep_byteOp_below (s : State) {b : Byte} (hb : b ≠ 0x08#8) (low : 2 ≤ s.row.val) :
    RowsStep (2 ≤ ·.val) s (byteOp s b) := by
  by_cases hn : b = 0x0A#8
  · rw [hn]
    exact rowsStep_newlineOp s
  · rw [byteOp_glyph hn hb]
    exact (rowsStep_place _ s).mono fun r => Or.rec id low.trans

/-- From row 2 down, a string without 0x08 ends there and writes no row above row 2 (40_console R137). -/
theorem bytesOp_below (bs : List Byte) (clean : ∀ b ∈ bs, b ≠ 0x08#8) (low : 2 ≤ s.row.val) :
    2 ≤ (bytesOp bs s).row.val ∧ RowsStep (2 ≤ ·.val) s (bytesOp bs s) := by
  induction bs generalizing s with
  | nil => exact ⟨low, .refl _ s⟩
  | cons b bs ih =>
    obtain ⟨hb, clean⟩ := List.forall_mem_cons.1 clean
    have down : s.row ≤ (byteOp s b).row := row_le_byteOp s hb
    obtain ⟨low', rest⟩ := ih clean (low.trans down)
    exact ⟨low', (rowsStep_byteOp_below s hb low).trans rest⟩

/-- Settles O31: the rows a string writes are disjoint from the banner rows. -/
theorem bannerRowsSurviveStrings : Obligations.BannerRowsSurviveStrings := by
  intro s bs unlocked low clean
  obtain ⟨row, written⟩ := bytesOp_below bs clean low
  refine ⟨_, execWriteStr_eq bs unlocked, ?_, fun r a banner inside => ?_⟩
  · rw [State.advance_row, strOp_row]
    exact row
  · rw [State.advance_byteAt, strOp_byteAt]
    refine written.outside a fun q hq h => ?_
    rw [h.unique inside] at hq
    omega

end Sys2Proof.Machine
end

section
/-! PROOFS. The five dispatch-block commands that change registers (spec/41_interrupt_control.md R181 to R185): one
equation per outcome. -/

namespace Sys2Proof.Machine

variable {s : State}

/-! ## `INSTALL` -/

theorem execInstall_again (table : s.installed = true) : exec .install s = .next (s.faultedWith .reinstall) :=
  if_pos table

theorem execInstall_first (fresh : s.installed = false) :
    exec .install s = .next ((s.setTable (builtTable s.par)).advance 1) :=
  if_neg (by rw [fresh]; decide)

/-- The reserved vectors, which the two exception slots take, are below every device's (41 R181). -/
theorem ne_reserved {v w : Byte} (device : 32 ≤ v.toNat) (reserved : w.toNat < 32) : v ≠ w := by
  rintro rfl
  omega

/-- The slots of the table that `INSTALL` builds, in the order of 41 R181: the four bound vectors are distinct. -/
theorem builtTable_slotOf_ordered (ok : s.par.Ok) (hi : s.installed = true) (ht : s.vt = builtTable s.par) (v : Byte) :
    s.slotOf v =
      if v = s.par.bpVector then .bound .breakpoint false
      else if v = s.par.dfVector then .bound .doubleFault true
      else if v = 0x20#8 then .bound .timer false
      else if v = 0x21#8 then .bound .keyboard false
      else .empty := by
  rw [builtTable_slotOf hi ht v, kbdVector_eq, timerVector_eq]
  by_cases low : v.toNat < 32
  · have kbd : 0x21#8 ≠ v := ne_reserved (by decide) low
    have timer : 0x20#8 ≠ v := ne_reserved (by decide) low
    rw [if_neg kbd, if_neg timer, if_neg timer.symm, if_neg kbd.symm]
    by_cases bp : v = s.par.bpVector
    · have df : s.par.dfVector ≠ v := fun e => ok.vectors_distinct (bp.symm.trans e.symm)
      rw [if_neg df, if_pos bp.symm, if_pos bp]
    · rw [if_neg bp, if_neg (Ne.symm bp)]
      simp only [eq_comm]
  · have bp : v ≠ s.par.bpVector := ne_reserved (Nat.le_of_not_lt low) ok.bp_reserved
    have df : v ≠ s.par.dfVector := ne_reserved (Nat.le_of_not_lt low) ok.df_reserved
    rw [if_neg df.symm, if_neg bp.symm, if_neg bp, if_neg df]
    by_cases timer : v = 0x20#8
    · subst timer; rfl
    · rw [if_neg timer, if_neg (Ne.symm timer)]
      simp only [eq_comm]

/-- Settles O33: the slots are those of the built table, read in the order of the rule. -/
theorem installBuildsTheTable : Obligations.InstallBuildsTheTable :=
  ⟨rfl, fun s => ⟨execInstall_again, fun fresh ok =>
    ⟨(s.setTable (builtTable s.par)).advance 1, execInstall_first fresh, rfl,
      builtTable_slotOf_ordered (s := (s.setTable (builtTable s.par)).advance 1) ok rfl rfl⟩⟩⟩

/-! ## `REMAP` -/

theorem remapValid_iff (a b : Byte) :
    remapValid a b = true ↔ a.toNat % 8 = 0 ∧ b.toNat % 8 = 0 ∧ 32 ≤ a.toNat ∧ 32 ≤ b.toNat ∧ a ≠ b := by
  simp [remapValid, and_assoc]

theorem execRemap_again {a b : Byte} (mapped : s.pic.remapped = true) :
    exec (.remap a b) s = .next (s.faultedWith .remapTwice) := if_pos mapped

theorem execRemap_malformed {a b : Byte} (fresh : s.pic.remapped = false) (malformed : remapValid a b = false) :
    exec (.remap a b) s = .next (s.halt .malformedRemap) :=
  (if_neg (by rw [fresh]; decide)).trans (if_pos malformed)

theorem execRemap_valid {a b : Byte} (fresh : s.pic.remapped = false) (valid : remapValid a b = true) :
    exec (.remap a b) s = .next ((s.setPic { s.pic with off1 := a, off2 := b, remapped := true }).advance 3) :=
  (if_neg (by rw [fresh]; decide)).trans (if_neg (by rw [valid]; decide))

/-- Settles O34: the three outcomes of the second `REMAP`, a malformed one and a valid one. -/
theorem remapSetsTheOffsetsOrStops : Obligations.RemapSetsTheOffsetsOrStops := by
  refine ⟨fun _ _ => rfl, fun s a b => ⟨execRemap_again, fun fresh malformed => ?_, fun fresh ha hb la lb ne => ?_⟩⟩
  · exact execRemap_malformed fresh (Bool.eq_false_iff.2 fun valid => malformed ((remapValid_iff a b).1 valid))
  · exact execRemap_valid fresh ((remapValid_iff a b).2 ⟨ha, hb, la, lb, ne⟩)

/-! ## `ENABLE` -/

theorem execEnable_early (early : s.installed = false ∨ s.pic.remapped = false) :
    exec .enable s = .next (s.faultedWith .enableOrder) := if_pos early

theorem execEnable_ready (table : s.installed = true) (offsets : s.pic.remapped = true) :
    exec .enable s =
      if s.lock = .normal then .next (s.faultedWith .enableInSection)
      else .next { s with intEnable := true, cmdPc := s.cmdPc + 1 } :=
  if_neg (by rw [table, offsets]; decide)

/-- Settles O35: the order check comes first, so that the lock matters in a booted system only. -/
theorem enableSetsTheInterruptFlag : Obligations.EnableSetsTheInterruptFlag := by
  refine ⟨rfl, fun s => ⟨execEnable_early, fun table offsets held => ?_, fun table offsets unlocked => ?_⟩⟩
  · rw [execEnable_ready table offsets, if_pos held]
  · rw [execEnable_ready table offsets, if_neg unlocked]

/-! ## Sections -/

theorem execSectionBegin_unlocked (unlocked : s.lock ≠ .normal) :
    exec .sectionBegin s =
      .next { s with savedIf := s.intEnable, intEnable := false, lock := .normal, cmdPc := s.cmdPc + 1 } :=
  if_neg unlocked

theorem execSectionBegin_held (held : s.lock = .normal) :
    exec .sectionBegin s = .next { s with sys := .stuck .selfDeadlock } := if_pos held

theorem execSectionEnd_held (held : s.lock = .normal) :
    exec .sectionEnd s = .next { s with lock := .free, intEnable := s.savedIf, cmdPc := s.cmdPc + 1 } :=
  if_pos held

theorem execSectionEnd_unlocked (unlocked : s.lock ≠ .normal) :
    exec .sectionEnd s = .next (s.faultedWith .sectionUnbalanced) := if_neg unlocked

/-- Settles O36: a free lock is one that no section holds. -/
theorem sectionBeginTakesTheLock : Obligations.SectionBeginTakesTheLock :=
  ⟨rfl, fun _ => ⟨fun free => execSectionBegin_unlocked (by rw [free]; decide), execSectionBegin_held⟩⟩

/-- Settles O37: the two outcomes, by whether a section holds the lock. -/
theorem sectionEndRestoresInterrupts : Obligations.SectionEndRestoresInterrupts :=
  ⟨rfl, fun _ => ⟨execSectionEnd_held, execSectionEnd_unlocked⟩⟩

end Sys2Proof.Machine
end

section
/-! PROOFS. The refusals of `ACK` and the end of service (spec/41_interrupt_control.md R189; spec/60_exceptions.md
R220). -/

namespace Sys2Proof.Machine

variable {s : State} {v : Byte} {w : Word} {k l : Nat}

/-! ## The lowest line in service -/

theorem primaryTop_none (clear : ∀ j, j < 8 → w.getLsbD j = false) :
    primaryLines.find? (fun j => w.getLsbD j) = none := by
  change (List.range' 0 8).find? _ = none
  simpa using clear

theorem primaryTop_some (hk : k < 8) (bit : w.getLsbD k = true) (low : ∀ j, j < k → w.getLsbD j = false) :
    primaryLines.find? (fun j => w.getLsbD j) = some k := by
  change (List.range' 0 8).find? _ = some k
  simpa [bit] using ⟨hk, low⟩

theorem secondaryTop_none (clear : ∀ j, 8 ≤ j → j < 16 → w.getLsbD j = false) :
    secondaryLines.find? (fun j => w.getLsbD j) = none := by
  change (List.range' 8 8).find? _ = none
  simpa using clear

theorem secondaryTop_some (h8 : 8 ≤ k) (hk : k < 16) (bit : w.getLsbD k = true)
    (low : ∀ j, 8 ≤ j → j < k → w.getLsbD j = false) : secondaryLines.find? (fun j => w.getLsbD j) = some k := by
  change (List.range' 8 8).find? _ = some k
  simpa [bit] using ⟨⟨h8, hk⟩, low⟩

theorem clearBit_getLsbD_of_ne {j : Nat} (h : j ≠ l) : (clearBit w l).getLsbD j = w.getLsbD j := by
  rw [clearBit_getLsbD, bne_iff_ne.2 h, Bool.and_true]

/-! ## One controller's acknowledgement -/

/-- `CHECK_TOP` with no line of the controller in service (41 R189). -/
theorem ackLine_none {c : Controller} {lines : List Nat} (clear : lines.find? (fun j => s.pic.isr.getLsbD j) = none) :
    ackLine c lines l s = .stopped (s.faultedWith .ackDuplicate) := by
  unfold ackLine checkTop
  rw [clear]
  rfl

/-- `CHECK_TOP` with another line of the controller lowest in service (41 R189). -/
theorem ackLine_other {c : Controller} {lines : List Nat} (top : lines.find? (fun j => s.pic.isr.getLsbD j) = some k)
    (ne : k ≠ l) : ackLine c lines l s = .stopped (s.faultedWith .ackMismatch) := by
  unfold ackLine checkTop
  rw [top]
  simp only [if_neg ne]
  rfl

/-! ## The controller of a vector -/

theorem acknowledge_unmapped (fresh : s.pic.remapped = false) :
    acknowledge v s = .stopped (s.faultedWith .ackBeforeRemap) := if_pos fresh

/-- `ACK` of a vector of the secondary: its own line, then the cascade line (41 R189). -/
theorem acknowledge_secondary (mapped : s.pic.remapped = true) (h8 : 8 ≤ l) (hl : l < 16)
    (hv : v.toNat = s.pic.off2.toNat + (l - 8)) :
    acknowledge v s =
      (ackLine .secondary secondaryLines l s).andThen (ackLine .primary primaryLines cascadeLine) := by
  have theirs : ownsVector s.pic.off2 v = true := (ownsVector_iff _ _).2 ⟨by omega, by omega⟩
  have line : 8 + (v.toNat - s.pic.off2.toNat) = l := by omega
  unfold acknowledge
  rw [if_neg (by rw [mapped]; decide), if_pos theirs, line]

/-- `ACK` of a vector that the secondary does not own: the primary's line if it owns it (41 R189). -/
theorem acknowledge_not_secondary (mapped : s.pic.remapped = true)
    (foreign : ¬(s.pic.off2.toNat ≤ v.toNat ∧ v.toNat < s.pic.off2.toNat + 8)) :
    acknowledge v s =
      if ownsVector s.pic.off1 v then ackLine .primary primaryLines (v.toNat - s.pic.off1.toNat) s
      else .stopped (s.faultedWith .ackUnowned) := by
  unfold acknowledge
  rw [if_neg (by rw [mapped]; decide), if_neg (mt (ownsVector_iff _ _).1 foreign)]
  rfl

/-- Settles O47: which controller owns the vector, then what `CHECK_TOP` finds there. -/
theorem ackRefusesWhatIsNotInService : Obligations.AckRefusesWhatIsNotInService := by
  intro s v
  refine ⟨acknowledge_unmapped, fun mapped foreign => ⟨fun unowned => ?_, fun low high => ?_⟩,
    fun mapped l h8 hl hv => ?_⟩
  · rw [acknowledge_not_secondary mapped foreign, if_neg (mt (ownsVector_iff _ _).1 unowned)]
  · have primary : acknowledge v s = ackLine .primary primaryLines (v.toNat - s.pic.off1.toNat) s := by
      rw [acknowledge_not_secondary mapped foreign, if_pos ((ownsVector_iff _ _).2 ⟨low, high⟩)]
    rw [primary]
    exact ⟨fun clear => ackLine_none (primaryTop_none clear),
      fun k hk bit lowest ne => ackLine_other (primaryTop_some hk bit lowest) ne⟩
  · rw [acknowledge_secondary mapped h8 hl hv]
    refine ⟨fun clear => ?_, fun k h8 hk bit lowest ne => ?_, fun bit lowest => ?_⟩
    · rw [ackLine_none (secondaryTop_none clear)]; rfl
    · rw [ackLine_other (secondaryTop_some h8 hk bit lowest) ne]; rfl
    · rw [ackLine_top (secondaryTop_some h8 hl bit lowest)]
      have kept : ∀ j, j < 8 → (clearBit s.pic.isr l).getLsbD j = s.pic.isr.getLsbD j :=
        fun j hj => clearBit_getLsbD_of_ne (by omega)
      refine ⟨endOfInterrupt .secondary l s, rfl, clearBit_getLsbD s.pic.isr l, fun clear => ?_,
        fun k hk ne bit lowest => ?_⟩
      · exact ackLine_none (primaryTop_none fun j hj => (kept j hj).trans (clear j hj))
      · exact ackLine_other (primaryTop_some hk ((kept k hk).trans bit)
          fun j hj => (kept j (by omega)).trans (lowest j hj)) ne

/-- Settles O48: each line acknowledged is the lowest in service of its controller. -/
theorem ackEndsServiceInOrder : Obligations.AckEndsServiceInOrder := by
  refine fun s v mapped => ⟨fun foreign l hl hv bit lowest => ?_, fun l h8 hl hv bit lowest b0 b1 b2 => ?_⟩
  · exact ⟨_, ack_primary mapped foreign hl hv (primaryTop_some hl bit lowest), rfl, clearBit_getLsbD s.pic.isr l⟩
  · have kept : ∀ j, j < 8 → (clearBit s.pic.isr l).getLsbD j = s.pic.isr.getLsbD j :=
      fun j hj => clearBit_getLsbD_of_ne (by omega)
    have below : ∀ j, j < 2 → s.pic.isr.getLsbD j = false
      | 0, _ => b0
      | 1, _ => b1
    have cascade : primaryLines.find? (fun j => (clearBit s.pic.isr l).getLsbD j) = some cascadeLine :=
      primaryTop_some (by decide) ((kept 2 (by decide)).trans b2)
        fun j hj => (kept j (hj.trans (by decide))).trans (below j hj)
    refine ⟨_, ack_secondary mapped h8 hl hv (secondaryTop_some h8 hl bit lowest) cascade, rfl, fun j => ?_⟩
    rw [endOfInterrupt_pic, endOfInterrupt_pic, clearBit_getLsbD, clearBit_getLsbD]
    rfl

end Sys2Proof.Machine
end

section
/-! PROOFS. The step of a planned command and of a raise (spec/41_interrupt_control.md R180, R190). -/

namespace Sys2Proof.Machine

variable {s : State}

theorem runCommand_of_decoded {i : Instr} {rest : List Byte} (d : decode s.fetchBytes = .ok i rest) :
    runCommand s = exec i s := by
  unfold runCommand
  rw [d]

/-- Settles O4: bytes that decode are there, so that the command step runs them. -/
theorem stepRunsTheDecodedCommand : Obligations.StepRunsTheDecodedCommand := by
  intro s i rest next d
  have running : s.afterMove.sys = .running := next.1
  have more : s.afterMove.exhausted = false := decide_eq_false (Nat.not_le_of_lt (fetched_not_exhausted d))
  rw [step_of_command next, commandStep, if_pos ⟨running, more⟩, runCommand_of_decoded (s := s.afterMove) d]

theorem step_of_raise {l : DeviceLine} {moves : List EnvMove} (h : s.TakesEventNext (.raise l) moves) :
    step s = .next (raiseLine l (s.setEnv moves)) := by
  obtain ⟨live, fault, env⟩ := h
  rw [step_of_live live fault, liveStep, env]

/-- Settles O45: the request bits are those before with the line's bit set. -/
theorem raiseSetsOneRequest : Obligations.RaiseSetsOneRequest := by
  intro s l moves next
  have line : l.number < 16 := by cases l <;> decide
  refine ⟨_, step_of_raise next, ?_, fun k ne => ?_, rfl⟩
  · change (setBit s.pic.irr l.number).getLsbD l.number = true
    rw [setBit_getLsbD _ _ _ line, beq_self_eq_true, Bool.or_true]
  · change (setBit s.pic.irr l.number).getLsbD k = _
    rw [setBit_getLsbD _ _ _ line, beq_eq_false_iff_ne.2 ne, Bool.or_false]

end Sys2Proof.Machine
end

section
/-! PROOFS. A device's delivery (spec/41_interrupt_control.md R189, R191): which line it takes, and its acknowledgement
(spec/60_exceptions.md R224, R228, R233). -/

namespace Sys2Proof.Machine

variable {s : State}

/-! ## The line that is taken -/

/-- With no line in service a device's line waits for its request and its mask alone (41 R191). -/
theorem deliverable_device {p : Pic} {l : Nat} (device : l < 2) (idle : p.isr = 0#16) :
    deliverable p l = (p.irr.getLsbD l && !p.mask.getLsbD l) := by
  have ahead : l ≠ cascadeLine := by unfold cascadeLine; omega
  simp [deliverable, noneInService, idle, ahead, show l < 8 by omega]

/-- A planned delivery of a device's line takes that line: the keyboard's where the timer's is not deliverable
(41 R191; 60_exceptions R228). -/
theorem State.DeliversNext.first {l : DeviceLine} {moves : List EnvMove} (h : s.DeliversNext l moves)
    (idle : s.pic.isr = 0#16) : firstDeliverable s.pic = some l.number := by
  obtain ⟨-, -, pending, unmasked, timerOut⟩ := h
  have ready : deliverable s.pic l.number = true := by
    rw [deliverable_device (by cases l <;> decide) idle, pending, unmasked]; rfl
  unfold firstDeliverable deliveryOrder
  cases l with
  | timer => exact List.find?_cons_of_pos ready
  | keyboard =>
    have passed : ¬deliverable s.pic 0 = true := by
      rw [deliverable_device (by decide) idle]
      rcases timerOut rfl with clear | masked
      · rw [clear, Bool.false_and]; decide
      · rw [masked, Bool.not_true, Bool.and_false]; decide
    rw [List.find?_cons_of_neg passed]
    exact List.find?_cons_of_pos ready

theorem afterMove_of_planned {e : EnvMove} {moves : List EnvMove} (env : s.env = e :: moves) :
    s.afterMove = s.setEnv moves := by
  unfold State.afterMove
  rw [env]
  rfl

/-- The step of a planned delivery of a device's line: its trap, with the line taken into service (41 R191). -/
theorem State.DeliversNext.step_eq {l : DeviceLine} {moves : List EnvMove} (h : s.DeliversNext l moves) (inv : s.Inv) :
    step s = .next
      (trap (vectorOf s.pic l.number) ((s.setEnv moves).setPic (takeLine s.pic l.number))) := by
  have planned := h
  obtain ⟨next, on, -⟩ := planned
  have taken := step_of_deliver next
  obtain ⟨live, fault, env⟩ := next
  have enabled : deliverLine (s.setEnv moves) = some l.number :=
    (if_pos ⟨live, fault, on, inv.ctx_normal⟩).trans (h.first (inv.none_in_service live))
  rw [taken, afterMove_of_planned env, deliver, enabled]
  rfl

theorem takeLine_device {p : Pic} {l : Nat} (device : l < 8) :
    takeLine p l = { p with irr := clearBit p.irr l, isr := setBit p.isr l } := by
  have primary : ¬8 ≤ l := by omega
  simp only [takeLine, if_neg primary]

/-! ## The acknowledgement -/

/-- After a remap the vectors of the primary's lines do not wrap (41 R182; 60_exceptions R224). -/
theorem vectorOf_primary {p : Pic} {l : Nat} (valid : remapValid p.off1 p.off2 = true) (hl : l < 8) :
    (vectorOf p l).toNat = p.off1.toNat + l := by
  obtain ⟨aligned, -⟩ := (remapValid_iff _ _).1 valid
  have fits := p.off1.isLt
  unfold vectorOf
  rw [if_neg (by omega), BitVec.toNat_add, BitVec.toNat_ofNat]
  omega

/-- The bases are distinct multiples of 8, so that the secondary owns no vector of the primary (41 R182). -/
theorem vectorOf_primary_foreign {p : Pic} {l : Nat} (valid : remapValid p.off1 p.off2 = true) (hl : l < 8) :
    ¬(p.off2.toNat ≤ (vectorOf p l).toNat ∧ (vectorOf p l).toNat < p.off2.toNat + 8) := by
  have vector := vectorOf_primary valid hl
  obtain ⟨aligned, aligned', -, -, distinct⟩ := (remapValid_iff _ _).1 valid
  have apart : p.off1.toNat ≠ p.off2.toNat := fun e => distinct (BitVec.eq_of_toNat_eq e)
  omega

/-- A primary line that alone is in service is acknowledged on its own vector (41 R189). -/
theorem acknowledge_only {l : Nat} (mapped : s.pic.remapped = true)
    (valid : remapValid s.pic.off1 s.pic.off2 = true) (hl : l < 8) (only : s.pic.isr = setBit 0#16 l) :
    acknowledge (vectorOf s.pic l) s = .done (endOfInterrupt .primary l s) := by
  have bits : ∀ j, s.pic.isr.getLsbD j = (j == l) := fun j => by
    rw [only, setBit_getLsbD _ _ _ (by omega), BitVec.getLsbD_zero, Bool.false_or]
  refine ack_primary mapped (vectorOf_primary_foreign valid hl) hl (vectorOf_primary valid hl)
    (primaryTop_some hl ?_ fun j hj => ?_)
  · rw [bits, beq_self_eq_true]
  · rw [bits, beq_eq_false_iff_ne.2 (by omega)]

/-! ## The handler's return -/

/-- The console lock is free while interrupts are enabled (41 R184, R187). -/
theorem State.Inv.lock_free (inv : s.Inv) (on : s.intEnable = true) : s.lock = .free := by
  cases held : s.lock with
  | free => rfl
  | normal => rw [inv.locked_masked held] at on; cases on
  | irq => exact absurd held inv.lock_not_irq

/-- A trap whose handler returns (60_exceptions R231, R233). -/
theorem trap_of_done {t : State} {v : Byte} {h : Handler} {alt : Bool} (bound : s.slotOf v = .bound h alt)
    (done : runHandler h v (trapEntry v (s.log (.deliver v))) = .done t) : trap v s = trapReturn s.intEnable t := by
  rw [trap_bound bound, trapBody, done]
  rfl

/-- A handler's end-of-interrupt and return leave the console as it is, but for the entry of `EV` (41 R189;
60_exceptions R233). -/
theorem trapReturn_endOfInterrupt_graft (u o : State) (w : Controller) (l : Nat) (on : Bool) :
    trapReturn on (endOfInterrupt w l (u.graft o)) =
      (u.graft { o with pic := { o.pic with isr := clearBit o.pic.isr l }, ctx := .normal, intEnable := on }).log
        (.eoi w) := rfl

end Sys2Proof.Machine
end

section
/-! PROOFS. A keyboard delivery (spec/41_interrupt_control.md R193; spec/10_state.md R36, R40). The handler's console
operation reads and writes the console alone, so that it leaves there what it leaves outside the trap. -/

namespace Sys2Proof.Machine

variable {s : State}

/-! ## `H_KEYBOARD` -/

/-- What the console write of `H_KEYBOARD` leaves on a free lock (41 R193; `forwardKey_done`). -/
def forwarded (ev : Option KeyEvent) (s : State) : State := ev.elim s fun key => strOp (keyText key) s

theorem forwardKey_done (free : s.lock = .free) (ev : Option KeyEvent) : forwardKey ev s = .done (forwarded ev s) := by
  rw [forwardKey_free free]
  cases ev <;> rfl

theorem consoleStep_forwarded (ev : Option KeyEvent) (s : State) : ConsoleStep s (forwarded ev s) := by
  cases ev with
  | none => exact ConsoleStep.refl s
  | some key => exact consoleStep_strOp _ s

theorem local_forwarded (ev : Option KeyEvent) : Local (forwarded ev) := by
  cases ev with
  | none => exact fun _ _ => rfl
  | some key => exact local_strOp _

/-- What the decoder answers to the next scancode (10_state R36, R40; 41 R193). -/
def keyAnswer (s : State) : DecoderState × Option KeyEvent :=
  Config.decode (decoderStateOf s.dstate) (Config.kbdByte s.kbdReads)

/-- `s` once `H_KEYBOARD` has forwarded the key: what is left is the acknowledgement (41 R193). -/
def keyForwarded (s : State) : State :=
  forwarded (keyAnswer s).2 (s.kbdRead.2.setDstate (.ready (keyAnswer s).1))

theorem keyboardHandler_eq (free : s.lock = .free) (v : Byte) :
    keyboardHandler v s = acknowledge v (keyForwarded s) := by
  have done := forwardKey_done (s := s.kbdRead.2.setDstate (.ready (keyAnswer s).1)) free (keyAnswer s).2
  exact congrArg (Ran.andThen · (acknowledge v)) done

theorem keyForwarded_pic (s : State) : (keyForwarded s).pic = s.pic := by
  rw [keyForwarded, (consoleStep_forwarded _ _).frame]
  rfl

/-- `H_KEYBOARD` with its line alone in service and the lock free ends with the acknowledgement (41 R193). -/
theorem keyboardHandler_only {l : Nat} (free : s.lock = .free) (mapped : s.pic.remapped = true)
    (valid : remapValid s.pic.off1 s.pic.off2 = true) (hl : l < 8) (only : s.pic.isr = setBit 0#16 l) :
    keyboardHandler (vectorOf s.pic l) s = .done (endOfInterrupt .primary l (keyForwarded s)) := by
  have acked := acknowledge_only (s := keyForwarded s) (l := l)
  rw [keyForwarded_pic] at acked
  rw [keyboardHandler_eq free, acked mapped valid hl only]

/-- A trap to `H_KEYBOARD` with its line alone in service and the lock free (41 R193; 60_exceptions R233). -/
theorem trap_keyboard {v : Byte} {l : Nat} (vector : vectorOf s.pic l = v) (bound : s.slotOf v = .bound .keyboard false)
    (free : s.lock = .free) (mapped : s.pic.remapped = true) (valid : remapValid s.pic.off1 s.pic.off2 = true)
    (hl : l < 8) (only : s.pic.isr = setBit 0#16 l) :
    trap v s = trapReturn s.intEnable
      (endOfInterrupt .primary l (keyForwarded (trapEntry v (s.log (.deliver v))))) := by
  have done := keyboardHandler_only (s := trapEntry v (s.log (.deliver v))) free mapped valid hl only
  rw [trapEntry_pic, State.log_pic, vector] at done
  exact trap_of_done bound done

/-- What `KBD_VECTOR` finds in the table `INSTALL` builds (41 R181). -/
theorem builtTable_keyboard (hi : s.installed = true) (ht : s.vt = builtTable s.par) :
    s.slotOf 0x21#8 = .bound .keyboard false := by
  rw [builtTable_slotOf hi ht, if_pos kbdVector_eq]

/-- With the console of `s`, the handler leaves the console it leaves from `s`, whatever the rest `o` is. -/
theorem keyForwarded_graft (s o : State) :
    keyForwarded (s.graft o) =
      (forwarded (keyAnswer o).2 (s.log (.portR s.par.kbdDataPort (Config.kbdByte o.kbdReads)))).graft
        { o with dstate := .ready (keyAnswer o).1, kbdReads := o.kbdReads + 1 } :=
  local_forwarded (keyAnswer o).2 (s.log (.portR s.par.kbdDataPort (Config.kbdByte o.kbdReads)))
    { o with dstate := .ready (keyAnswer o).1, kbdReads := o.kbdReads + 1 }

/-! ## What the delivery leaves -/

/-- `s` with the trap to `KBD_VECTOR` and the byte read recorded (41 R193; 60_exceptions R231). -/
def keyRecorded (s : State) : State :=
  { s with hist := .portR s.par.kbdDataPort (Config.kbdByte s.kbdReads) :: .deliver 0x21#8 :: s.hist }

/-- That, with the key forwarded to the console. -/
def keyShown (s : State) : State := forwarded (keyAnswer s).2 (keyRecorded s)

theorem keyForwarded_recorded (s o : State) (dstate : o.dstate = s.dstate) (reads : o.kbdReads = s.kbdReads) :
    keyForwarded ((s.log (.deliver 0x21#8)).graft o) =
      (keyShown s).graft { o with dstate := .ready (keyAnswer s).1, kbdReads := s.kbdReads + 1 } := by
  have answer : keyAnswer o = keyAnswer s := by rw [keyAnswer, keyAnswer, dstate, reads]
  rw [keyForwarded_graft, answer, reads]
  rfl

/-- `s` once a keyboard delivery is over (`keyboard_delivery`): that console, then the end-of-interrupt. -/
def keyServed (s : State) (moves : List EnvMove) : State :=
  ((keyShown s).graft { s with
    pic := { s.pic with irr := clearBit s.pic.irr 1 }
    dstate := .ready (keyAnswer s).1, env := moves, kbdReads := s.kbdReads + 1 }).log (.eoi .primary)

theorem keyServed_frame (s : State) (moves : List EnvMove) :
    keyServed s moves = { s with
      row := (keyServed s moves).row, col := (keyServed s moves).col, buf := (keyServed s moves).buf
      hwcur := (keyServed s moves).hwcur, crtcIdx := (keyServed s moves).crtcIdx, hist := (keyServed s moves).hist
      pic := (keyServed s moves).pic, dstate := (keyServed s moves).dstate, env := moves
      kbdReads := s.kbdReads + 1 } := by
  have console : ConsoleStep (keyRecorded s) (keyShown s) := consoleStep_forwarded _ _
  have par : (keyShown s).par = s.par := console.par
  have color : (keyShown s).color = s.color := console.color
  unfold keyServed
  generalize keyShown s = u at par color
  apply State.ext
  case par => exact par
  case color => exact color
  all_goals rfl

/-! ## The delivery as a whole -/

/-- The step of a keyboard delivery (41 R191, R193). -/
theorem keyboard_delivery {moves : List EnvMove} (inv : s.Inv) (next : s.DeliversNext .keyboard moves)
    (base : s.pic.off1 = 0x20#8) : step s = .next (keyServed s moves) := by
  have trapped := next.step_eq inv
  obtain ⟨⟨live, -⟩, on, -⟩ := next
  obtain ⟨table, mapped⟩ := inv.enabled_booted (.inl on)
  have idle : s.pic.isr = 0#16 := inv.none_in_service live
  have vector : vectorOf s.pic 1 = 0x21#8 := by rw [vectorOf, base]; rfl
  have taken : takeLine s.pic 1 = { s.pic with irr := clearBit s.pic.irr 1, isr := setBit 0#16 1 } := by
    rw [takeLine_device (by decide), idle]
  have served := trap_keyboard (s := (s.setEnv moves).setPic (takeLine s.pic 1)) (l := 1) vector
    (builtTable_keyboard table (inv.table_built table)) (inv.lock_free on) mapped (inv.offsets_valid mapped) (by decide)
    (by rw [State.setPic_pic, taken])
  have shown :
      keyForwarded (trapEntry 0x21#8 (((s.setEnv moves).setPic (takeLine s.pic 1)).log (.deliver 0x21#8))) = _ :=
    keyForwarded_recorded s (trapEntry 0x21#8 ((s.setEnv moves).setPic (takeLine s.pic 1))) rfl rfl
  rw [trapped, DeviceLine.number, vector, served, shown, trapReturn_endOfInterrupt_graft, keyServed]
  simp [taken, clearBit_setBit_zero, idle, inv.ctx_normal]

theorem State.sameConsole_advance (s : State) (n : Nat) : s.SameConsole (s.advance n) :=
  ⟨rfl, rfl, rfl, rfl, rfl, rfl, rfl⟩

theorem State.SameConsole.graft_log {u v : State} (h : u.SameConsole v) (o : State) (e : Event) :
    ((u.graft o).log e).SameConsole v := h

theorem State.graft_EV (s o : State) : (s.graft o).EV = s.EV := rfl

theorem keyServed_sameConsole {u : State} (moves : List EnvMove) (h : (keyShown s).SameConsole u) :
    (keyServed s moves).SameConsole u := by
  unfold keyServed
  exact h.graft_log _ _

theorem keyServed_EV (s : State) (moves : List EnvMove) :
    (keyServed s moves).EV = (keyShown s).EV ++ [Event.eoi .primary] := by
  rw [keyServed, State.log_EV, State.graft_EV]

theorem keyServed_silent (moves : List EnvMove) (silent : (keyAnswer s).2 = none) :
    (keyServed s moves).SameConsole s ∧ (keyServed s moves).EV =
      s.EV ++ [Event.deliver 0x21#8, .portR s.par.kbdDataPort (Config.kbdByte s.kbdReads), .eoi .primary] := by
  have shown : keyShown s = keyRecorded s := by rw [keyShown, silent]; rfl
  refine ⟨keyServed_sameConsole moves ?_, ?_⟩
  · rw [shown]
    exact ⟨rfl, rfl, rfl, rfl, rfl, rfl, rfl⟩
  · rw [keyServed_EV, shown]
    simp [State.EV, keyRecorded]

theorem keyServed_heard {key : KeyEvent} (moves : List EnvMove) (unlocked : s.lock ≠ .irq)
    (heard : (keyAnswer s).2 = some key) :
    ∃ u, exec (.writeStr (keyText key)) (keyRecorded s) = .next u ∧ (keyServed s moves).SameConsole u ∧
      (keyServed s moves).EV = u.EV ++ [Event.eoi .primary] := by
  have shown : keyShown s = strOp (keyText key) (keyRecorded s) := by rw [keyShown, heard]; rfl
  have written : exec (.writeStr (keyText key)) (keyRecorded s) = _ := execWriteStr_eq (keyText key) unlocked
  rw [← shown] at written
  refine ⟨_, written, keyServed_sameConsole moves (State.sameConsole_advance _ _), ?_⟩
  rw [keyServed_EV, State.advance_EV]

/-- Settles O42: the console and the history are those of the forwarded key, and nothing but the handler's own registers
changes beside them. -/
theorem keyboardDeliveryForwardsTheKey : Obligations.KeyboardDeliveryForwardsTheKey := by
  intro s moves inv next on base pending unmasked timerOut
  have delivered := keyboard_delivery inv ⟨next, on, pending, unmasked, fun _ => timerOut⟩ base
  have isr : (keyServed s moves).pic.isr = 0#16 := inv.none_in_service next.1
  have irr : ∀ l, (keyServed s moves).pic.irr.getLsbD l = (s.pic.irr.getLsbD l && l != 1) :=
    clearBit_getLsbD s.pic.irr 1
  refine ⟨keyServed s moves, Config.kbdByte s.kbdReads, delivered, rfl, isr, rfl, ?_, fun l ne => ?_,
    keyServed_frame s moves, ?_⟩
  · rw [irr, bne_self_eq_false, Bool.and_false]
  · rw [irr, bne_iff_ne.2 ne, Bool.and_true]
  · split
    · rename_i silent
      exact keyServed_silent moves silent
    · rename_i heard
      exact keyServed_heard moves inv.lock_not_irq heard

end Sys2Proof.Machine
end

section
/-! PROOFS. The console and the dispatch block (spec/60_exceptions.md R239; spec/41_interrupt_control.md R186). A console
operation neither reads what is outside the console (`Local`) nor looks back into `EV` (`Forgetful`), so that what it does
is fixed by the console it starts from. -/

namespace Sys2Proof.Machine

variable {s s' : State}

/-! ## Operations that do not look back into `EV` -/

/-- `s` with the entries `past`, newest first, before those of its own history. -/
def State.withPast (s : State) (past : List Event) : State := { s with hist := s.hist ++ past }

/-- An operation that does the same whatever the history before it. -/
def Forgetful (f : State → State) : Prop := ∀ s past, f (s.withPast past) = (f s).withPast past

theorem Forgetful.comp {f g : State → State} (hf : Forgetful f) (hg : Forgetful g) : Forgetful fun s => g (f s) :=
  fun s past => (congrArg g (hf s past)).trans (hg (f s) past)

theorem Forgetful.foldl {α : Type} {f : State → α → State} (hf : ∀ x, Forgetful fun s => f s x) (xs : List α) :
    Forgetful fun s => xs.foldl f s := by
  induction xs with
  | nil => exact fun _ _ => rfl
  | cons x xs ih => exact (hf x).comp ih

theorem forgetful_clearRowOp (r : Row) : Forgetful (clearRowOp r) := Forgetful.foldl (fun _ _ _ => rfl) allCols

theorem forgetful_scrollRow (r : Row) : Forgetful fun s => scrollRow s r := Forgetful.foldl (fun _ _ _ => rfl) allCols

theorem forgetful_scroll : Forgetful scroll := by
  intro s past
  have copied : scrollRows.foldl scrollRow (s.withPast past) = (scrollRows.foldl scrollRow s).withPast past :=
    Forgetful.foldl forgetful_scrollRow scrollRows s past
  unfold scroll
  rw [copied, forgetful_clearRowOp 24 _ past]

theorem forgetful_setCursor (r : Row) (c : CurCol) : Forgetful fun s => s.setCursor r c := fun _ _ => rfl

theorem forgetful_newlineOp : Forgetful newlineOp := by
  intro s past
  by_cases above : s.row.val < 24
  · rw [newlineOp_above above, newlineOp_above (s := s.withPast past) above]
    rfl
  · have last : s.row.val = 24 := by have := s.row.isLt; omega
    rw [newlineOp_last last, newlineOp_last (s := s.withPast past) last, forgetful_scroll s past]
    exact forgetful_setCursor s.row 0 (scroll s) past

theorem forgetful_placeAt (g : Byte) (c : Col) : Forgetful (placeAt g c) := fun _ _ => rfl

theorem forgetful_place (g : Byte) : Forgetful (place g) := by
  intro s past
  by_cases free : s.col.val < 80
  · rw [place_free g free, place_free g (s := s.withPast past) free]
    rfl
  · have wrap : s.col.val = 80 := by have := s.col.isLt; omega
    rw [place_wrap g wrap, place_wrap g (s := s.withPast past) wrap]
    exact (forgetful_newlineOp.comp (forgetful_placeAt g 0)) s past

theorem forgetful_backspaceOp : Forgetful backspaceOp := by
  intro s past
  have same : (s.withPast past).row = s.row ∧ (s.withPast past).col = s.col := ⟨rfl, rfl⟩
  unfold backspaceOp
  simp only [same.1, same.2]
  split
  · rfl
  · split <;> rfl

theorem forgetful_byteOp (b : Byte) : Forgetful fun s => byteOp s b := by
  intro s past
  simp only [byteOp]
  cases filterByte b with
  | print => exact forgetful_place b s past
  | newline => exact forgetful_newlineOp s past
  | bs => exact forgetful_backspaceOp s past
  | other => exact forgetful_place _ s past

theorem forgetful_bytesOp (bs : List Byte) : Forgetful (bytesOp bs) := Forgetful.foldl forgetful_byteOp bs

theorem forgetful_portWrite (port : Word) (v : Byte) : Forgetful fun s => s.portWrite port v := by
  intro s past
  have same : (s.withPast past).par = s.par := rfl
  simp only [State.portWrite, same]
  split
  · rfl
  · split <;> rfl

theorem forgetful_sync : Forgetful sync := by
  intro s past
  have write : ∀ port v (t : State), (t.withPast past).portWrite port v = (t.portWrite port v).withPast past :=
    fun port v t => forgetful_portWrite port v t past
  simp only [sync, write]
  rfl

theorem forgetful_strOp (bs : List Byte) : Forgetful (strOp bs) := (forgetful_bytesOp bs).comp forgetful_sync

/-! ## The same console, the same effect -/

/-- From `s` to `t` and from `s'` to `t'` the console comes out the same, and the same entries are appended to `EV`. -/
def State.SameEffect (s s' t t' : State) : Prop :=
  ∃ es, t.SameConsole t' ∧ t.EV = s.EV ++ es ∧ t'.EV = s'.EV ++ es

theorem State.withPast_EV (s : State) (past : List Event) : (s.withPast past).EV = past.reverse ++ s.EV :=
  List.reverse_append

/-- A state with the same console is that console, with its own history, in its own rest. -/
theorem State.SameConsole.eq_graft (h : s.SameConsole s') :
    s' = (({ s with hist := [] } : State).graft s').withPast s'.hist := by
  obtain ⟨par, row, col, color, buf, hwcur, crtcIdx⟩ := h
  simp [State.graft, State.withPast, par, row, col, color, buf, hwcur, crtcIdx]

/-- Both effects are that on the console with an empty history. -/
theorem State.SameConsole.sameEffect {f : State → State} (loc : Local f) (blind : Forgetful f)
    (h : s.SameConsole s') : s.SameEffect s' (f s) (f s') := by
  have here : f s = (f { s with hist := [] }).withPast s.hist := blind { s with hist := [] } s.hist
  have there : f s' = ((f { s with hist := [] }).graft s').withPast s'.hist := by
    conv_lhs => rw [h.eq_graft, blind, loc]
  refine ⟨(f { s with hist := [] }).EV, ?_, ?_, ?_⟩
  · rw [here, there]
    exact ⟨rfl, rfl, rfl, rfl, rfl, rfl, rfl⟩
  · rw [here, State.withPast_EV]
    rfl
  · rw [there, State.withPast_EV]
    rfl

/-- Under the console lock the console comes out as without it, whoever holds the lock (41 R186). -/
theorem normalConsole_graft {f : State → State} (loc : Local f) (s : State) :
    ∃ o, normalConsole f s = (f s).graft o := by
  unfold normalConsole
  split
  · exact ⟨f s, rfl⟩
  · have locked : f ((s.setIntEnable false).setLock .normal) = (f s).graft ((s.setIntEnable false).setLock .normal) :=
      loc s ((s.setIntEnable false).setLock .normal)
    exact ⟨s.setLock .free, by rw [locked]; rfl⟩

/-- A console operation under the console lock, followed by the advance of `cmd_pc` (41 R186). -/
theorem sameEffect_normalConsole {f : State → State} (loc : Local f) (blind : Forgetful f) (n : Nat)
    (h : s.SameConsole s') :
    s.SameEffect s' (normalConsole (fun t => (f t).advance n) s) (normalConsole (fun t => (f t).advance n) s') := by
  obtain ⟨o, here⟩ := normalConsole_graft loc s
  obtain ⟨o', there⟩ := normalConsole_graft loc s'
  rw [normalConsole_advance, normalConsole_advance, here, there]
  exact h.sameEffect loc blind

/-- `CLEAR_ROW`: the row check, which comes before the lock, is on the operand alone (40_console R134). -/
theorem sameEffect_execClearRow (r : Byte) (h : s.SameConsole s') :
    ∃ t t', exec (.clearRow r) s = .next t ∧ exec (.clearRow r) s' = .next t' ∧ s.SameEffect s' t t' := by
  by_cases legal : r.toNat < 25
  · have row : rowOperand r = some ⟨r.toNat, legal⟩ := rowOperand_row rfl
    have answer : ∀ o, exec (.clearRow r) o =
        .next (normalConsole (fun t => (clearRowOp ⟨r.toNat, legal⟩ t).advance (Instr.clearRow r).length) o) := by
      intro o
      change execClearRow r o = _
      rw [execClearRow, row]
    exact ⟨_, _, answer s, answer s',
      sameEffect_normalConsole (local_clearRowOp _) (forgetful_clearRowOp _) _ h⟩
  · have range : 25 ≤ r.toNat := Nat.le_of_not_lt legal
    exact ⟨_, _, execClearRow_range range, execClearRow_range range, [.fault .rowRange], h, State.log_EV _ _,
      State.log_EV _ _⟩

theorem sameEffect_exec {i : Instr} (console : consoleCommand i = true) (h : s.SameConsole s') :
    ∃ t t', exec i s = .next t ∧ exec i s' = .next t' ∧ s.SameEffect s' t t' := by
  cases i with
  | writeByte b => exact ⟨_, _, rfl, rfl, sameEffect_normalConsole (local_byteOp b) (forgetful_byteOp b) _ h⟩
  | writeStr bs => exact ⟨_, _, rfl, rfl, sameEffect_normalConsole (local_strOp bs) (forgetful_strOp bs) _ h⟩
  | backspace => exact ⟨_, _, rfl, rfl, sameEffect_normalConsole local_backspaceOp forgetful_backspaceOp _ h⟩
  | newLine => exact ⟨_, _, rfl, rfl, sameEffect_normalConsole local_newlineOp forgetful_newlineOp _ h⟩
  | clearRow r => exact sameEffect_execClearRow r h
  | install | remap | enable | sectionBegin | sectionEnd | breakpoint => cases console

/-- Settles O18: a console command is one console operation under the lock, or one fault that its operand decides. -/
theorem consoleIgnoresTheDispatchBlock : Obligations.ConsoleIgnoresTheDispatchBlock := by
  intro i s s' t console same ran
  obtain ⟨u, t', here, there, es, effect⟩ := sameEffect_exec console same
  cases here.symm.trans ran
  exact ⟨t', es, there, effect⟩

end Sys2Proof.Machine
end

section
/-! PROOFS. A stopped system (spec/60_exceptions.md R220, R236, R237). -/

namespace Sys2Proof.Machine

variable {s : State}

theorem step_of_fault (fault : s.fault ≠ none) : step s = .fault .faulted :=
  if_pos (Option.isSome_iff_ne_none.2 fault)

theorem step_of_stuck {reason : StuckReason} (fault : s.fault = none) (stuck : s.sys = .stuck reason) :
    step s = .fault (.deadlock reason) := by
  unfold step systemStep
  rw [if_neg (by rw [fault]; decide), stuck]

theorem step_of_halted {cause : HaltCause} (fault : s.fault = none) (halted : s.sys = .halted cause) :
    step s = haltedStep cause s := by
  unfold step systemStep
  rw [if_neg (by rw [fault]; decide), halted]

/-- A halted system waits for a device to raise its line, and for nothing else (41 R190; 60_exceptions R236). -/
theorem haltedStep_undisturbed {cause : HaltCause} (quiet : ∀ l moves, s.env ≠ .raise l :: moves) :
    haltedStep cause s = .fault (.halted cause) := by
  unfold haltedStep
  split
  · rename_i l moves planned
    exact absurd planned (quiet l moves)
  · rfl

/-- Settles O8: the three stops, of which only a halt leaves room for a device's line. -/
theorem stoppedSystemTakesNoStep : Obligations.StoppedSystemTakesNoStep := fun _ =>
  ⟨step_of_fault, fun _ => step_of_stuck,
    fun _ fault halted quiet => (step_of_halted fault halted).trans (haltedStep_undisturbed quiet)⟩

end Sys2Proof.Machine
end

section
/-! PROOFS. The traps that print a text: `BREAKPOINT`, and the double-fault path of an empty slot
(spec/60_exceptions.md R225, R231, R235; spec/41_interrupt_control.md R188, R194, R195). -/

namespace Sys2Proof.Machine

variable {s u o : State} {v : Byte}

/-! ## The console of a trap that prints -/

/-- `s` with the trap to `v` recorded and `text` written: all that a trap which prints does to the console. -/
def trapShown (v : Byte) (text : List Byte) (s : State) : State := strOp text (s.log (.deliver v))

theorem local_trapShown (v : Byte) (text : List Byte) : Local (trapShown v text) :=
  fun s o => local_strOp text (s.log (.deliver v)) o

theorem consoleStep_trapShown (v : Byte) (text : List Byte) (s : State) : ConsoleStep s (trapShown v text s) :=
  (cellStep_log s _).toConsoleStep.trans (consoleStep_strOp text _)

/-- The text comes out as one `WRITE_STR` of it after the entry of the trap leaves it (41 R194, R195). -/
theorem trapShown_written (v : Byte) (text : List Byte) (unlocked : s.lock ≠ .irq) :
    exec (.writeStr text) { s with hist := .deliver v :: s.hist } =
      .next ((trapShown v text s).advance (2 + text.length)) :=
  execWriteStr_eq (s := s.log (.deliver v)) text unlocked

/-- The console of `u` in the rest of a state with the same constants. -/
theorem State.graft_frame (par : u.par = o.par) (color : u.color = o.color) :
    u.graft o = { o with
      row := u.row, col := u.col, buf := u.buf, hwcur := u.hwcur, crtcIdx := u.crtcIdx, hist := u.hist } := by
  unfold State.graft
  rw [par, color]

theorem State.graft_graft (u o w : State) : (u.graft o).graft w = u.graft w := rfl

theorem trapShown_graft (v : Byte) (text : List Byte) (s o w : State) :
    (trapShown v text (s.graft o)).graft w = (trapShown v text s).graft w := by
  rw [local_trapShown v text s o, State.graft_graft]

/-- What `H_BREAKPOINT` and `H_DOUBLE_FAULT` print, inside their trap and on a free lock (41 R194, R195). -/
theorem printContext_trap (w : Byte) (free : s.lock = .free) :
    printContext (trapEntry w (s.log (.deliver v))) =
      .done ((trapShown v (Config.contextText s.ctxDraws) s).graft (trapEntry w s).countCtxDraw) := by
  have shown := local_trapShown v (Config.contextText s.ctxDraws) s (trapEntry w s).countCtxDraw
  rw [← shown]
  exact printContext_free (s := trapEntry w (s.log (.deliver v))) free

/-! ## `BREAKPOINT` -/

/-- The return from a handler undoes the entry, but for the count of drawn texts (60_exceptions R231, R233). -/
theorem trapReturn_trapEntry (v : Byte) (normal : s.ctx = .normal) :
    trapReturn s.intEnable (trapEntry v s).countCtxDraw = s.countCtxDraw := by
  apply State.ext
  case ctx => exact normal.symm
  all_goals rfl

theorem trapReturn_graft (u o : State) (on : Bool) : trapReturn on (u.graft o) = u.graft (trapReturn on o) := rfl

/-- A trap to `H_BREAKPOINT` on a free lock changes the console and `EV` alone (60_exceptions R235). -/
theorem trap_breakpoint {alt : Bool} (bound : s.slotOf v = .bound .breakpoint alt) (free : s.lock = .free)
    (normal : s.ctx = .normal) :
    trap v s = (trapShown v (Config.contextText s.ctxDraws) s).graft s.countCtxDraw := by
  have printed := trap_of_done bound (printContext_trap v free)
  rw [printed, trapReturn_graft, trapReturn_trapEntry v normal]

theorem execBreakpoint_installed (ok : s.par.Ok) (table : s.installed = true) (built : s.vt = builtTable s.par)
    (free : s.lock = .free) (normal : s.ctx = .normal) :
    exec .breakpoint s = .next
      ((trapShown s.par.bpVector (Config.contextText s.ctxDraws) s).graft (s.advance 1).countCtxDraw) := by
  have bound : (s.advance 1).slotOf s.par.bpVector = .bound .breakpoint false := builtTable_breakpoint ok table built
  have trapped := trap_breakpoint bound free normal
  have shown := trapShown_graft s.par.bpVector (Config.contextText s.ctxDraws) s (s.advance 1)
    (s.advance 1).countCtxDraw
  exact congrArg Host.Outcome.next (trapped.trans shown)

/-- Settles O38: `H_BREAKPOINT` prints, and the return gives back what the entry changed. -/
theorem breakpointReturnsToTheNextCommand : Obligations.BreakpointReturnsToTheNextCommand := by
  intro s ok table built free normal
  have unlocked : s.lock ≠ .irq := by rw [free]; decide
  have console := consoleStep_trapShown s.par.bpVector (Config.contextText s.ctxDraws) s
  refine ⟨_, _, Config.contextText s.ctxDraws, execBreakpoint_installed ok table built free normal, ?_,
    trapShown_written _ _ unlocked, ⟨rfl, rfl, rfl, rfl, rfl, rfl, rfl⟩, rfl⟩
  exact State.graft_frame (o := (s.advance 1).countCtxDraw) console.par console.color

theorem slotOf_uninstalled (empty : s.installed = false) (v : Byte) : s.slotOf v = .empty :=
  if_neg (by rw [empty]; decide)

/-- With no table there is no double-fault handler either (60_exceptions R225). -/
theorem trap_uninstalled (empty : s.installed = false) (v : Byte) :
    trap v s = (s.log (.deliver v)).raiseFault .unmodelledTriple := by
  have unhandled : (s.log (.deliver v)).slotOf s.par.dfVector ≠ .bound .doubleFault true := by
    rw [slotOf_uninstalled (s := s.log (.deliver v)) empty]
    decide
  rw [trap_empty (slotOf_uninstalled empty v)]
  exact if_neg unhandled

/-- Settles O40: both the breakpoint's slot and the double fault's are empty. -/
theorem breakpointWithoutATableFaults : Obligations.BreakpointWithoutATableFaults := by
  intro s empty
  have trapped := trap_uninstalled (s := s.advance 1) empty s.par.bpVector
  rw [raiseFault_eq_faultedWith] at trapped
  exact congrArg Host.Outcome.next trapped

/-! ## The double-fault path -/

/-- The trap to an empty slot with the double-fault handler installed and a free lock (60_exceptions R225; 41 R195). -/
theorem trap_doubleFault (empty : s.slotOf v = .empty) (handled : s.slotOf s.par.dfVector = .bound .doubleFault true)
    (free : s.lock = .free) :
    trap v s = ((trapShown v (Config.contextText s.ctxDraws) s).graft { s with
      sys := .halted .doubleFault, intEnable := false, ctx := .normal
      ctxDraws := s.ctxDraws + 1 }).log (.halt .doubleFault) := by
  have shown := local_trapShown v (Config.contextText s.ctxDraws) s (trapEntry s.par.dfVector s).countCtxDraw
  rw [trap_empty empty, emptySlot_doubleFault (s := s.log (.deliver v)) free handled]
  exact congrArg (fun t => leaveHandler (t.halt .doubleFault)) shown

/-- What `DF_VECTOR` finds in the table `INSTALL` builds (41 R181). -/
theorem builtTable_doubleFault (ok : s.par.Ok) (hi : s.installed = true) (ht : s.vt = builtTable s.par) :
    s.slotOf s.par.dfVector = .bound .doubleFault true := by
  have reserved := ok.df_reserved
  have kbd : Config.kbdVector ≠ s.par.dfVector := fun e => by
    rw [← e] at reserved; exact absurd reserved (by decide)
  have timer : Config.timerVector ≠ s.par.dfVector := fun e => by
    rw [← e] at reserved; exact absurd reserved (by decide)
  rw [builtTable_slotOf hi ht, if_neg kbd, if_neg timer, if_pos rfl]

/-- Above the keyboard's vector the table `INSTALL` builds is empty (41 R181). -/
theorem builtTable_above (ok : s.par.Ok) (hi : s.installed = true) (ht : s.vt = builtTable s.par)
    (above : 0x21 < v.toNat) : s.slotOf v = .empty := by
  have df : s.par.dfVector ≠ v := fun e => by have := ok.df_reserved; rw [e] at this; omega
  have bp : s.par.bpVector ≠ v := fun e => by have := ok.bp_reserved; rw [e] at this; omega
  have kbd : Config.kbdVector ≠ v := fun e => by rw [← e] at above; exact absurd above (by decide)
  have timer : Config.timerVector ≠ v := fun e => by rw [← e] at above; exact absurd above (by decide)
  rw [builtTable_slotOf hi ht, if_neg kbd, if_neg timer, if_neg df, if_neg bp]

/-- A valid base other than 0x20 is 0x28 or above, past the vectors of the table (41 R182; 60_exceptions R224). -/
theorem vectorOf_primary_above {p : Pic} {l : Nat} (valid : remapValid p.off1 p.off2 = true) (hl : l < 8)
    (rebased : p.off1 ≠ 0x20#8) : 0x21 < (vectorOf p l).toNat := by
  have vector := vectorOf_primary valid hl
  obtain ⟨aligned, -, low, -⟩ := (remapValid_iff _ _).1 valid
  have apart : p.off1.toNat ≠ 0x20 := fun e => rebased (BitVec.eq_of_toNat_eq e)
  omega

/-- `s` once the delivery of line `l` to an unbound vector is over (`unbound_delivery`; 60_exceptions R225). -/
def doubleFaulted (l : Nat) (moves : List EnvMove) (s : State) : State :=
  ((trapShown (vectorOf s.pic l) (Config.contextText s.ctxDraws) s).graft { s with
    pic := takeLine s.pic l, sys := .halted .doubleFault, intEnable := false, ctx := .normal, env := moves
    ctxDraws := s.ctxDraws + 1 }).log (.halt .doubleFault)

theorem doubleFaulted_frame (l : Nat) (moves : List EnvMove) (s : State) :
    doubleFaulted l moves s = { s with
      row := (doubleFaulted l moves s).row, col := (doubleFaulted l moves s).col, buf := (doubleFaulted l moves s).buf
      hwcur := (doubleFaulted l moves s).hwcur, crtcIdx := (doubleFaulted l moves s).crtcIdx
      hist := (doubleFaulted l moves s).hist, pic := (doubleFaulted l moves s).pic
      sys := .halted .doubleFault, intEnable := false, ctx := .normal, env := moves, ctxDraws := s.ctxDraws + 1 } := by
  have console := consoleStep_trapShown (vectorOf s.pic l) (Config.contextText s.ctxDraws) s
  have par := console.par
  have color := console.color
  unfold doubleFaulted
  generalize trapShown (vectorOf s.pic l) (Config.contextText s.ctxDraws) s = u at par color
  apply State.ext
  case par => exact par
  case color => exact color
  all_goals rfl

/-- The step of a device's delivery with the primary based elsewhere than at 0x20 (60_exceptions R225). -/
theorem unbound_delivery {l : DeviceLine} {moves : List EnvMove} (inv : s.Inv) (next : s.DeliversNext l moves)
    (rebased : s.pic.off1 ≠ 0x20#8) : step s = .next (doubleFaulted l.number moves s) := by
  have trapped := next.step_eq inv
  obtain ⟨-, on, -⟩ := next
  obtain ⟨table, mapped⟩ := inv.enabled_booted (.inl on)
  have built : s.vt = builtTable s.par := inv.table_built table
  have primary : l.number < 8 := by cases l <;> decide
  have above : 0x21 < (vectorOf s.pic l.number).toNat :=
    vectorOf_primary_above (inv.offsets_valid mapped) primary rebased
  have halted := trap_doubleFault (s := (s.setEnv moves).setPic (takeLine s.pic l.number))
    (builtTable_above inv.params table built above) (builtTable_doubleFault inv.params table built) (inv.lock_free on)
  have shown := trapShown_graft (vectorOf s.pic l.number) (Config.contextText s.ctxDraws) s
    ((s.setEnv moves).setPic (takeLine s.pic l.number))
  rw [trapped]
  exact congrArg Host.Outcome.next (halted.trans (congrArg (State.log · (.halt .doubleFault)) (shown _)))

/-- Settles O43: a valid base other than 0x20 puts the devices' vectors past those of the table. -/
theorem unboundVectorDoubleFaults : Obligations.UnboundVectorDoubleFaults := by
  intro s l moves inv next rebased
  have idle : s.pic.isr = 0#16 := inv.none_in_service next.1.1
  have primary : l.number < 8 := by cases l <;> decide
  have vector : vectorOf s.pic l.number = s.pic.off1 + BitVec.ofNat 8 l.number := if_neg (by omega)
  have taken : (doubleFaulted l.number moves s).pic =
      { s.pic with irr := clearBit s.pic.irr l.number, isr := setBit s.pic.isr l.number } := takeLine_device primary
  have written := trapShown_written (vectorOf s.pic l.number) (Config.contextText s.ctxDraws) inv.lock_not_irq
  rw [vector] at written
  refine ⟨doubleFaulted l.number moves s, _, _, unbound_delivery inv next rebased, written, ?_, ?_, fun j => ?_,
    fun j => ?_, ?_, doubleFaulted_frame _ _ _⟩
  · rw [← vector]
    exact ⟨rfl, rfl, rfl, rfl, rfl, rfl, rfl⟩
  · rw [doubleFaulted, State.log_EV, State.graft_EV, vector, State.advance_EV]
  · rw [taken]
    exact clearBit_getLsbD _ _ _
  · rw [taken, idle]
    change (setBit 0#16 l.number).getLsbD j = _
    rw [setBit_getLsbD _ _ _ (by omega), BitVec.getLsbD_zero, Bool.false_or]
  · rw [taken]

end Sys2Proof.Machine
end

section
/-! PROOFS. A timer delivery (spec/60_exceptions.md R228, R245; spec/41_interrupt_control.md R189 to R192). -/

namespace Sys2Proof.Machine

variable {s : State} {v : Byte}

/-! ## One raise and its delivery -/

/-- What `TIMER_VECTOR` finds in the table `INSTALL` builds (41 R181). -/
theorem builtTable_timer (hi : s.installed = true) (ht : s.vt = builtTable s.par) :
    s.slotOf 0x20#8 = .bound .timer false := by
  rw [builtTable_slotOf hi ht, if_neg (by decide), if_pos timerVector_eq]

/-- A trap to `H_TIMER` with its line alone in service: the acknowledgement and nothing else (41 R192). -/
theorem trap_timer {l : Nat} (vector : vectorOf s.pic l = v) (bound : s.slotOf v = .bound .timer false)
    (mapped : s.pic.remapped = true) (valid : remapValid s.pic.off1 s.pic.off2 = true) (hl : l < 8)
    (only : s.pic.isr = setBit 0#16 l) :
    trap v s = { s with
      pic := { s.pic with isr := clearBit s.pic.isr l }
      hist := .eoi .primary :: .deliver v :: s.hist, ctx := .normal } := by
  have acked := acknowledge_only (s := trapEntry v (s.log (.deliver v))) mapped valid hl only
  rw [trapEntry_pic, State.log_pic, vector] at acked
  rw [trap_of_done bound acked]
  apply State.ext <;> simp

/-- `s` once a timer delivery is over (`timer_delivery`). -/
def timerServed (moves : List EnvMove) (s : State) : State :=
  { s with
    pic := { s.pic with irr := clearBit s.pic.irr 0 }
    hist := .eoi .primary :: .deliver 0x20#8 :: s.hist, env := moves }

/-- The step of a timer delivery (41 R191, R192). -/
theorem timer_delivery {moves : List EnvMove} (inv : s.Inv) (next : s.DeliversNext .timer moves)
    (base : s.pic.off1 = 0x20#8) : step s = .next (timerServed moves s) := by
  have trapped := next.step_eq inv
  obtain ⟨⟨live, -⟩, on, -⟩ := next
  obtain ⟨table, mapped⟩ := inv.enabled_booted (.inl on)
  have idle : s.pic.isr = 0#16 := inv.none_in_service live
  have vector : vectorOf s.pic 0 = 0x20#8 := by rw [vectorOf, base]; rfl
  have taken : takeLine s.pic 0 = { s.pic with irr := clearBit s.pic.irr 0, isr := setBit 0#16 0 } := by
    rw [takeLine_device (by decide), idle]
  have served := trap_timer (s := (s.setEnv moves).setPic (takeLine s.pic 0)) (l := 0) vector
    (builtTable_timer table (inv.table_built table)) mapped (inv.offsets_valid mapped) (by decide)
    (by rw [State.setPic_pic, taken])
  rw [trapped, DeviceLine.number, vector, served, timerServed]
  simp [taken, clearBit_setBit_zero, idle, inv.ctx_normal]

/-- A raise of the timer's line leaves its delivery as the next step, where nothing masks it (41 R190, R191). -/
theorem raised_deliversNext {moves : List EnvMove} (next : s.TakesEventNext (.raise .timer) (.deliver :: moves))
    (on : s.intEnable = true) (unmasked : s.pic.mask.getLsbD 0 = false) :
    (raiseLine .timer (s.setEnv (.deliver :: moves))).DeliversNext .timer moves := by
  obtain ⟨live, fault, -⟩ := next
  refine ⟨⟨live, fault, rfl⟩, on, ?_, unmasked, nofun⟩
  change (setBit s.pic.irr 0).getLsbD 0 = true
  rw [setBit_getLsbD _ _ _ (by decide), beq_self_eq_true, Bool.or_true]

/-- Settles O41: the raise leaves the timer's delivery next, and that delivery is acknowledged at once. -/
theorem timerDeliveryAcknowledgesOnce : Obligations.TimerDeliveryAcknowledgesOnce := by
  intro s moves inv next on base _ unmasked
  have raised := step_of_raise next
  have delivered := timer_delivery (stepKeepsTheInvariant _ _ inv raised) (raised_deliversNext next on unmasked) base
  refine ⟨_, _, raised, delivered, ?_, inv.none_in_service next.1, ?_, fun l ne => ?_, rfl, rfl, rfl, rfl, rfl⟩
  · simp [State.EV, timerServed, raiseLine]
  · exact (clearBit_getLsbD _ 0 0).trans (Bool.and_false _)
  · change (clearBit (setBit s.pic.irr 0) 0).getLsbD l = _
    rw [clearBit_getLsbD_of_ne ne, setBit_getLsbD _ _ _ (by decide), beq_eq_false_iff_ne.2 ne, Bool.or_false]

/-! ## Both devices pending -/

/-- The entry of a trap is the first that its step appends to `EV` (60_exceptions R231). -/
theorem trap_EV (v : Byte) (s : State) : ∃ es, (trap v s).EV = s.EV ++ .deliver v :: es := by
  have logged : (s.log (.deliver v)).hist <:+ (trap v s).hist := by
    unfold trap
    split
    · exact (trapStep_emptySlot _).history
    · exact (trapStep_trapBody _ _ _).history
  obtain ⟨new, e⟩ := logged
  exact ⟨new.reverse, by simp [State.EV, ← e]⟩

/-- A trap leaves the requests pending as they are (60_exceptions R231). -/
theorem trap_irr (v : Byte) (s : State) : (trap v s).pic.irr = s.pic.irr := by rw [(trapStep_trap v s).pic]

/-- Settles O46: the timer's line is the first in the order of delivery, and a trap touches no other request. -/
theorem timerBeatsKeyboard : Obligations.TimerBeatsKeyboard := by
  intro s moves inv next on timer keyboard unmasked
  have timerNext : s.DeliversNext .timer moves := ⟨next, on, timer, unmasked, nofun⟩
  have vector : vectorOf s.pic 0 = s.pic.off1 := BitVec.add_zero _
  obtain ⟨es, entries⟩ := trap_EV s.pic.off1 ((s.setEnv moves).setPic (takeLine s.pic 0))
  have taken := timerNext.step_eq inv
  rw [DeviceLine.number, vector] at taken
  refine ⟨_, es, taken, entries, ?_, ?_⟩
  · rw [trap_irr]
    exact (clearBit_getLsbD s.pic.irr 0 0).trans (Bool.and_false _)
  · rw [trap_irr]
    exact (clearBit_getLsbD_of_ne (by decide)).trans keyboard

end Sys2Proof.Machine
end

section
/-! PROOFS. The vector table once `INSTALL` has built it (spec/70_reset_and_hazards.md R282). -/

namespace Sys2Proof.Machine

variable {s t u : State}

/-- `t` has the vector table of `s`, and is installed where `s` is. -/
structure State.KeepsTable (s t : State) : Prop where
  installed : t.installed = s.installed
  vt : t.vt = s.vt

theorem State.KeepsTable.trans (h : s.KeepsTable t) (k : t.KeepsTable u) : s.KeepsTable u :=
  ⟨k.installed.trans h.installed, k.vt.trans h.vt⟩

theorem TrapStep.keepsTable (h : TrapStep s t) : s.KeepsTable t := ⟨by rw [h.frame], by rw [h.frame]⟩

theorem keepsTable_settle (s : State) : s.KeepsTable s.settle := ⟨s.settle_installed, s.settle_vt⟩

theorem keepsTable_deliver (s : State) : s.KeepsTable (deliver s) := by
  rcases deliver_cases s with e | ⟨l, -, -, -, -, -, e⟩
  · rw [e]; exact ⟨rfl, rfl⟩
  · have taken : s.KeepsTable (s.setPic (takeLine s.pic l)) := ⟨rfl, rfl⟩
    rw [e]; exact taken.trans (trapStep_trap _ _).keepsTable

/-- The one command that writes the table is refused once it is installed (41 R181). -/
theorem exec_keepsTable {i : Instr} (table : s.installed = true) (h : exec i s = .next u) : s.KeepsTable u := by
  cases exec_cases h with
  | console f _ k e =>
    have written := (trapStep_normalConsole k s).keepsTable
    rw [e, normalConsole_advance]
    exact ⟨written.installed, written.vt⟩
  | installed fresh => rw [table] at fresh; cases fresh
  | trapped e =>
    have trapped := (trapStep_trap s.par.bpVector (s.advance i.length)).keepsTable
    rw [e]
    exact ⟨trapped.installed, trapped.vt⟩
  | faulted _ e | halted e | stuck e | remapped _ _ _ _ e | enabled _ _ _ e | begun _ e | ended _ e =>
    rw [e]; exact ⟨rfl, rfl⟩

theorem step_keepsTable (table : s.installed = true) (h : step s = .next t) : s.KeepsTable t := by
  have moved : s.KeepsTable s.moved := ⟨rfl, rfl⟩
  cases step_cases h with
  | raised _ _ l e => rw [e]; exact ⟨rfl, rfl⟩
  | delivered _ _ e => rw [e]; exact moved.trans (keepsTable_deliver _)
  | command _ _ c =>
    cases c with
    | ended _ e => rw [e]; exact moved.trans (keepsTable_settle _)
    | ran _ _ i _ _ u r e =>
      have kept : s.moved.KeepsTable u := exec_keepsTable table r
      rw [e]; exact moved.trans (kept.trans (keepsTable_settle u))
    | rejected _ _ code _ e => rw [e]; exact ⟨rfl, rfl⟩

/-- Settles O13: no operation of a step but a first `INSTALL` writes the table. -/
theorem installedTableIsImmutable : Obligations.InstalledTableIsImmutable := by
  refine ⟨fun s t table h => ?_, fun s => execInstall_again⟩
  obtain ⟨installed, vt⟩ := step_keepsTable table h
  exact ⟨installed.trans table, vt⟩

end Sys2Proof.Machine
end

section
/-! PROOFS. A `BREAKPOINT` inside a section (spec/70_reset_and_hazards.md R278; spec/41_interrupt_control.md R187). -/

namespace Sys2Proof.Machine

variable {s : State} {v : Byte}

/-- A trap whose handler does not return: `IF` stays as the handler left it (60_exceptions R231). -/
theorem trap_of_stopped {t : State} {h : Handler} {alt : Bool} (bound : s.slotOf v = .bound h alt)
    (stopped : runHandler h v (trapEntry v (s.log (.deliver v))) = .stopped t) : trap v s = leaveHandler t := by
  rw [trap_bound bound, trapBody, stopped]

/-- A trap to `H_BREAKPOINT` while normal mode holds the lock makes no console access (41 R187). -/
theorem trap_breakpoint_locked {alt : Bool} (bound : s.slotOf v = .bound .breakpoint alt) (held : s.lock = .normal) :
    trap v s = { s with
      hist := .deliver v :: s.hist, sys := .stuck .irqDeadlock, intEnable := false, ctx := .normal
      ctxDraws := s.ctxDraws + 1 } := by
  have waits : runHandler .breakpoint v (trapEntry v (s.log (.deliver v))) = _ :=
    printContext_locked (s := trapEntry v (s.log (.deliver v))) held
  rw [trap_of_stopped bound waits]
  apply State.ext <;> simp

/-- Settles O39: `H_BREAKPOINT` waits for the lock that the code it interrupts holds. -/
theorem breakpointInASectionDeadlocks : Obligations.BreakpointInASectionDeadlocks := by
  intro s ok table built held
  have bound : (s.advance 1).slotOf s.par.bpVector = .bound .breakpoint false := builtTable_breakpoint ok table built
  exact congrArg Host.Outcome.next (trap_breakpoint_locked bound held)

end Sys2Proof.Machine
end

section
/-! PROOFS. The model faults of `ACK` are never raised (spec/70_reset_and_hazards.md R276, R279;
spec/41_interrupt_control.md R189). A delivery that reaches a device's handler finds its line alone in service, and any
other delivery or trap reaches no handler that acknowledges. -/

namespace Sys2Proof.Machine

variable {s t u : State}

/-- The model fault that `s` records, if there is one, is none of `ACK`'s. -/
def State.AckFaultFree (s : State) : Prop := ∀ code pc, s.fault = some (code, pc) → ackFault code = false

theorem State.AckFaultFree.of_none (h : s.fault = none) : s.AckFaultFree := fun code pc e => by
  rw [h] at e; cases e

theorem ackFaultFree_faultedWith {code : FaultCode} (other : ackFault code = false) :
    (s.faultedWith code).AckFaultFree := by
  intro code' pc e
  cases e
  exact other

theorem State.AckFaultFree.settle (h : s.AckFaultFree) : s.settle.AckFaultFree := fun code pc e =>
  h code pc (s.settle_fault ▸ e)

/-! ## Deliveries -/

/-- A handler that is done has raised no fault (60_exceptions R220). -/
theorem runHandler_done_fault {h : Handler} {v : Byte} (done : runHandler h v s = .done t) : t.fault = s.fault := by
  have ordered := orderly_runHandler h v s
  rw [done] at ordered
  cases ordered with
  | done _ _ fault => exact fault

/-- A device's handler with its line alone in service and the lock free is done (41 R192, R193). -/
theorem deviceHandler_only {h : Handler} {l : Nat} (device : h = .timer ∨ h = .keyboard) (free : s.lock = .free)
    (mapped : s.pic.remapped = true) (valid : remapValid s.pic.off1 s.pic.off2 = true) (hl : l < 8)
    (only : s.pic.isr = setBit 0#16 l) : ∃ t, runHandler h (vectorOf s.pic l) s = .done t := by
  rcases device with rfl | rfl
  · exact ⟨_, acknowledge_only mapped valid hl only⟩
  · exact ⟨_, keyboardHandler_only free mapped valid hl only⟩

/-- A trap on the vector of a device's line that alone is in service raises no fault: its handler returns, or there is
none and the system halts (60_exceptions R225, R231). -/
theorem trap_device_fault {l : Nat} (ok : s.par.Ok) (table : s.installed = true) (built : s.vt = builtTable s.par)
    (free : s.lock = .free) (mapped : s.pic.remapped = true) (valid : remapValid s.pic.off1 s.pic.off2 = true)
    (device : l < 2) (only : s.pic.isr = setBit 0#16 l) : (trap (vectorOf s.pic l) s).fault = s.fault := by
  rcases builtTable_device ok table built (vectorOf_device valid device) with empty | ⟨h, alt, theirs, bound⟩
  · rw [trap_doubleFault empty (builtTable_doubleFault ok table built) free]
    rfl
  · obtain ⟨t, done⟩ := deviceHandler_only (l := l)
      (s := trapEntry (vectorOf s.pic l) (s.log (.deliver (vectorOf s.pic l)))) theirs free mapped valid (by omega) only
    rw [trap_of_done bound done, trapReturn_fault, runHandler_done_fault done, trapEntry_fault, State.log_fault]

/-- A delivery raises no fault in a system that meets the invariant (70_reset R276). -/
theorem State.Inv.deliver_fault (h : s.Inv) : (Machine.deliver s).fault = s.fault := by
  rcases deliver_cases s with e | ⟨l, live, -, on, -, first, e⟩
  · rw [e]
  · obtain ⟨table, mapped⟩ := h.enabled_booted (.inl on)
    have device : l < 2 := h.delivers_device first
    have taken : takeLine s.pic l = { s.pic with irr := clearBit s.pic.irr l, isr := setBit 0#16 l } := by
      rw [takeLine_device (by omega), h.none_in_service live]
    rw [e, taken]
    exact trap_device_fault (s := s.setPic _) h.params table (h.table_built table) (h.lock_free on) mapped
      (h.offsets_valid mapped) device rfl

/-! ## Commands -/

/-- `BREAKPOINT` returns from its handler or deadlocks; without a table its fault is the empty slot's (41 R188). -/
theorem State.Inv.execBreakpoint_ackFaultFree (h : s.Inv) (fresh : s.fault = none) :
    ∃ t, exec .breakpoint s = .next t ∧ t.AckFaultFree := by
  cases table : s.installed with
  | false => exact ⟨_, breakpointWithoutATableFaults s table, ackFaultFree_faultedWith rfl⟩
  | true =>
    have built := h.table_built table
    cases held : s.lock with
    | free => exact ⟨_, execBreakpoint_installed h.params table built held h.ctx_normal, .of_none fresh⟩
    | normal => exact ⟨_, breakpointInASectionDeadlocks s h.params table built held, .of_none fresh⟩
    | irq => exact absurd held h.lock_not_irq

theorem ConsoleStep.ackFaultFree (k : ConsoleStep s t) (fresh : s.fault = none) (n : Nat) :
    (t.advance n).AckFaultFree := by
  obtain ⟨-, -, -, fault, -⟩ := k.kept
  exact .of_none (fault.trans fresh)

theorem execClearRow_ackFaultFree (r : Byte) (unlocked : s.lock ≠ .irq) (fresh : s.fault = none) :
    ∃ t, exec (.clearRow r) s = .next t ∧ t.AckFaultFree := by
  by_cases legal : r.toNat < 25
  · exact ⟨_, execClearRow_eq (q := ⟨r.toNat, legal⟩) rfl unlocked,
      (cellStep_clearRowOp _ s).toConsoleStep.ackFaultFree fresh 2⟩
  · exact ⟨_, execClearRow_range (Nat.le_of_not_lt legal), ackFaultFree_faultedWith rfl⟩

theorem execRemap_ackFaultFree (a b : Byte) (fresh : s.fault = none) :
    ∃ t, exec (.remap a b) s = .next t ∧ t.AckFaultFree := by
  cases mapped : s.pic.remapped with
  | true => exact ⟨_, execRemap_again mapped, ackFaultFree_faultedWith rfl⟩
  | false =>
    cases valid : remapValid a b with
    | true => exact ⟨_, execRemap_valid mapped valid, .of_none fresh⟩
    | false => exact ⟨_, execRemap_malformed mapped valid, .of_none fresh⟩

theorem execEnable_ackFaultFree (fresh : s.fault = none) : ∃ t, exec .enable s = .next t ∧ t.AckFaultFree := by
  by_cases early : s.installed = false ∨ s.pic.remapped = false
  · exact ⟨_, execEnable_early early, ackFaultFree_faultedWith rfl⟩
  · rw [not_or, Bool.not_eq_false, Bool.not_eq_false] at early
    rw [execEnable_ready early.1 early.2]
    split
    · exact ⟨_, rfl, ackFaultFree_faultedWith rfl⟩
    · exact ⟨_, rfl, .of_none fresh⟩

/-- Each model fault that a command raises is its own, and none of them is `ACK`'s (60_exceptions R221). -/
theorem State.Inv.exec_ackFaultFree (h : s.Inv) (fresh : s.fault = none) (i : Instr) :
    ∃ t, exec i s = .next t ∧ t.AckFaultFree := by
  have unlocked := h.lock_not_irq
  cases i with
  | writeByte b =>
    exact ⟨_, execWriteByte_eq b unlocked, (cellStep_byteOp s b).toConsoleStep.ackFaultFree fresh 2⟩
  | writeStr bs => exact ⟨_, execWriteStr_eq bs unlocked, (consoleStep_strOp bs s).ackFaultFree fresh _⟩
  | backspace => exact ⟨_, execBackspace_eq unlocked, (cellStep_backspaceOp s).toConsoleStep.ackFaultFree fresh 1⟩
  | newLine => exact ⟨_, execNewLine_eq unlocked, (cellStep_newlineOp s).toConsoleStep.ackFaultFree fresh 1⟩
  | clearRow r => exact execClearRow_ackFaultFree r unlocked fresh
  | install =>
    cases table : s.installed with
    | true => exact ⟨_, execInstall_again table, ackFaultFree_faultedWith rfl⟩
    | false => exact ⟨_, execInstall_first table, .of_none fresh⟩
  | remap a b => exact execRemap_ackFaultFree a b fresh
  | enable => exact execEnable_ackFaultFree fresh
  | sectionBegin =>
    by_cases held : s.lock = .normal
    · exact ⟨_, execSectionBegin_held held, .of_none fresh⟩
    · exact ⟨_, execSectionBegin_unlocked held, .of_none fresh⟩
  | sectionEnd =>
    by_cases held : s.lock = .normal
    · exact ⟨_, execSectionEnd_held held, .of_none fresh⟩
    · exact ⟨_, execSectionEnd_unlocked held, ackFaultFree_faultedWith rfl⟩
  | breakpoint => exact h.execBreakpoint_ackFaultFree fresh

/-- The two model faults of the decoder are its own (30_encoding R96, R97). -/
theorem decode_reject_not_ackFault {bs : List Byte} {code : FaultCode} (h : decode bs = .reject code) :
    ackFault code = false := by
  cases bs with
  | nil => cases h; rfl
  | cons op rest =>
    by_cases legal : op ∈ legalOpcodes
    · rw [decode_reject_of_legal legal h]; rfl
    · rw [decode_illegal legal] at h; cases h; rfl

theorem State.Inv.step_ackFaultFree (h : s.Inv) (r : step s = .next t) : t.AckFaultFree := by
  cases step_cases r with
  | raised fresh _ l e => rw [e]; exact .of_none fresh
  | delivered fresh _ e => rw [e]; exact .of_none (h.moved.deliver_fault.trans fresh)
  | command fresh _ c =>
    cases c with
    | ended _ e => rw [e]; exact (State.AckFaultFree.of_none (s := s.moved) fresh).settle
    | ran _ _ i _ _ u ran e =>
      obtain ⟨w, answer, free⟩ := h.moved.exec_ackFaultFree fresh i
      obtain rfl : w = u := Host.Outcome.next.inj (answer.symm.trans ran)
      rw [e]; exact free.settle
    | rejected _ _ code d e => rw [e]; exact ackFaultFree_faultedWith (decode_reject_not_ackFault d)

/-- Settles O17: no delivery raises a fault at all, and no command or decoder fault is `ACK`'s. -/
theorem noAcknowledgeFaultIsReachable : Obligations.NoAcknowledgeFaultIsReachable :=
  fun _ _ code pc inv r => inv.step_ackFaultFree r code pc

end Sys2Proof.Machine
end

section
/-! PROOFS. A device's delivery is acknowledged exactly once (spec/70_reset_and_hazards.md R279;
spec/41_interrupt_control.md R189 to R193): no access of the console is an end-of-interrupt. -/

namespace Sys2Proof.Machine

variable {s : State}

/-! ## Entries without an end-of-interrupt -/

/-- No entry of `es` is an end-of-interrupt. -/
def NoEoi (es : List Event) : Prop := ∀ e ∈ es, isEoi e = false

theorem noEoi_nil : NoEoi [] := nofun

theorem NoEoi.cons {e : Event} {es : List Event} (he : isEoi e = false) (hes : NoEoi es) : NoEoi (e :: es) :=
  List.forall_mem_cons.2 ⟨he, hes⟩

theorem NoEoi.append {es fs : List Event} (hes : NoEoi es) (hfs : NoEoi fs) : NoEoi (es ++ fs) :=
  List.forall_mem_append.2 ⟨hes, hfs⟩

theorem noEoi_map {α : Type} {f : α → Event} (hf : ∀ x, isEoi (f x) = false) (xs : List α) : NoEoi (xs.map f) :=
  List.forall_mem_map.2 fun x _ => hf x

theorem noEoi_flatMap {α : Type} {f : α → List Event} (hf : ∀ x, NoEoi (f x)) (xs : List α) :
    NoEoi (xs.flatMap f) := by
  intro e he
  obtain ⟨x, -, mem⟩ := List.mem_flatMap.1 he
  exact hf x e mem

theorem noEoi_scrollTrace (s : State) : NoEoi (scrollTrace s) :=
  (noEoi_flatMap (fun _ => noEoi_flatMap (fun _ => .cons rfl (.cons rfl noEoi_nil)) _) _).append
    (noEoi_map (fun _ => rfl) _)

theorem noEoi_lineTrace (s : State) : NoEoi (lineTrace s) := by
  unfold lineTrace
  split
  · exact noEoi_scrollTrace s
  · exact noEoi_nil

theorem noEoi_eraseTrace (s : State) : NoEoi (eraseTrace s) := by
  unfold eraseTrace
  split
  · exact noEoi_nil
  · split <;> exact .cons rfl noEoi_nil

theorem noEoi_byteTrace (s : State) (b : Byte) : NoEoi (byteTrace s b) := by
  have wrapped : NoEoi (if s.col.val = 80 then lineTrace s else []) := by
    split
    · exact noEoi_lineTrace s
    · exact noEoi_nil
  unfold byteTrace
  split
  · exact noEoi_lineTrace s
  · split
    · exact noEoi_eraseTrace s
    · exact wrapped.append (.cons rfl noEoi_nil)

theorem noEoi_bytesTrace (bs : List Byte) (s : State) : NoEoi (bytesTrace bs s) := by
  induction bs generalizing s with
  | nil => exact noEoi_nil
  | cons b bs ih => exact (noEoi_byteTrace s b).append (ih (byteOp s b))

theorem noEoi_syncTrace (p : Params) (pos : Word) : NoEoi (syncTrace p pos) :=
  .cons rfl (.cons rfl (.cons rfl (.cons rfl noEoi_nil)))

theorem noEoi_writeStr (bs : List Byte) (s : State) : NoEoi (consoleTrace (.writeStr bs) s) :=
  (noEoi_bytesTrace bs s).append (noEoi_syncTrace _ _)

/-! ## The delivery -/

/-- Up to its acknowledgement a keyboard delivery appends its trap, then the handler's accesses (41 R193). -/
theorem keyShown_EV (wf : Memory.wf s.buf) (ok : s.par.Ok) :
    ∃ es, (keyShown s).EV = s.EV ++ .deliver 0x21#8 :: es ∧ NoEoi es := by
  have recorded : (keyRecorded s).EV =
      s.EV ++ [.deliver 0x21#8, .portR s.par.kbdDataPort (Config.kbdByte s.kbdReads)] := by
    simp [State.EV, keyRecorded]
  unfold keyShown
  cases (keyAnswer s).2 with
  | none => exact ⟨_, recorded, .cons rfl noEoi_nil⟩
  | some key =>
    have written := strOp_EV (s := keyRecorded s) (keyText key) wf ok
    rw [recorded, List.append_assoc] at written
    exact ⟨_, written, .cons rfl (noEoi_writeStr _ _)⟩

/-- Settles O51: the timer's handler does nothing but acknowledge, the keyboard's nothing that is an end-of-interrupt
before it does. -/
theorem everyDeliveryIsAcknowledgedOnce : Obligations.EveryDeliveryIsAcknowledgedOnce := by
  intro s l moves inv next base
  have idle : s.pic.isr = 0#16 := inv.none_in_service next.1.1
  have on : s.intEnable = true := next.2.1
  cases l with
  | timer =>
    have entries : (timerServed moves s).EV = s.EV ++ [.deliver 0x20#8, .eoi .primary] := by
      simp [State.EV, timerServed]
    exact ⟨timerServed moves s, [], timer_delivery inv next base, entries, noEoi_nil, idle,
      clearBit_getLsbD s.pic.irr 0, rfl, rfl, on, inv.ctx_normal, rfl⟩
  | keyboard =>
    obtain ⟨es, shown, silent⟩ := keyShown_EV inv.buf_wf inv.params
    have entries : (keyServed s moves).EV = s.EV ++ .deliver 0x21#8 :: (es ++ [.eoi .primary]) := by
      rw [keyServed_EV, shown, List.append_assoc, List.cons_append]
    exact ⟨keyServed s moves, es, keyboard_delivery inv next base, entries, silent, idle,
      clearBit_getLsbD s.pic.irr 1, rfl, rfl, on, inv.ctx_normal, rfl⟩

end Sys2Proof.Machine
end

section
/-! PROOFS. The state after reset (spec/70_reset_and_hazards.md R270, R271). -/

namespace Sys2Proof.Machine

theorem resetWith_slot (p : Params) (d : ResetDraws) (stream : List Byte) (env : List EnvMove) (v : Fin 256) :
    (State.resetWith p d stream env).vt[v] = .empty := Vector.getElem_replicate _

theorem resetWith_sys (p : Params) (d : ResetDraws) (stream : List Byte) (env : List EnvMove) :
    (State.resetWith p d stream env).sys = if stream = [] then .idle else .running := by
  cases stream <;> rfl

/-- Settles O9: each register is a field of the reset state; the run state depends on the stream. -/
theorem resetLeavesTheStatedValues : Obligations.ResetLeavesTheStatedValues := fun p d stream env =>
  ⟨rfl, rfl, rfl, rfl, rfl, rfl, rfl, rfl, rfl, rfl, resetWith_slot p d stream env, rfl, rfl, rfl, rfl, rfl, rfl, rfl,
    rfl, rfl, resetWith_sys p d stream env, rfl, rfl⟩

/-- With a stream the system is running at its first command, without one it is idle at its end (10_state R27). -/
theorem resetWith_inv {p : Params} {d : ResetDraws} (stream : List Byte) (env : List EnvMove) (ok : p.Ok)
    (wf : Memory.wf d.buf) (window : Memory.inWindow p.consoleBase d.buf) :
    (State.resetWith p d stream env).Inv where
  params := ok
  buf_wf := wf
  buf_window := window
  pc_in_stream := Nat.zero_le _
  fault_iff := by
    rw [resetWith_sys]
    refine iff_of_false nofun ?_
    split <;> decide
  running_pc := fun run => by
    cases stream with
    | nil => cases run
    | cons => exact Nat.succ_pos _
  idle_pc := fun idle => by
    cases stream with
    | nil => rfl
    | cons => cases idle
  ctx_normal := rfl
  lock_not_irq := nofun
  locked_masked := nofun
  enabled_booted := fun on => on.elim nofun nofun
  table_built := nofun
  table_empty := fun _ => rfl
  offsets_valid := nofun
  none_in_service := fun _ => rfl
  device_lines := fun _ _ => BitVec.getLsbD_zero

/-- The model's parameters meet the spec's constraints (93_implementation_defined GK1, GK2, GK6, GK8). -/
theorem Params.default_ok : Params.default.Ok := by
  constructor <;> decide

/-- Settles O10: the model's reset state is the one of its default parameters, with no byte listed. -/
theorem resetMeetsTheInvariant : Obligations.ResetMeetsTheInvariant :=
  ⟨fun _ _ stream env ok wf window => resetWith_inv stream env ok wf window,
    resetWith_inv [] [] Params.default_ok ⟨.nil, nofun⟩ nofun⟩

end Sys2Proof.Machine
end

section
/-! PROOFS. The boot order (spec/70_reset_and_hazards.md R273). -/

namespace Sys2Proof.Machine

variable {s : State} {a b : Byte}

/-- `s` once `REMAP a, b`, `INSTALL` and `ENABLE` have run (`runCommands_boot`). -/
def State.afterBoot (s : State) (a b : Byte) : State :=
  { s with
    pic := { s.pic with off1 := a, off2 := b, remapped := true }
    vt := builtTable s.par, installed := true, intEnable := true, cmdPc := s.cmdPc + 5 }

theorem execEnable_unlocked (table : s.installed = true) (offsets : s.pic.remapped = true)
    (unlocked : s.lock ≠ .normal) : exec .enable s = .next { s with intEnable := true, cmdPc := s.cmdPc + 1 } := by
  rw [execEnable_ready table offsets, if_neg unlocked]

/-- The boot order completes in a system that is not booted (70_reset R273). -/
theorem runCommands_boot (bare : s.installed = false) (fresh : s.pic.remapped = false) (unlocked : s.lock ≠ .normal)
    (valid : remapValid a b = true) : runCommands [.remap a b, .install, .enable] s = .next (s.afterBoot a b) := by
  refine (runCommands_cons _ (execRemap_valid fresh valid)).trans
    ((runCommands_cons _ (execInstall_first ?_)).trans (runCommands_singleton ?_))
  · exact bare
  · exact execEnable_unlocked rfl rfl unlocked

/-- `REMAP` and `INSTALL` write different registers, so that their order does not matter (70_reset R273). -/
theorem runCommands_boot_swapped (bare : s.installed = false) (fresh : s.pic.remapped = false)
    (unlocked : s.lock ≠ .normal) (valid : remapValid a b = true) :
    runCommands [.install, .remap a b, .enable] s = .next (s.afterBoot a b) := by
  refine (runCommands_cons _ (execInstall_first bare)).trans
    ((runCommands_cons _ (execRemap_valid ?_ valid)).trans (runCommands_singleton ?_))
  · exact fresh
  · refine (execEnable_unlocked ?_ ?_ ?_).trans (congrArg Host.Outcome.next ?_)
    · rfl
    · rfl
    · exact unlocked
    · apply State.ext <;> simp [State.afterBoot]

/-- Settles O49: from reset, with the boot's own bases. -/
theorem bootOrderEnablesInterrupts : Obligations.BootOrderEnablesInterrupts := by
  refine ⟨rfl, fun p d stream env ok => ?_⟩
  have valid : remapValid 0x20#8 0x28#8 = true := by decide
  exact ⟨(State.resetWith p d stream env).afterBoot 0x20#8 0x28#8, runCommands_boot rfl rfl nofun valid,
    runCommands_boot_swapped rfl rfl nofun valid, rfl, builtTable_timer rfl rfl, builtTable_keyboard rfl rfl,
    builtTable_doubleFault ok rfl rfl, builtTable_breakpoint ok rfl rfl⟩

end Sys2Proof.Machine
end
